-- ==== Sys2Proof/Word.lean ====
section
/-!
DEFINITION. The bit-pattern types of the machine (00_scope.md R8): a word is 32 bits, a halfword 16, a byte 8;
a register field is 5 bits (10_state.md R20), an immediate 16, a jump target 26.
-/

namespace Sys2Proof

/-- `Bits32`: register contents, addresses while they are computed, instruction words (00_scope.md R8). -/
abbrev Word := BitVec 32

/-- One memory cell (10_state.md R31). -/
abbrev Byte := BitVec 8

/-- A 5-bit register number, of a GPR or of an FPR (10_state.md R20, R28). -/
abbrev RegIdx := BitVec 5

/-- A raw 16-bit immediate field (30_encoding.md R103). -/
abbrev Imm16 := BitVec 16

end Sys2Proof
end

