-- ==== Sys2Proof/Machine/Float.lean ====
section
/-!
DEFINITION. The arithmetic record `fp` of 44_float.md R261 on binary32 patterns (00_scope.md R13): every finite value is a
whole number of units of 2^-149, so sums, products and quotients are exact naturals or fractions of naturals, rounded
once, to nearest with ties to even, with gradual underflow. An operation answers none where the spec says the result
is some NaN pattern, a draw.
-/

namespace Sys2Proof.Machine

/-- The sign bit, `v[31]`. -/
def signOf (v : Word) : Bool := v.getLsbD 31

/-- The biased exponent, `v[30:23]`. -/
def expOf (v : Word) : Nat := (v.extractLsb' 23 8).toNat

/-- The fraction, `v[22:0]`. -/
def fracOf (v : Word) : Nat := (v.extractLsb' 0 23).toNat

/-- `isNaN(v)` (00_scope.md R13). -/
def isNaN (v : Word) : Bool := expOf v == 255 && fracOf v != 0

/-- An infinity. -/
def isInf (v : Word) : Bool := expOf v == 255 && fracOf v == 0

/-- Either zero. -/
def isZero (v : Word) : Bool := expOf v == 0 && fracOf v == 0

/-- The magnitude in units of 2^-149: exact for every finite pattern; 2^277, above every finite one, for an infinity. -/
def unitsOf (v : Word) : Nat :=
  if expOf v = 0 then fracOf v else (2 ^ 23 + fracOf v) * 2 ^ (expOf v - 1)

/-- The signed value in units of 2^-149; both zeros give 0. -/
def signedUnits (v : Word) : Int :=
  if signOf v then -(unitsOf v : Int) else unitsOf v

/-- The key by which patterns that are no NaN are ordered (44_float.md R271): numbers by value, `-0 = +0`, the
infinities outside every finite value. -/
def orderKey (v : Word) : Int := signedUnits v

/-- `n / d` rounded to a natural, to nearest, ties to even. -/
def roundEven (n d : Nat) : Nat :=
  let q := n / d
  let r := n % d
  if 2 * r < d then q else if d < 2 * r then q + 1 else q + q % 2

/-- The 31 magnitude bits of the binary32 number nearest to `n / d` units of 2^-149, ties to even, an overflow going
to infinity (44_float.md R261(a)). The spacing is `2^k` units, with `k = 0` below `2^24` units; the carry of the rounding into
the next binade is the carry of the sum. -/
def roundUnits (n d : Nat) : Nat :=
  let q := n / d
  let k := if q < 2 ^ 24 then 0 else Nat.log2 q - 23
  min (k * 2 ^ 23 + roundEven n (d * 2 ^ k)) 0x7F800000

/-- A pattern from a sign and 31 magnitude bits. -/
def packFloat (neg : Bool) (mag : Nat) : Word :=
  BitVec.ofNat 32 ((if neg then 2 ^ 31 else 0) + mag)

/-- The infinity of a sign. -/
def infOf (neg : Bool) : Word := packFloat neg 0x7F800000

/-- The zero of a sign. -/
def zeroOf (neg : Bool) : Word := packFloat neg 0

/-- Bit 31 inverted (44_float.md R267). -/
def flipSign (v : Word) : Word := v ^^^ 0x80000000#32

/-- Bit 31 cleared (44_float.md R266). -/
def clearSign (v : Word) : Word := v &&& 0x7FFFFFFF#32

/-- `fp.add` (44_float.md R261). -/
def fpAdd (a b : Word) : Option Word :=
  if isNaN a || isNaN b then none
  else if isInf a then (if isInf b && signOf a != signOf b then none else some a)
  else if isInf b then some b
  else
    let sum := signedUnits a + signedUnits b
    if sum = 0 then some (zeroOf (signOf a && signOf b))
    else some (packFloat (decide (sum < 0)) (roundUnits sum.natAbs 1))

/-- `fp.sub`, first minus second (44_float.md R261, R263). -/
def fpSub (a b : Word) : Option Word := fpAdd a (flipSign b)

/-- `fp.mul` (44_float.md R261). -/
def fpMul (a b : Word) : Option Word :=
  let neg := signOf a != signOf b
  if isNaN a || isNaN b then none
  else if isInf a then (if isZero b then none else some (infOf neg))
  else if isInf b then (if isZero a then none else some (infOf neg))
  else some (packFloat neg (roundUnits (unitsOf a * unitsOf b) (2 ^ 149)))

/-- `fp.div`, first divided by second (44_float.md R261, R265). -/
def fpDiv (a b : Word) : Option Word :=
  let neg := signOf a != signOf b
  if isNaN a || isNaN b then none
  else if isInf a then (if isInf b then none else some (infOf neg))
  else if isInf b then some (zeroOf neg)
  else if isZero b then (if isZero a then none else some (infOf neg))
  else some (packFloat neg (roundUnits (unitsOf a * 2 ^ 149) (unitsOf b)))

/-- `fp.of_int32`: the signed integer rounded to nearest, ties to even (44_float.md R261, R269). -/
def fpOfInt (v : Word) : Word :=
  packFloat (decide (v.toInt < 0)) (roundUnits (v.toInt.natAbs * 2 ^ 149) 1)

/-- The exact cases of `cvt_w_s`: a finite operand equal to an integer that fits 32 bits (44_float.md R270). None is every
other operand, whose result is open. -/
def cvtExact (v : Word) : Option Word :=
  if isNaN v || isInf v then none
  else if unitsOf v % 2 ^ 149 ≠ 0 then none
  else
    let k : Int := signedUnits v / 2 ^ 149
    if -2 ^ 31 ≤ k ∧ k ≤ 2 ^ 31 - 1 then some (BitVec.ofInt 32 k) else none

/-- A NaN pattern from a free word: any sign, payload and quiet bit, the fraction not zero (44_float.md R261(c)). Every
NaN pattern is its own image. -/
def nanOf (d : Word) : Word :=
  let v := d ||| 0x7F800000#32
  if v &&& 0x007FFFFF#32 = 0#32 then v ||| 1#32 else v

end Sys2Proof.Machine
end

