-- ==== Sys2Proof/Config.lean ====
section
/-!
DEFINITION. The parameters of 00_scope.md R7, as plain data that the state carries unchanged (notes/assumptions/1.md),
the constraints the spec puts on them, and the free values: constants without a body, applied to a counter of the state,
of which nothing can be proved (notes/assumptions/4.md).
-/

namespace Sys2Proof

/-- The three ways of running a program (00_scope.md R3). -/
inductive Engine where
  | functional
  | inOrder
  | outOfOrder
  deriving DecidableEq, Repr

/-- `PREDICTOR` (47_branch_predictor.md R360). -/
inductive PredictorMode where
  | staticNotTaken
  | twoBit
  deriving DecidableEq, Repr

/-- `REPL` (46_cache.md R333). -/
inductive Repl where
  | lru
  | fifo
  | random
  | lfu
  deriving DecidableEq, Repr

/-- `WRITE_POLICY` (46_cache.md R328, R329). -/
inductive WritePolicy where
  | writeThrough
  | writeBack
  deriving DecidableEq, Repr

/-- Geometry, policies and latencies of one cache (46_cache.md R323, R340). Sizes in bytes, latencies in cycles. -/
structure CacheCfg where
  size : Nat
  block : Nat
  assoc : Nat
  repl : Repl
  writePolicy : WritePolicy
  writeAllocate : Bool
  hitLatency : Nat
  missPenalty : Nat
  deriving DecidableEq, Repr

/-- `num_sets = SIZE / (BLOCK * ASSOC)` (46_cache.md R323). -/
def CacheCfg.numSets (c : CacheCfg) : Nat :=
  c.size / (c.block * c.assoc)

/-- How many lines the cache has. -/
def CacheCfg.numLines (c : CacheCfg) : Nat :=
  c.numSets * c.assoc

/-- A power of two. -/
def isPow2 (n : Nat) : Bool :=
  n != 0 && n &&& (n - 1) == 0

/-- The constraints of 46_cache.md R323: `BLOCK >= 4`, `BLOCK` and `num_sets` powers of two, `ASSOC >= 1`,
`SIZE = BLOCK * ASSOC * num_sets`. -/
def CacheCfg.wf (c : CacheCfg) : Bool :=
  decide (4 ≤ c.block) && isPow2 c.block && decide (1 ≤ c.assoc) && isPow2 c.numSets
    && c.size == c.block * c.assoc * c.numSets

/-- Parameters of one functional-unit class (49_ooo_engine.md R435). -/
structure FuCfg where
  stations : Nat
  issueWidth : Nat
  latency : Nat
  deriving DecidableEq, Repr

/-- Each is at least 1 (00_scope.md R7). -/
def FuCfg.wf (c : FuCfg) : Bool :=
  decide (1 ≤ c.stations) && decide (1 ≤ c.issueWidth) && decide (1 ≤ c.latency)

/-- The parameters of 00_scope.md R7: fixed at construction, never changed by a step, read or written by no
instruction. `l2 = none` is `HAS_L2 = false`; `roBase`, `roEnd` bound the read-only range `[RO_BASE, RO_END)`. -/
structure Config where
  engine : Engine
  memSize : Nat
  roBase : Nat
  roEnd : Nat
  textBase : Nat
  dataBase : Nat
  stackTop : Nat
  textEnd : Nat
  pcReset : Word
  spInit : Word
  maxSteps : Nat
  breakpoint : Option Word
  nStages : Nat
  forwarding : Bool
  predictor : PredictorMode
  predEntries : Nat
  btbEntries : Nat
  l1i : CacheCfg
  l1d : CacheCfg
  l2 : Option CacheCfg
  robCapacity : Nat
  intAlu : FuCfg
  intMul : FuCfg
  loadStore : FuCfg
  fpAdd : FuCfg
  fpMul : FuCfg
  cdbWidth : Nat
  commitWidth : Nat
  dispatchWidth : Nat
  deriving DecidableEq, Repr

/-- The L2, when there is one, is a cache of the same kind whose block is at least each L1's (46_cache.md R336). -/
def Config.l2Wf (c : Config) : Bool :=
  match c.l2 with
  | none => true
  | some l2 => l2.wf && decide (c.l1i.block ≤ l2.block) && decide (c.l1d.block ≤ l2.block)

/-- The constraints the spec puts on the parameters: `4 <= MEM_SIZE <= 2^32`, `MEM_SIZE mod 4 = 0` (D6),
`N_STAGES = 5` (D41), the predictor's and the caches' sizes (D39, D32), and widths of at least 1 (R7). A step under
any other configuration is refused (93_implementation_defined.md I10; notes/assumptions/7.md). -/
def Config.wf (c : Config) : Bool :=
  decide (4 ≤ c.memSize) && decide (c.memSize ≤ 2 ^ 32) && c.memSize % 4 == 0 && c.nStages == 5
    && isPow2 c.predEntries && decide (1 ≤ c.btbEntries) && c.l1i.wf && c.l1d.wf && c.l2Wf
    && decide (1 ≤ c.robCapacity) && c.intAlu.wf && c.intMul.wf && c.loadStore.wf && c.fpAdd.wf && c.fpMul.wf
    && decide (1 ≤ c.commitWidth) && decide (1 ≤ c.dispatchWidth)

/-- DESIGN CHOICE (unsafe, notes/assumptions/1.md): the geometry of the L1 caches at reset, the spec naming none. -/
def CacheCfg.default : CacheCfg :=
  { size := 64, block := 16, assoc := 2, repl := .lru, writePolicy := .writeBack, writeAllocate := true,
    hitLatency := 1, missPenalty := 10 }

/-- DESIGN CHOICE (unsafe, notes/assumptions/1.md): the units' parameters at reset, the spec naming none. -/
def FuCfg.default : FuCfg :=
  { stations := 2, issueWidth := 1, latency := 1 }

/-- The configuration of `State.reset`: the spec's defaults of 00_scope.md R7 where it gives one (`PC_RESET`,
`SP_INIT`, the empty read-only range, `MAX_STEPS`, no breakpoint, `CDB_WIDTH`, the map's bases, five stages), and
`TEXT_END = TEXT_BASE + 0`, nothing being loaded (95_test_vectors.md L1). Everything else is a DESIGN CHOICE
(unsafe, notes/assumptions/1.md). -/
def Config.default : Config :=
  { engine := .functional, memSize := 4096, roBase := 0, roEnd := 0,
    textBase := 0, dataBase := 0x10000000, stackTop := 0x7FFFFFFC, textEnd := 0,
    pcReset := 0#32, spInit := 0#32, maxSteps := 1000000, breakpoint := none, nStages := 5,
    forwarding := true, predictor := .twoBit, predEntries := 16, btbEntries := 4,
    l1i := CacheCfg.default, l1d := CacheCfg.default, l2 := none, robCapacity := 16,
    intAlu := FuCfg.default, intMul := FuCfg.default, loadStore := FuCfg.default, fpAdd := FuCfg.default,
    fpMul := FuCfg.default, cdbWidth := 1, commitWidth := 1, dispatchWidth := 1 }

/-- A free 32-bit value: the n-th draw of a run (00_scope.md R14, "chosen afresh each time, and no property of it may
be assumed"). It serves HI and LO after DivisionByZero, DIV_OVF, NaN patterns, cvt.w.s and the console's words. -/
opaque Config.freeWord : Nat → Word

/-- A free byte string: the n-th draw, for a read-string call (45_system.md R296). -/
opaque Config.freeBytes : Nat → List Byte

/-- A free natural: the n-th draw, for the victim of the Random policy (46_cache.md R333). -/
opaque Config.freeNat : Nat → Nat

/-! The unspecified contents of the cache lines at reset (10_state.md R38, "must be modelled as a draw";
93_implementation_defined.md U5; notes/assumptions/9.md), by the number the line has in the machine. -/

/-- The tag of an invalid line. -/
opaque Config.unsetTag : Nat → Word

/-- One of the three metadata of an invalid line. -/
opaque Config.unsetMeta : Nat → Nat → Nat

/-- A byte of the data of an invalid line. -/
opaque Config.unsetByte : Nat → Nat → Byte

end Sys2Proof
end

