-- ==== Sys2Proof/Syntax.lean ====
section
/-!
DEFINITION. The 69 instructions of 30_encoding.md R112, one constructor per row of spec/opcode_table.json, operands in
the order of the assembler syntax of R130. Every variable field of the word is kept raw (R108), so that encoding
again gives the word back (R119): immediates are not extended here, and the code field of syscall and break is kept.
-/

namespace Sys2Proof

/-- The instruction record of 30_encoding.md R108. -/
inductive Instr where
  -- three-register arithmetic and logic: op rd, rs, rt
  | add (rd rs rt : RegIdx)
  | addu (rd rs rt : RegIdx)
  | sub (rd rs rt : RegIdx)
  | subu (rd rs rt : RegIdx)
  | and (rd rs rt : RegIdx)
  | or (rd rs rt : RegIdx)
  | xor (rd rs rt : RegIdx)
  | nor (rd rs rt : RegIdx)
  | slt (rd rs rt : RegIdx)
  | sltu (rd rs rt : RegIdx)
  -- immediate arithmetic and logic: op rt, rs, imm
  | addi (rt rs : RegIdx) (imm : Imm16)
  | addiu (rt rs : RegIdx) (imm : Imm16)
  | slti (rt rs : RegIdx) (imm : Imm16)
  | sltiu (rt rs : RegIdx) (imm : Imm16)
  | andi (rt rs : RegIdx) (imm : Imm16)
  | ori (rt rs : RegIdx) (imm : Imm16)
  | xori (rt rs : RegIdx) (imm : Imm16)
  -- shifts: op rd, rt, shamt and op rd, rt, rs
  | sll (rd rt : RegIdx) (shamt : BitVec 5)
  | srl (rd rt : RegIdx) (shamt : BitVec 5)
  | sra (rd rt : RegIdx) (shamt : BitVec 5)
  | sllv (rd rt rs : RegIdx)
  | srlv (rd rt rs : RegIdx)
  | srav (rd rt rs : RegIdx)
  -- multiply, divide, HI and LO
  | mult (rs rt : RegIdx)
  | multu (rs rt : RegIdx)
  | div (rs rt : RegIdx)
  | divu (rs rt : RegIdx)
  | mfhi (rd : RegIdx)
  | mflo (rd : RegIdx)
  | mthi (rs : RegIdx)
  | mtlo (rs : RegIdx)
  -- loads, stores, lui: op rt, offset(base)
  | lw (rt base : RegIdx) (imm : Imm16)
  | lh (rt base : RegIdx) (imm : Imm16)
  | lhu (rt base : RegIdx) (imm : Imm16)
  | lb (rt base : RegIdx) (imm : Imm16)
  | lbu (rt base : RegIdx) (imm : Imm16)
  | sw (rt base : RegIdx) (imm : Imm16)
  | sh (rt base : RegIdx) (imm : Imm16)
  | sb (rt base : RegIdx) (imm : Imm16)
  | lui (rt : RegIdx) (imm : Imm16)
  | lwc1 (ft base : RegIdx) (imm : Imm16)
  | swc1 (ft base : RegIdx) (imm : Imm16)
  -- control transfer
  | beq (rs rt : RegIdx) (imm : Imm16)
  | bne (rs rt : RegIdx) (imm : Imm16)
  | bgtz (rs : RegIdx) (imm : Imm16)
  | bgez (rs : RegIdx) (imm : Imm16)
  | bltz (rs : RegIdx) (imm : Imm16)
  | blez (rs : RegIdx) (imm : Imm16)
  | j (target : BitVec 26)
  | jal (target : BitVec 26)
  | jr (rs : RegIdx)
  | jalr (rd rs : RegIdx)
  | bc1t (imm : Imm16)
  | bc1f (imm : Imm16)
  -- single-precision floating point: op fd, fs, ft; op fd, fs; compare op fs, ft
  | addS (fd fs ft : RegIdx)
  | subS (fd fs ft : RegIdx)
  | mulS (fd fs ft : RegIdx)
  | divS (fd fs ft : RegIdx)
  | absS (fd fs : RegIdx)
  | negS (fd fs : RegIdx)
  | movS (fd fs : RegIdx)
  | cvtSW (fd fs : RegIdx)
  | cvtWS (fd fs : RegIdx)
  | cEqS (fs ft : RegIdx)
  | cLtS (fs ft : RegIdx)
  | cLeS (fs ft : RegIdx)
  -- system; `brk` is the instruction `break`
  | syscall (code : BitVec 20)
  | brk (code : BitVec 20)
  | nop
  deriving DecidableEq, Repr

end Sys2Proof
end

