-- ==== Sys2Proof/WellFormed.lean ====
section
/-!
DEFINITION. Which instruction terms are instructions. Every field has the exact width of its place in the word, so
nothing is out of range. One check remains: the word `sll $0,$0,0` is the word of `nop` and decodes to `nop`
(30_encoding.md R111), so the term `.sll 0 0 0` is no decoded instruction.
-/

namespace Sys2Proof

/-- The term is the decoding of some word: everything but `sll $0,$0,0`, whose word is nop's (30_encoding.md R111). -/
def Instr.wf (i : Instr) : Bool :=
  match i with
  | .sll rd rt shamt => !(rd == 0#5 && rt == 0#5 && shamt == 0#5)
  | _ => true

end Sys2Proof
end

