-- ==== Sys2Proof/Decode.lean ====
section
/-!
DEFINITION. The decoder of 30_encoding.md R100 to R118, total on every word and rejecting by name, with every
must-be-zero field checked (R118), and after it the encoder of R119. The numeric codes are those of R112 to R116.
Words lie little-endian in memory (20_memory.md R61, R68).
-/

namespace Sys2Proof

/-- Why bytes are no instruction. -/
inductive DecodeError where
  /-- The word is none of the 69 patterns (30_encoding.md R117); executing it raises this fault. -/
  | invalidInstruction (word : Word)
  /-- Fewer than the four bytes of an instruction (30_encoding.md R101). -/
  | truncated
  deriving DecidableEq, Repr

/-! Fields of a word (30_encoding.md R102 to R107). -/

/-- Bits 31..26. -/
def opcodeOf (w : Word) : BitVec 6 := w.extractLsb' 26 6
/-- Bits 25..21: `rs`, the base, or `fmt`. -/
def rsOf (w : Word) : BitVec 5 := w.extractLsb' 21 5
/-- Bits 20..16: `rt`, `ft`, or the selector of REGIMM and of the FP branches. -/
def rtOf (w : Word) : BitVec 5 := w.extractLsb' 16 5
/-- Bits 15..11: `rd` or `fs`. -/
def rdOf (w : Word) : BitVec 5 := w.extractLsb' 11 5
/-- Bits 10..6: `shamt` or `fd`. -/
def shamtOf (w : Word) : BitVec 5 := w.extractLsb' 6 5
/-- Bits 5..0. -/
def functOf (w : Word) : BitVec 6 := w.extractLsb' 0 6
/-- Bits 15..0. -/
def imm16Of (w : Word) : Imm16 := w.extractLsb' 0 16
/-- Bits 25..0. -/
def target26Of (w : Word) : BitVec 26 := w.extractLsb' 0 26
/-- Bits 25..6, the code field of `syscall` and `break` (30_encoding.md R118). -/
def codeOf (w : Word) : BitVec 20 := w.extractLsb' 6 20

/-- The instruction if its must-be-zero fields are zero (30_encoding.md R118). -/
def whenZero (zero : Bool) (i : Instr) : Option Instr :=
  if zero = true then some i else none

/-- SPECIAL, by `funct` (30_encoding.md R113); the word 0 is `nop`, never `sll` (R111). -/
def decodeSpecial (w : Word) : Option Instr :=
  let rs := rsOf w
  let rt := rtOf w
  let rd := rdOf w
  let sh := shamtOf w
  let fn := functOf w
  if fn = 0x00#6 then (if rt == 0#5 && rd == 0#5 && sh == 0#5 then whenZero (rs == 0#5) .nop else whenZero (rs == 0#5) (.sll rd rt sh))
  else if fn = 0x02#6 then whenZero (rs == 0#5) (.srl rd rt sh)
  else if fn = 0x03#6 then whenZero (rs == 0#5) (.sra rd rt sh)
  else if fn = 0x04#6 then whenZero (sh == 0#5) (.sllv rd rt rs)
  else if fn = 0x06#6 then whenZero (sh == 0#5) (.srlv rd rt rs)
  else if fn = 0x07#6 then whenZero (sh == 0#5) (.srav rd rt rs)
  else if fn = 0x08#6 then whenZero (rt == 0#5 && rd == 0#5 && sh == 0#5) (.jr rs)
  else if fn = 0x09#6 then whenZero (rt == 0#5 && sh == 0#5) (.jalr rd rs)
  else if fn = 0x0C#6 then some (.syscall (codeOf w))
  else if fn = 0x0D#6 then some (.brk (codeOf w))
  else if fn = 0x10#6 then whenZero (rs == 0#5 && rt == 0#5 && sh == 0#5) (.mfhi rd)
  else if fn = 0x11#6 then whenZero (rt == 0#5 && rd == 0#5 && sh == 0#5) (.mthi rs)
  else if fn = 0x12#6 then whenZero (rs == 0#5 && rt == 0#5 && sh == 0#5) (.mflo rd)
  else if fn = 0x13#6 then whenZero (rt == 0#5 && rd == 0#5 && sh == 0#5) (.mtlo rs)
  else if fn = 0x18#6 then whenZero (rd == 0#5 && sh == 0#5) (.mult rs rt)
  else if fn = 0x19#6 then whenZero (rd == 0#5 && sh == 0#5) (.multu rs rt)
  else if fn = 0x1A#6 then whenZero (rd == 0#5 && sh == 0#5) (.div rs rt)
  else if fn = 0x1B#6 then whenZero (rd == 0#5 && sh == 0#5) (.divu rs rt)
  else if fn = 0x20#6 then whenZero (sh == 0#5) (.add rd rs rt)
  else if fn = 0x21#6 then whenZero (sh == 0#5) (.addu rd rs rt)
  else if fn = 0x22#6 then whenZero (sh == 0#5) (.sub rd rs rt)
  else if fn = 0x23#6 then whenZero (sh == 0#5) (.subu rd rs rt)
  else if fn = 0x24#6 then whenZero (sh == 0#5) (.and rd rs rt)
  else if fn = 0x25#6 then whenZero (sh == 0#5) (.or rd rs rt)
  else if fn = 0x26#6 then whenZero (sh == 0#5) (.xor rd rs rt)
  else if fn = 0x27#6 then whenZero (sh == 0#5) (.nor rd rs rt)
  else if fn = 0x2A#6 then whenZero (sh == 0#5) (.slt rd rs rt)
  else if fn = 0x2B#6 then whenZero (sh == 0#5) (.sltu rd rs rt)
  else none

/-- REGIMM, by `rt` (30_encoding.md R114). -/
def decodeRegimm (w : Word) : Option Instr :=
  if rtOf w = 0x00#5 then some (.bltz (rsOf w) (imm16Of w))
  else if rtOf w = 0x01#5 then some (.bgez (rsOf w) (imm16Of w))
  else none

/-- COP1 with `fmt` = S, by `funct` (30_encoding.md R115). -/
def decodeSingle (w : Word) : Option Instr :=
  let ft := rtOf w
  let fs := rdOf w
  let fd := shamtOf w
  let fn := functOf w
  if fn = 0x00#6 then some (.addS fd fs ft)
  else if fn = 0x01#6 then some (.subS fd fs ft)
  else if fn = 0x02#6 then some (.mulS fd fs ft)
  else if fn = 0x03#6 then some (.divS fd fs ft)
  else if fn = 0x05#6 then whenZero (ft == 0#5) (.absS fd fs)
  else if fn = 0x06#6 then whenZero (ft == 0#5) (.movS fd fs)
  else if fn = 0x07#6 then whenZero (ft == 0#5) (.negS fd fs)
  else if fn = 0x24#6 then whenZero (ft == 0#5) (.cvtWS fd fs)
  else if fn = 0x32#6 then whenZero (fd == 0#5) (.cEqS fs ft)
  else if fn = 0x3C#6 then whenZero (fd == 0#5) (.cLtS fs ft)
  else if fn = 0x3E#6 then whenZero (fd == 0#5) (.cLeS fs ft)
  else none

/-- COP1, by `fmt` (30_encoding.md R115): BC with `cc` and `nd` zero, S, W. -/
def decodeCop1 (w : Word) : Option Instr :=
  if rsOf w = 0x08#5 then (if rtOf w = 0x00#5 then some (.bc1f (imm16Of w)) else if rtOf w = 0x01#5 then some (.bc1t (imm16Of w)) else none)
  else if rsOf w = 0x10#5 then decodeSingle w
  else if rsOf w = 0x14#5 then (if functOf w = 0x20#6 then whenZero (rtOf w == 0#5) (.cvtSW (shamtOf w) (rdOf w)) else none)
  else none

/-- The primary opcode map (30_encoding.md R116). -/
def decodeOpcode (w : Word) : Option Instr :=
  let rs := rsOf w
  let rt := rtOf w
  let imm := imm16Of w
  let op := opcodeOf w
  if op = 0x00#6 then decodeSpecial w
  else if op = 0x01#6 then decodeRegimm w
  else if op = 0x02#6 then some (.j (target26Of w))
  else if op = 0x03#6 then some (.jal (target26Of w))
  else if op = 0x04#6 then some (.beq rs rt imm)
  else if op = 0x05#6 then some (.bne rs rt imm)
  else if op = 0x06#6 then whenZero (rt == 0#5) (.blez rs imm)
  else if op = 0x07#6 then whenZero (rt == 0#5) (.bgtz rs imm)
  else if op = 0x08#6 then some (.addi rt rs imm)
  else if op = 0x09#6 then some (.addiu rt rs imm)
  else if op = 0x0A#6 then some (.slti rt rs imm)
  else if op = 0x0B#6 then some (.sltiu rt rs imm)
  else if op = 0x0C#6 then some (.andi rt rs imm)
  else if op = 0x0D#6 then some (.ori rt rs imm)
  else if op = 0x0E#6 then some (.xori rt rs imm)
  else if op = 0x0F#6 then whenZero (rs == 0#5) (.lui rt imm)
  else if op = 0x11#6 then decodeCop1 w
  else if op = 0x20#6 then some (.lb rt rs imm)
  else if op = 0x21#6 then some (.lh rt rs imm)
  else if op = 0x23#6 then some (.lw rt rs imm)
  else if op = 0x24#6 then some (.lbu rt rs imm)
  else if op = 0x25#6 then some (.lhu rt rs imm)
  else if op = 0x28#6 then some (.sb rt rs imm)
  else if op = 0x29#6 then some (.sh rt rs imm)
  else if op = 0x2B#6 then some (.sw rt rs imm)
  else if op = 0x31#6 then some (.lwc1 rt rs imm)
  else if op = 0x39#6 then some (.swc1 rt rs imm)
  else none

/-- The decoder (30_encoding.md R110): the instruction of a word, or `InvalidInstruction` with the word. -/
def decode (w : Word) : Except DecodeError Instr :=
  match decodeOpcode w with
  | some i => .ok i
  | none => .error (.invalidInstruction w)

/-- The word of four bytes, the first at the lowest address and least significant (20_memory.md R61, R68). -/
def wordOfBytes (b0 b1 b2 b3 : Byte) : Word := b3 ++ b2 ++ b1 ++ b0

/-- The four bytes of a word in rising addresses (20_memory.md R61). -/
def bytesOfWord (w : Word) : List Byte :=
  [w.extractLsb' 0 8, w.extractLsb' 8 8, w.extractLsb' 16 8, w.extractLsb' 24 8]

/-- The instruction at the head of a byte list and the bytes after it. -/
def decodeBytes (bs : List Byte) : Except DecodeError (Instr × List Byte) :=
  match bs with
  | b0 :: b1 :: b2 :: b3 :: rest =>
    match decode (wordOfBytes b0 b1 b2 b3) with
    | .ok i => .ok (i, rest)
    | .error e => .error e
  | _ => .error .truncated

/-- The bytes of a table word: `nbits` bits of `w`, zeros above them up to the 32 bits of an instruction, laid out as
the memory holds them. -/
def tableBytes (nbits w : Nat) : List Byte :=
  bytesOfWord (BitVec.ofNat 32 (w % 2 ^ nbits))

/-- The instruction the decoder reads from a word of spec/opcode_table.json; none where it refuses. -/
def decodeTableWord (nbits w : Nat) : Option Instr :=
  match decodeBytes (tableBytes nbits w) with
  | .ok (i, _) => some i
  | .error _ => none

/-! The encoder (30_encoding.md R119): the raw fields put back at the positions of R102 to R107. -/

/-- R format (30_encoding.md R102). -/
def encR (rs rt rd shamt : BitVec 5) (funct : BitVec 6) : Word := 0x00#6 ++ rs ++ rt ++ rd ++ shamt ++ funct
/-- I and FM formats (30_encoding.md R103, R107). -/
def encI (opcode : BitVec 6) (rs rt : BitVec 5) (imm : Imm16) : Word := opcode ++ rs ++ rt ++ imm
/-- J format (30_encoding.md R104). -/
def encJ (opcode : BitVec 6) (target : BitVec 26) : Word := opcode ++ target
/-- FR format (30_encoding.md R105). -/
def encFR (fmt ft fs fd : BitVec 5) (funct : BitVec 6) : Word := 0x11#6 ++ fmt ++ ft ++ fs ++ fd ++ funct
/-- The R format of `syscall` and `break`, with the code field in bits 25..6 (30_encoding.md R118). -/
def encCode (code : BitVec 20) (funct : BitVec 6) : Word := 0x00#6 ++ code ++ funct

/-- `Encode` (30_encoding.md R119): the word of an instruction. -/
def encode (i : Instr) : Word :=
  match i with
  | .add rd rs rt => encR rs rt rd 0#5 0x20#6
  | .addu rd rs rt => encR rs rt rd 0#5 0x21#6
  | .sub rd rs rt => encR rs rt rd 0#5 0x22#6
  | .subu rd rs rt => encR rs rt rd 0#5 0x23#6
  | .and rd rs rt => encR rs rt rd 0#5 0x24#6
  | .or rd rs rt => encR rs rt rd 0#5 0x25#6
  | .xor rd rs rt => encR rs rt rd 0#5 0x26#6
  | .nor rd rs rt => encR rs rt rd 0#5 0x27#6
  | .slt rd rs rt => encR rs rt rd 0#5 0x2A#6
  | .sltu rd rs rt => encR rs rt rd 0#5 0x2B#6
  | .addi rt rs imm => encI 0x08#6 rs rt imm
  | .addiu rt rs imm => encI 0x09#6 rs rt imm
  | .slti rt rs imm => encI 0x0A#6 rs rt imm
  | .sltiu rt rs imm => encI 0x0B#6 rs rt imm
  | .andi rt rs imm => encI 0x0C#6 rs rt imm
  | .ori rt rs imm => encI 0x0D#6 rs rt imm
  | .xori rt rs imm => encI 0x0E#6 rs rt imm
  | .sll rd rt shamt => encR 0#5 rt rd shamt 0x00#6
  | .srl rd rt shamt => encR 0#5 rt rd shamt 0x02#6
  | .sra rd rt shamt => encR 0#5 rt rd shamt 0x03#6
  | .sllv rd rt rs => encR rs rt rd 0#5 0x04#6
  | .srlv rd rt rs => encR rs rt rd 0#5 0x06#6
  | .srav rd rt rs => encR rs rt rd 0#5 0x07#6
  | .mult rs rt => encR rs rt 0#5 0#5 0x18#6
  | .multu rs rt => encR rs rt 0#5 0#5 0x19#6
  | .div rs rt => encR rs rt 0#5 0#5 0x1A#6
  | .divu rs rt => encR rs rt 0#5 0#5 0x1B#6
  | .mfhi rd => encR 0#5 0#5 rd 0#5 0x10#6
  | .mflo rd => encR 0#5 0#5 rd 0#5 0x12#6
  | .mthi rs => encR rs 0#5 0#5 0#5 0x11#6
  | .mtlo rs => encR rs 0#5 0#5 0#5 0x13#6
  | .lw rt base imm => encI 0x23#6 base rt imm
  | .lh rt base imm => encI 0x21#6 base rt imm
  | .lhu rt base imm => encI 0x25#6 base rt imm
  | .lb rt base imm => encI 0x20#6 base rt imm
  | .lbu rt base imm => encI 0x24#6 base rt imm
  | .sw rt base imm => encI 0x2B#6 base rt imm
  | .sh rt base imm => encI 0x29#6 base rt imm
  | .sb rt base imm => encI 0x28#6 base rt imm
  | .lui rt imm => encI 0x0F#6 0#5 rt imm
  | .lwc1 ft base imm => encI 0x31#6 base ft imm
  | .swc1 ft base imm => encI 0x39#6 base ft imm
  | .beq rs rt imm => encI 0x04#6 rs rt imm
  | .bne rs rt imm => encI 0x05#6 rs rt imm
  | .bgtz rs imm => encI 0x07#6 rs 0#5 imm
  | .bgez rs imm => encI 0x01#6 rs 1#5 imm
  | .bltz rs imm => encI 0x01#6 rs 0#5 imm
  | .blez rs imm => encI 0x06#6 rs 0#5 imm
  | .j target => encJ 0x02#6 target
  | .jal target => encJ 0x03#6 target
  | .jr rs => encR rs 0#5 0#5 0#5 0x08#6
  | .jalr rd rs => encR rs 0#5 rd 0#5 0x09#6
  | .bc1t imm => encI 0x11#6 0x08#5 0x01#5 imm
  | .bc1f imm => encI 0x11#6 0x08#5 0x00#5 imm
  | .addS fd fs ft => encFR 0x10#5 ft fs fd 0x00#6
  | .subS fd fs ft => encFR 0x10#5 ft fs fd 0x01#6
  | .mulS fd fs ft => encFR 0x10#5 ft fs fd 0x02#6
  | .divS fd fs ft => encFR 0x10#5 ft fs fd 0x03#6
  | .absS fd fs => encFR 0x10#5 0#5 fs fd 0x05#6
  | .negS fd fs => encFR 0x10#5 0#5 fs fd 0x07#6
  | .movS fd fs => encFR 0x10#5 0#5 fs fd 0x06#6
  | .cvtSW fd fs => encFR 0x14#5 0#5 fs fd 0x20#6
  | .cvtWS fd fs => encFR 0x10#5 0#5 fs fd 0x24#6
  | .cEqS fs ft => encFR 0x10#5 ft fs 0#5 0x32#6
  | .cLtS fs ft => encFR 0x10#5 ft fs 0#5 0x3C#6
  | .cLeS fs ft => encFR 0x10#5 ft fs 0#5 0x3E#6
  | .syscall code => encCode code 0x0C#6
  | .brk code => encCode code 0x0D#6
  | .nop => 0#32

end Sys2Proof
end

