-- ==== Sys2Proof/Machine/State.lean ====
section
/-!
DEFINITION. The state of the machine, as plain data: the architectural state of 10_state.md R20 to R34 and the state of
the timing engines of R35, the fault kinds of 60_exceptions.md R490, the outcomes' reason types, and the state after
construction (10_state.md R38; 70_reset_and_hazards.md R530).
-/

namespace Sys2Proof.Machine

/-- The fault kinds of 60_exceptions.md R490 with their recorded values, in the order of its code column. Addresses
are naturals: print-string may record the address 2^32 (45_system.md R294). -/
inductive FaultKind where
  | memoryOutOfBounds (address : Nat)
  | memoryMisaligned (address width : Nat)
  | addressOverflow
  | invalidInstruction (word : Word)
  | invalidBranchTarget (target : Word)
  | divisionByZero
  | arithmeticOverflow
  | invalidSyscall (code : Word)
  | breakpoint (pc : Word)
  | memoryWriteProtected (address : Nat)
  deriving DecidableEq, Repr

/-- The run status (10_state.md R33). `paused pc` is `Paused(Breakpoint(pc))`. -/
inductive RunStatus where
  | running
  | exited
  | faulted (kind : FaultKind)
  | paused (pc : Word)
  | budgetExhausted
  | endOfText
  deriving DecidableEq, Repr

/-- An output event (10_state.md R32). -/
inductive OutEvent where
  | printInt (v : Word)
  | printString (bytes : List Byte)
  | printChar (byte : Byte)
  deriving DecidableEq, Repr

/-- An answer the host has given ahead to a read call (10_state.md R32; notes/assumptions/5.md). -/
inductive InAnswer where
  | int (v : Word)
  | char (byte : Byte)
  | string (bytes : List Byte)
  deriving DecidableEq, Repr

/-- The names of 48_pipeline_inorder.md R386 that an instruction reads or writes. -/
inductive RegName where
  | gpr (r : RegIdx)
  | fpr (r : RegIdx)
  | hi
  | lo
  | fcc
  deriving DecidableEq, Repr

/-! Caches (46_cache.md R321, R322). -/

/-- What a cache line holds beside its `valid` flag: `{ tag, dirty, meta, data }` with `meta` = `last_use`, `fill_time`,
`use_count`. -/
structure Line where
  tag : Nat
  dirty : Bool
  lastUse : Nat
  fillTime : Nat
  useCount : Nat
  data : List Byte
  deriving DecidableEq, Repr

/-- A cache line with its `valid` flag. An invalid line is never written, so it holds what it held at reset: `dirty` is
false and every other field is a draw (10_state.md R38). The state keeps the number of that draw, from which `Way.line`
gives the fields (notes/assumptions/9.md). -/
inductive Way where
  | valid (line : Line)
  | invalid (number : Nat)
  deriving DecidableEq, Repr

/-- A cache. -/
structure Cache where
  sets : List (List Way)
  clock : Nat
  accesses : Nat
  hits : Nat
  misses : Nat
  writebacks : Nat
  deriving DecidableEq, Repr

/-- A cache of the given geometry with every line invalid and every counter 0 (10_state.md R38). Its lines are numbered
from `first` on, so that no two lines of the machine share a draw. -/
def Cache.empty (c : CacheCfg) (first : Nat) : Cache :=
  { sets := (List.range c.numSets).map (fun i =>
      (List.range c.assoc).map (fun j => .invalid (first + i * c.assoc + j))),
    clock := 0, accesses := 0, hits := 0, misses := 0, writebacks := 0 }

/-! Branch predictor (47_branch_predictor.md R361, R365). -/

/-- A 2-bit saturating counter: strongly and weakly not-taken, weakly and strongly taken. -/
inductive Counter where
  | sn
  | wn
  | wt
  | st
  deriving DecidableEq, Repr

/-- The direction table and the branch target buffer, its pairs `(pc, target)` most recently used first. -/
structure Predictor where
  table : List Counter
  btb : List (Word × Word)
  deriving DecidableEq, Repr

/-! In-order pipeline (48_pipeline_inorder.md R382). -/

/-- What a pipeline stage holds when it is not a bubble. `instr` is set in ID; `ops` are the source values, `result`
the values it will write, `address` the effective address, `nextPc` and `taken` the branch outcome; `accessed` says
the MEM access has begun, `wait` the cycles it or the fetch still takes; `producerTag` the names it writes. -/
structure Slot where
  pc : Word
  word : Word
  instr : Option Instr
  predNext : Word
  ops : List (RegName × Word)
  result : List (RegName × Word)
  address : Option Nat
  nextPc : Word
  taken : Bool
  fault : Option FaultKind
  executed : Bool
  accessed : Bool
  wait : Nat
  producerTag : List RegName
  deriving DecidableEq, Repr

/-- The five stages and the counters of 48_pipeline_inorder.md R420 that are the pipeline's own. -/
structure Pipe where
  ifs : Option Slot
  ids : Option Slot
  exs : Option Slot
  mems : Option Slot
  wbs : Option Slot
  stallData : Nat
  stallControl : Nat
  stallStructural : Nat
  occIf : Nat
  occId : Nat
  occEx : Nat
  occMem : Nat
  occWb : Nat
  deriving DecidableEq, Repr

/-- All slots bubbles, all counters 0 (10_state.md R38). -/
def Pipe.empty : Pipe :=
  { ifs := none, ids := none, exs := none, mems := none, wbs := none, stallData := 0, stallControl := 0,
    stallStructural := 0, occIf := 0, occId := 0, occEx := 0, occMem := 0, occWb := 0 }

/-! Out-of-order engine (49_ooo_engine.md R431 to R436, R452). -/

/-- A reorder buffer entry (49_ooo_engine.md R431); its `rob_id` is its index in `Ooo.rob`. `dest` is an index of the
rename name space of R433. -/
structure RobEntry where
  instr : Option Instr
  pc : Word
  dest : Option Nat
  value : BitVec 64
  ready : Bool
  exception : Option FaultKind
  predNext : Word
  nextPc : Word
  storeAddr : Option Nat
  storeWidth : Nat
  deriving DecidableEq, Repr

/-- A busy reservation station (49_ooo_engine.md R434); a free one (`busy = false`) is `none` in its class. -/
structure Station where
  op : Instr
  pc : Word
  vj : BitVec 64
  vk : BitVec 64
  qj : Option Nat
  qk : Option Nat
  dest : Nat
  address : Option Nat
  deriving DecidableEq, Repr

/-- The phase of a load (49_ooo_engine.md R436); other operations stay in `ea`. -/
inductive ExecPhase where
  | ea
  | waitStores
  | cache
  deriving DecidableEq, Repr

/-- A completed operation's `(value, exception)`, pending for writeback (49_ooo_engine.md R436). -/
structure ExecResult where
  value : BitVec 64
  exception : Option FaultKind
  deriving DecidableEq, Repr

/-- An executing operation (49_ooo_engine.md R436); `value` holds a load's data while its cache access runs. -/
structure Exec where
  station : Nat
  robId : Nat
  remaining : Nat
  phase : ExecPhase
  value : BitVec 64
  result : Option ExecResult
  deriving DecidableEq, Repr

/-- One functional-unit class: its stations and its executing operations (49_ooo_engine.md R435, R436). -/
structure FuClass where
  stations : List (Option Station)
  exec : List Exec
  deriving DecidableEq, Repr

/-- All stations free, no operation executing. -/
def FuClass.empty (c : FuCfg) : FuClass :=
  { stations := List.replicate c.stations none, exec := [] }

/-- A record of the fetch buffer: a word or a fault (49_ooo_engine.md R452). -/
structure FetchRec where
  pc : Word
  content : Except FaultKind Word
  predNext : Word
  deriving DecidableEq, Repr

/-- The out-of-order engine's state (49_ooo_engine.md R430). `squashFrom` is set and consumed within one cycle. -/
structure Ooo where
  rob : List (Option RobEntry)
  head : Nat
  tail : Nat
  count : Nat
  rat : List (Option Nat)
  intAlu : FuClass
  intMul : FuClass
  loadStore : FuClass
  fpAdd : FuClass
  fpMul : FuClass
  fq : List FetchRec
  fqWait : Nat
  squashFrom : Option Nat
  deriving DecidableEq, Repr

/-- Everything empty (10_state.md R38): 66 alias entries, all committed. -/
def Ooo.empty (c : Config) : Ooo :=
  { rob := List.replicate c.robCapacity none, head := 0, tail := 0, count := 0, rat := List.replicate 66 none,
    intAlu := FuClass.empty c.intAlu, intMul := FuClass.empty c.intMul, loadStore := FuClass.empty c.loadStore,
    fpAdd := FuClass.empty c.fpAdd, fpMul := FuClass.empty c.fpMul, fq := [], fqWait := 0, squashFrom := none }

/-- The state of the timing engines (10_state.md R34, R35): no instruction can read any of it. `stored` is the model's
own: the byte ranges `(address, length)` stored to so far, kept to refuse a program that later fetches from one
(20_memory.md R79; notes/assumptions/8.md). -/
structure Micro where
  l1i : Cache
  l1d : Cache
  l2 : Option Cache
  pred : Predictor
  fetchPc : Word
  fetchStop : Bool
  cycles : Nat
  committed : Nat
  branches : Nat
  mispredictions : Nat
  stored : List (Nat × Nat)
  pipe : Pipe
  ooo : Ooo
  deriving DecidableEq, Repr

/-- The timing engines' state after construction (10_state.md R38). -/
def Micro.construct (c : Config) : Micro :=
  { l1i := Cache.empty c.l1i 0, l1d := Cache.empty c.l1d c.l1i.numLines,
    l2 := c.l2.map (fun g => Cache.empty g (c.l1i.numLines + c.l1d.numLines)),
    pred := { table := List.replicate c.predEntries .wn, btb := [] },
    fetchPc := c.pcReset, fetchStop := false, cycles := 0, committed := 0, branches := 0, mispredictions := 0,
    stored := [], pipe := Pipe.empty, ooo := Ooo.empty c }

/-- The state of the machine. `mem` lists the bytes that are not zero, in rising addresses: an unlisted byte reads 0
(10_state.md R38). `pc` is the architectural program counter of every engine (10_state.md R25, R27). `draws` is the
model's own: how many free values have been taken (notes/assumptions/4.md). -/
structure State where
  cfg : Config
  gpr : Vector Word 32
  hi : Word
  lo : Word
  pc : Word
  fpr : Vector Word 32
  fcc : Bool
  mem : List Host.Cell
  roArmed : Bool
  out : List OutEvent
  inp : List InAnswer
  status : RunStatus
  steps : Nat
  draws : Nat
  micro : Micro
  deriving DecidableEq, Repr

/-- Why a step stops with a fault of the MODEL. The machine's own faults (60_exceptions.md R500) are next states with
status `faulted`, since the spec describes their whole effect; no instruction's meaning answers a `Fault`. -/
inductive Fault where
  /-- Raised by a cycle of the out-of-order engine in a state that breaks the invariants of 49_ooo_engine.md R482 (a
  non-empty reorder buffer whose head slot holds no entry). No run reaches such a state. Safe. -/
  | brokenEngine
  deriving DecidableEq, Repr

/-- Why a step has no meaning. -/
inductive Refusal where
  /-- Raised by `exec` for an instruction that has no meaning yet. Safe. -/
  | notModelled (mnemonic : String)
  /-- Raised by `step` when the configuration breaks the constraints of 00_scope.md R7 (D6, D32, D39, D41). Safe. -/
  | configuration
  /-- Raised by a cycle of a timing engine when the program fetches from bytes it stored to, which the spec says a
  model must refuse (20_memory.md R79, 70_reset_and_hazards.md R542). Safe. -/
  | storedText
  deriving DecidableEq, Repr

/-- The outcome of an instruction or a step. -/
abbrev Result := Host.Outcome State Fault Refusal

/-- The state that construction leaves under a configuration, before the loader and driver act (10_state.md R38,
70_reset_and_hazards.md R530, R531). -/
def State.construct (c : Config) : State :=
  { cfg := c, gpr := (Vector.replicate 32 0#32).set 29 c.spInit, hi := 0#32, lo := 0#32, pc := c.pcReset,
    fpr := Vector.replicate 32 0#32, fcc := false, mem := [], roArmed := false, out := [], inp := [],
    status := .running, steps := 0, draws := 0, micro := Micro.construct c }

/-- The machine right after reset, nothing loaded (10_state.md R38), under `Config.default`. -/
def State.reset : State := State.construct Config.default

end Sys2Proof.Machine
end

