-- ==== Sys2Proof/Machine/Ops.lean ====
section
/-!
DEFINITION. The named operations every instruction is written over: bytes and accesses of memory (20_memory.md R60 to
R68), reads and writes of registers (10_state.md R20 to R29), the default pc update (43_control.md R230), the one
operation that raises a fault (60_exceptions.md R500), free values, and the console (10_state.md R32).
-/

namespace Sys2Proof.Machine

/-! Memory as a canonical list of cells: addresses strictly rising, no zero byte listed. -/

/-- The byte at an address; an unlisted byte reads 0 (10_state.md R38, D56). -/
def Memory.read (m : List Host.Cell) (a : Nat) : Byte :=
  match m with
  | [] => 0#8
  | (b, v) :: rest => if a = b then v else if a < b then 0#8 else Memory.read rest a

/-- The memory with one byte written; writing zero removes the entry, so that equal memories are equal lists. -/
def Memory.write (m : List Host.Cell) (a : Nat) (v : Byte) : List Host.Cell :=
  match m with
  | [] => if v = 0#8 then [] else [(a, v)]
  | (b, u) :: rest =>
    if a = b then (if v = 0#8 then rest else (a, v) :: rest)
    else if a < b then (if v = 0#8 then (b, u) :: rest else (a, v) :: (b, u) :: rest)
    else (b, u) :: Memory.write rest a v

/-- Every listed address is at least `lo`, addresses strictly rise, and no zero byte is listed. -/
def Memory.wfFrom (lo : Nat) (m : List Host.Cell) : Bool :=
  match m with
  | [] => true
  | (b, v) :: rest => decide (lo ≤ b) && v != 0#8 && Memory.wfFrom (b + 1) rest

/-- The canonical form. -/
def Memory.wf (m : List Host.Cell) : Bool := Memory.wfFrom 0 m

/-- Bytes written at rising addresses from `a`. -/
def Memory.writeBytes (m : List Host.Cell) (a : Nat) (bs : List Byte) : List Host.Cell :=
  match bs with
  | [] => m
  | b :: rest => Memory.writeBytes (Memory.write m a b) (a + 1) rest

/-- The `n` bytes at `a` and up. -/
def Memory.readBytes (m : List Host.Cell) (a n : Nat) : List Byte :=
  match n with
  | 0 => []
  | k + 1 => Memory.read m a :: Memory.readBytes m (a + 1) k

/-- The access widths of 20_memory.md R69. -/
inductive Width where
  | byte
  | half
  | word
  deriving DecidableEq, Repr

/-- The number of bytes of a width. -/
def Width.bytes (w : Width) : Nat :=
  match w with
  | .byte => 1
  | .half => 2
  | .word => 4

/-- The little-endian pattern of `n` bytes at `a`, zero-extended to a word (20_memory.md R61, R66). -/
def Memory.load (m : List Host.Cell) (a : Nat) (w : Width) : Word :=
  match w with
  | .byte => (Memory.read m a).zeroExtend 32
  | .half => (Memory.read m (a + 1) ++ Memory.read m a : BitVec 16).zeroExtend 32
  | .word => wordOfBytes (Memory.read m a) (Memory.read m (a + 1)) (Memory.read m (a + 2)) (Memory.read m (a + 3))

/-- The low `n` bytes of a word, least significant first (20_memory.md R61, R67). -/
def Width.bytesOf (w : Width) (v : Word) : List Byte :=
  (bytesOfWord v).take w.bytes

/-- `[a, a + n)` meets `[b, e)` (20_memory.md R67). -/
def rangesMeet (a n b e : Nat) : Bool :=
  decide (max a b < min (a + n) e)

/-- The read-only range is in force and meets the `n` bytes at `a` (20_memory.md R63). -/
def State.protects (s : State) (a n : Nat) : Bool :=
  s.roArmed && rangesMeet a n s.cfg.roBase s.cfg.roEnd

/-- The fault of a read of `n` bytes at `a`, if any: bounds, then alignment (20_memory.md R66). -/
def State.readFault (s : State) (a n : Nat) : Option FaultKind :=
  if s.cfg.memSize < a + n then some (.memoryOutOfBounds a)
  else if a % n ≠ 0 then some (.memoryMisaligned a n)
  else none

/-- The fault of a write of `n` bytes at `a`, if any: bounds, alignment, then write protection (20_memory.md R67). -/
def State.writeFault (s : State) (a n : Nat) : Option FaultKind :=
  match s.readFault a n with
  | some k => some k
  | none => if s.protects a n then some (.memoryWriteProtected a) else none

/-- `Fetch` (20_memory.md R68): bounds, alignment, then the word; the read-only flag is not consulted. -/
def State.fetch (s : State) (a : Nat) : Except FaultKind Word :=
  match s.readFault a 4 with
  | some k => .error k
  | none => .ok (Memory.load s.mem a .word)

/-! Registers. -/

/-- `x[r]`: register 0 reads 0 in every state (10_state.md R21). -/
def State.readGpr (s : State) (r : RegIdx) : Word :=
  if r = 0#5 then 0#32 else s.gpr[r.toNat]'r.isLt

/-- `x[r] <- v`: a write to register 0 is discarded (10_state.md R21). -/
def State.setGpr (s : State) (r : RegIdx) (v : Word) : State :=
  if r = 0#5 then s else { s with gpr := s.gpr.set r.toNat v r.isLt }

/-- `f[r]` (10_state.md R28). -/
def State.readFpr (s : State) (r : RegIdx) : Word :=
  s.fpr[r.toNat]'r.isLt

/-- `f[r] <- v` (10_state.md R28). -/
def State.setFpr (s : State) (r : RegIdx) (v : Word) : State :=
  { s with fpr := s.fpr.set r.toNat v r.isLt }

/-- `HI <- v` (10_state.md R24). -/
def State.setHi (s : State) (v : Word) : State := { s with hi := v }

/-- `LO <- v` (10_state.md R24). -/
def State.setLo (s : State) (v : Word) : State := { s with lo := v }

/-- `FCC <- b` (10_state.md R29). -/
def State.setFcc (s : State) (b : Bool) : State := { s with fcc := b }

/-- `pc <- a` (00_scope.md R12). -/
def State.setPc (s : State) (a : Word) : State := { s with pc := a }

/-- The default update `pc <- (this_pc + 4) mod 2^32` (43_control.md R230). -/
def State.advance (s : State) : State := s.setPc (s.pc + 4#32)

/-- The run status changed and nothing else. -/
def State.setStatus (s : State) (r : RunStatus) : State := { s with status := r }

/-- The bytes stored and nothing else: step (4) of `MemWrite` (20_memory.md R67), after its checks. -/
def State.storeBytes (s : State) (a : Nat) (bs : List Byte) : State :=
  { s with mem := Memory.writeBytes s.mem a bs }

/-- An instruction completed: the counter of 45_system.md R300. -/
def State.countStep (s : State) : State := { s with steps := s.steps + 1 }

/-! Free values (00_scope.md R14; notes/assumptions/4.md). -/

/-- The next free word of this state. -/
def State.draw (s : State) : Word := Config.freeWord s.draws

/-- One free value has been taken. -/
def State.drawn (s : State) : State := { s with draws := s.draws + 1 }

/-- The draw counter set. -/
def State.setDraws (s : State) (n : Nat) : State := { s with draws := n }

/-- HI and LO become any value, each its own draw (41_muldiv.md R183, 60_exceptions.md R497). -/
def State.drawHiLo (s : State) : State :=
  ((s.setHi s.draw).drawn.setLo s.drawn.draw).drawn

/-! Taking a fault. -/

/-- `raise K` (60_exceptions.md R500): no write of the instruction takes effect, `pc` stays, the status becomes
`Faulted(K)`, or `Paused` for a breakpoint; after DivisionByZero HI and LO are a draw. -/
def State.raise (s : State) (k : FaultKind) : State :=
  match k with
  | .breakpoint a => s.setStatus (.paused a)
  | .divisionByZero => s.drawHiLo.setStatus (.faulted .divisionByZero)
  | _ => s.setStatus (.faulted k)

/-- The fault a status reports, if any. -/
def RunStatus.fault (r : RunStatus) : Option FaultKind :=
  match r with
  | .faulted k => some k
  | .paused a => some (.breakpoint a)
  | _ => none

/-! Endings shared by the instructions: write one destination and advance (40_integer_alu.md R140). -/

/-- `x[r] <- v; pc <- this_pc + 4`. -/
def State.finishGpr (s : State) (r : RegIdx) (v : Word) : Result := .next (s.setGpr r v).advance

/-- `f[r] <- v; pc <- this_pc + 4`. -/
def State.finishFpr (s : State) (r : RegIdx) (v : Word) : Result := .next (s.setFpr r v).advance

/-- `HI <- h; LO <- l; pc <- this_pc + 4`. -/
def State.finishHiLo (s : State) (h l : Word) : Result := .next ((s.setHi h).setLo l).advance

/-- `FCC <- b; pc <- this_pc + 4`. -/
def State.finishFcc (s : State) (b : Bool) : Result := .next (s.setFcc b).advance

/-! The console (10_state.md R32). -/

/-- `out <- out ++ [e]`. -/
def State.emit (s : State) (e : OutEvent) : State := { s with out := s.out ++ [e] }

/-- `inp.ReadInt()`: the answer at the head of `inp` when it is an integer, else a free word (45_system.md R295). -/
def State.askInt (s : State) : Word × State :=
  match s.inp with
  | .int v :: rest => (v, { s with inp := rest })
  | _ => (s.draw, s.drawn)

/-- `inp.ReadChar()`: one byte (45_system.md R299). -/
def State.askChar (s : State) : Byte × State :=
  match s.inp with
  | .char b :: rest => (b, { s with inp := rest })
  | _ => (s.draw.extractLsb' 0 8, s.drawn)

/-- What the host may answer to `ReadString(limit)`: at most `limit` bytes, none zero (45_system.md R296). -/
def admissible (limit : Nat) (bs : List Byte) : List Byte :=
  (bs.takeWhile (fun b => b != 0#8)).take limit

/-- `inp.ReadString(limit)` (45_system.md R296). A ready string that is longer than the limit or holds a zero byte is cut
to what the host may answer and consumed (DESIGN CHOICE, notes/assumptions/5.md). -/
def State.askString (s : State) (limit : Nat) : List Byte × State :=
  match s.inp with
  | .string bs :: rest => (admissible limit bs, { s with inp := rest })
  | _ => (admissible limit (Config.freeBytes s.draws), s.drawn)

/-- The bytes from `a` up to the first zero byte, looking at no more than `fuel` of them; none when there is no zero
byte among them (45_system.md R294). -/
def Memory.cString (m : List Host.Cell) (fuel a : Nat) : Option (List Byte) :=
  match fuel with
  | 0 => none
  | k + 1 =>
    if Memory.read m a = 0#8 then some []
    else (Memory.cString m k (a + 1)).map (fun bs => Memory.read m a :: bs)

end Sys2Proof.Machine
end

