-- ==== Sys2Proof/Machine/Operands.lean ====
section
/-!
DEFINITION. Every operand form: immediates (30_encoding.md R109), the effective address (20_memory.md R65), branch and
jump targets and the link value (43_control.md R232 to R235), and the register names an instruction reads and writes
(48_pipeline_inorder.md R386).
-/

namespace Sys2Proof.Machine

/-- `sext_32(imm16)`: arithmetic immediates, offsets (30_encoding.md R109). -/
def sextImm (imm : Imm16) : Word := imm.signExtend 32

/-- `zext_32(imm16)`: logical immediates (30_encoding.md R109). -/
def zextImm (imm : Imm16) : Word := imm.zeroExtend 32

/-- `imm16 || 0x0000` (42_loadstore.md R209). -/
def luiImm (imm : Imm16) : Word := imm ++ 0#16

/-- `EA(base, imm16)` (20_memory.md R65): the sum over the unbounded integers, none when it is negative or at least
2^32 (`AddressOverflow`). -/
def effAddr (base : Word) (imm : Imm16) : Option Nat :=
  let sum : Int := (base.toNat : Int) + imm.toInt
  if sum < 0 ∨ 2 ^ 32 ≤ sum then none else some sum.toNat

/-- The shift amount of the variable shifts, `x[rs][4:0]` (40_integer_alu.md R162). -/
def shiftAmount (v : Word) : Nat := (v.extractLsb' 0 5).toNat

/-- `btarget` (43_control.md R233). -/
def branchTarget (pc : Word) (imm : Imm16) : Word := pc + 4#32 + (sextImm imm <<< 2)

/-- `jtarget` (43_control.md R234). -/
def jumpTarget (pc : Word) (target : BitVec 26) : Word :=
  ((pc + 4#32) &&& 0xF0000000#32) ||| (target.zeroExtend 32 <<< 2)

/-- The link value `this_pc + 8` (43_control.md R235). -/
def linkValue (pc : Word) : Word := pc + 8#32

/-- A target control may be transferred to: word-aligned and wholly within memory (43_control.md R232). -/
def State.targetOk (s : State) (t : Word) : Bool :=
  t.toNat % 4 == 0 && decide (t.toNat + 4 ≤ s.cfg.memSize)

/-! Names (48_pipeline_inorder.md R386). -/

/-- The source names in operand order, register 0 among them. `syscall` reads its registers when it commits (R412),
so it has no operand here. -/
def sourceOperands (i : Instr) : List RegName :=
  match i with
  | .add _ rs rt | .addu _ rs rt | .sub _ rs rt | .subu _ rs rt | .and _ rs rt | .or _ rs rt | .xor _ rs rt
  | .nor _ rs rt | .slt _ rs rt | .sltu _ rs rt => [.gpr rs, .gpr rt]
  | .sllv _ rt rs | .srlv _ rt rs | .srav _ rt rs => [.gpr rs, .gpr rt]
  | .addi _ rs _ | .addiu _ rs _ | .slti _ rs _ | .sltiu _ rs _ | .andi _ rs _ | .ori _ rs _ | .xori _ rs _ =>
    [.gpr rs]
  | .sll _ rt _ | .srl _ rt _ | .sra _ rt _ => [.gpr rt]
  | .mult rs rt | .multu rs rt | .div rs rt | .divu rs rt => [.gpr rs, .gpr rt]
  | .mfhi _ => [.hi]
  | .mflo _ => [.lo]
  | .mthi rs | .mtlo rs => [.gpr rs]
  | .lw _ b _ | .lh _ b _ | .lhu _ b _ | .lb _ b _ | .lbu _ b _ | .lwc1 _ b _ => [.gpr b]
  | .sw rt b _ | .sh rt b _ | .sb rt b _ => [.gpr b, .gpr rt]
  | .swc1 ft b _ => [.gpr b, .fpr ft]
  | .lui _ _ => []
  | .beq rs rt _ | .bne rs rt _ => [.gpr rs, .gpr rt]
  | .bgtz rs _ | .bgez rs _ | .bltz rs _ | .blez rs _ | .jr rs | .jalr _ rs => [.gpr rs]
  | .j _ | .jal _ => []
  | .bc1t _ | .bc1f _ => [.fcc]
  | .addS _ fs ft | .subS _ fs ft | .mulS _ fs ft | .divS _ fs ft => [.fpr fs, .fpr ft]
  | .absS _ fs | .negS _ fs | .movS _ fs | .cvtSW _ fs | .cvtWS _ fs => [.fpr fs]
  | .cEqS fs ft | .cLtS fs ft | .cLeS fs ft => [.fpr fs, .fpr ft]
  | .syscall _ | .brk _ | .nop => []

/-- The destination names, register 0 among them. What `syscall` writes it writes when it commits (R412). -/
def destOperands (i : Instr) : List RegName :=
  match i with
  | .add rd _ _ | .addu rd _ _ | .sub rd _ _ | .subu rd _ _ | .and rd _ _ | .or rd _ _ | .xor rd _ _
  | .nor rd _ _ | .slt rd _ _ | .sltu rd _ _ => [.gpr rd]
  | .sllv rd _ _ | .srlv rd _ _ | .srav rd _ _ => [.gpr rd]
  | .addi rt _ _ | .addiu rt _ _ | .slti rt _ _ | .sltiu rt _ _ | .andi rt _ _ | .ori rt _ _ | .xori rt _ _ =>
    [.gpr rt]
  | .sll rd _ _ | .srl rd _ _ | .sra rd _ _ => [.gpr rd]
  | .mult _ _ | .multu _ _ | .div _ _ | .divu _ _ => [.hi, .lo]
  | .mfhi rd | .mflo rd => [.gpr rd]
  | .mthi _ => [.hi]
  | .mtlo _ => [.lo]
  | .lw rt _ _ | .lh rt _ _ | .lhu rt _ _ | .lb rt _ _ | .lbu rt _ _ => [.gpr rt]
  | .lwc1 ft _ _ => [.fpr ft]
  | .sw _ _ _ | .sh _ _ _ | .sb _ _ _ | .swc1 _ _ _ => []
  | .lui rt _ => [.gpr rt]
  | .beq _ _ _ | .bne _ _ _ | .bgtz _ _ | .bgez _ _ | .bltz _ _ | .blez _ _ => []
  | .j _ | .jr _ => []
  | .jal _ => [.gpr 31#5]
  | .jalr rd _ => [.gpr rd]
  | .bc1t _ | .bc1f _ => []
  | .addS fd _ _ | .subS fd _ _ | .mulS fd _ _ | .divS fd _ _ => [.fpr fd]
  | .absS fd _ | .negS fd _ | .movS fd _ | .cvtSW fd _ | .cvtWS fd _ => [.fpr fd]
  | .cEqS _ _ | .cLtS _ _ | .cLeS _ _ => [.fcc]
  | .syscall _ | .brk _ | .nop => []

/-- `G[0]` is dropped from every set: it never creates a dependence (48_pipeline_inorder.md R386). -/
def dropZero (names : List RegName) : List RegName :=
  names.filter (fun n => n != .gpr 0#5)

/-- The source set of 48_pipeline_inorder.md R386. -/
def sourceNames (i : Instr) : List RegName := dropZero (sourceOperands i)

/-- The destination set of 48_pipeline_inorder.md R386. -/
def destNames (i : Instr) : List RegName := dropZero (destOperands i)

/-- A destination register, register 1 in place of register 0. -/
def visibleReg (r : RegIdx) : RegIdx := if r = 0#5 then 1#5 else r

/-- The instruction with a destination that keeps what it is given: register 1 in place of register 0. Operands are read
before the result is written, so it delivers there the value that the write to register 0 drops (10_state.md R21). -/
def visibleDest (i : Instr) : Instr :=
  match i with
  | .add rd rs rt => .add (visibleReg rd) rs rt
  | .addu rd rs rt => .addu (visibleReg rd) rs rt
  | .sub rd rs rt => .sub (visibleReg rd) rs rt
  | .subu rd rs rt => .subu (visibleReg rd) rs rt
  | .and rd rs rt => .and (visibleReg rd) rs rt
  | .or rd rs rt => .or (visibleReg rd) rs rt
  | .xor rd rs rt => .xor (visibleReg rd) rs rt
  | .nor rd rs rt => .nor (visibleReg rd) rs rt
  | .slt rd rs rt => .slt (visibleReg rd) rs rt
  | .sltu rd rs rt => .sltu (visibleReg rd) rs rt
  | .sllv rd rt rs => .sllv (visibleReg rd) rt rs
  | .srlv rd rt rs => .srlv (visibleReg rd) rt rs
  | .srav rd rt rs => .srav (visibleReg rd) rt rs
  | .addi rt rs imm => .addi (visibleReg rt) rs imm
  | .addiu rt rs imm => .addiu (visibleReg rt) rs imm
  | .slti rt rs imm => .slti (visibleReg rt) rs imm
  | .sltiu rt rs imm => .sltiu (visibleReg rt) rs imm
  | .andi rt rs imm => .andi (visibleReg rt) rs imm
  | .ori rt rs imm => .ori (visibleReg rt) rs imm
  | .xori rt rs imm => .xori (visibleReg rt) rs imm
  | .sll rd rt shamt => .sll (visibleReg rd) rt shamt
  | .srl rd rt shamt => .srl (visibleReg rd) rt shamt
  | .sra rd rt shamt => .sra (visibleReg rd) rt shamt
  | .mfhi rd => .mfhi (visibleReg rd)
  | .mflo rd => .mflo (visibleReg rd)
  | .lw rt base imm => .lw (visibleReg rt) base imm
  | .lh rt base imm => .lh (visibleReg rt) base imm
  | .lhu rt base imm => .lhu (visibleReg rt) base imm
  | .lb rt base imm => .lb (visibleReg rt) base imm
  | .lbu rt base imm => .lbu (visibleReg rt) base imm
  | .lui rt imm => .lui (visibleReg rt) imm
  | .jalr rd rs => .jalr (visibleReg rd) rs
  | .mult _ _ | .multu _ _ | .div _ _ | .divu _ _ | .mthi _ | .mtlo _ => i
  | .lwc1 _ _ _ | .sw _ _ _ | .sh _ _ _ | .sb _ _ _ | .swc1 _ _ _ => i
  | .beq _ _ _ | .bne _ _ _ | .bgtz _ _ | .bgez _ _ | .bltz _ _ | .blez _ _ | .bc1t _ | .bc1f _ => i
  | .j _ | .jr _ | .jal _ => i
  | .addS _ _ _ | .subS _ _ _ | .mulS _ _ _ | .divS _ _ _ | .absS _ _ | .negS _ _ | .movS _ _ | .cvtSW _ _
  | .cvtWS _ _ | .cEqS _ _ | .cLtS _ _ | .cLeS _ _ => i
  | .syscall _ | .brk _ | .nop => i

/-- The value under a name, FCC as 0 or 1. -/
def State.readName (s : State) (n : RegName) : Word :=
  match n with
  | .gpr r => s.readGpr r
  | .fpr r => s.readFpr r
  | .hi => s.hi
  | .lo => s.lo
  | .fcc => if s.fcc then 1#32 else 0#32

/-- The value written under a name; a write to `G[0]` is dropped. -/
def State.writeName (s : State) (n : RegName) (v : Word) : State :=
  match n with
  | .gpr r => s.setGpr r v
  | .fpr r => s.setFpr r v
  | .hi => s.setHi v
  | .lo => s.setLo v
  | .fcc => s.setFcc (v != 0#32)

/-- Values written under their names, in order. -/
def State.writeNames (s : State) (ws : List (RegName × Word)) : State :=
  match ws with
  | [] => s
  | (n, v) :: rest => (s.writeName n v).writeNames rest

/-- A data access: its width, base, offset, and the register loaded or stored (42_loadstore.md R200). -/
structure MemOp where
  store : Bool
  width : Width
  base : RegIdx
  imm : Imm16
  data : RegName
  deriving DecidableEq, Repr

/-- The access of a load or store; none for every other instruction. -/
def memOp (i : Instr) : Option MemOp :=
  match i with
  | .lw rt b imm => some ⟨false, .word, b, imm, .gpr rt⟩
  | .lh rt b imm | .lhu rt b imm => some ⟨false, .half, b, imm, .gpr rt⟩
  | .lb rt b imm | .lbu rt b imm => some ⟨false, .byte, b, imm, .gpr rt⟩
  | .lwc1 ft b imm => some ⟨false, .word, b, imm, .fpr ft⟩
  | .sw rt b imm => some ⟨true, .word, b, imm, .gpr rt⟩
  | .sh rt b imm => some ⟨true, .half, b, imm, .gpr rt⟩
  | .sb rt b imm => some ⟨true, .byte, b, imm, .gpr rt⟩
  | .swc1 ft b imm => some ⟨true, .word, b, imm, .fpr ft⟩
  | _ => none

/-- A load of 48_pipeline_inorder.md R396. -/
def isLoad (i : Instr) : Bool :=
  match memOp i with
  | some m => !m.store
  | none => false

/-- A store of 42_loadstore.md section 3 or 5. -/
def isStore (i : Instr) : Bool :=
  match memOp i with
  | some m => m.store
  | none => false

/-- The serialising instructions of 48_pipeline_inorder.md R412. -/
def isSerialising (i : Instr) : Bool :=
  match i with
  | .syscall _ | .brk _ => true
  | _ => false

/-- The twelve control transfers of 43_control.md. -/
def isControl (i : Instr) : Bool :=
  match i with
  | .beq _ _ _ | .bne _ _ _ | .bgtz _ _ | .bgez _ _ | .bltz _ _ | .blez _ _ | .j _ | .jal _ | .jr _ | .jalr _ _
  | .bc1t _ | .bc1f _ => true
  | _ => false

end Sys2Proof.Machine
end

