-- ==== Sys2Proof/Machine/Flags.lean ====
section
/-!
DEFINITION. What the machine computes in place of flags: the overflow test of add, sub and addi (40_integer_alu.md
R141), the 0-or-1 results of the set-on-less-than instructions (R165), the branch conditions (43_control.md section 2
and 4), and the one flag, FCC, of the compares (44_float.md R271).
-/

namespace Sys2Proof.Machine

/-- The exact signed result lies outside `-2^31 .. 2^31 - 1` (40_integer_alu.md R141). -/
def signedOverflow (r : Int) : Bool := decide (r < -2 ^ 31 ∨ 2 ^ 31 - 1 < r)

/-- A truth value as a 32-bit 0 or 1 (40_integer_alu.md R150, R165). -/
def boolWord (b : Bool) : Word := if b then 1#32 else 0#32

/-- Signed less-than (40_integer_alu.md R150). -/
def signedLt (a b : Word) : Bool := decide (a.toInt < b.toInt)

/-- Unsigned less-than (40_integer_alu.md R151). -/
def unsignedLt (a b : Word) : Bool := decide (a.toNat < b.toNat)

/-- The condition of a control transfer in a state: that of the conditional branches, true for the four jumps, false
for every other instruction (43_control.md R236 to R247; 47_branch_predictor.md R368). -/
def State.takes (s : State) (i : Instr) : Bool :=
  match i with
  | .beq rs rt _ => s.readGpr rs == s.readGpr rt
  | .bne rs rt _ => s.readGpr rs != s.readGpr rt
  | .bgtz rs _ => decide (0 < (s.readGpr rs).toInt)
  | .bgez rs _ => decide (0 ≤ (s.readGpr rs).toInt)
  | .bltz rs _ => decide ((s.readGpr rs).toInt < 0)
  | .blez rs _ => decide ((s.readGpr rs).toInt ≤ 0)
  | .bc1t _ => s.fcc
  | .bc1f _ => !s.fcc
  | .j _ | .jal _ | .jr _ | .jalr _ _ => true
  | _ => false

/-- FCC of `c.eq.s` (44_float.md R272). -/
def fccEq (a b : Word) : Bool := !isNaN a && !isNaN b && decide (orderKey a = orderKey b)

/-- FCC of `c.lt.s` (44_float.md R273). -/
def fccLt (a b : Word) : Bool := !isNaN a && !isNaN b && decide (orderKey a < orderKey b)

/-- FCC of `c.le.s` (44_float.md R274). -/
def fccLe (a b : Word) : Bool := !isNaN a && !isNaN b && decide (orderKey a ≤ orderKey b)

end Sys2Proof.Machine
end

