-- ==== Sys2Proof/Machine/Alu.lean ====
section
/-!
DEFINITION. The integer ALU instructions (40_integer_alu.md R140 to R165), one definition each over the shared endings.
-/

namespace Sys2Proof.Machine

/-- The trapping forms: the exact signed result, or `ArithmeticOverflow` with nothing written (40_integer_alu.md R141). -/
def State.finishTrapping (s : State) (r : RegIdx) (exact : Int) : Result :=
  if signedOverflow exact then .next (s.raise .arithmeticOverflow)
  else s.finishGpr r (BitVec.ofInt 32 exact)

/-- 40_integer_alu.md R142. -/
def execAdd (rd rs rt : RegIdx) (s : State) : Result :=
  s.finishTrapping rd ((s.readGpr rs).toInt + (s.readGpr rt).toInt)

/-- 40_integer_alu.md R143. -/
def execAddu (rd rs rt : RegIdx) (s : State) : Result :=
  s.finishGpr rd (s.readGpr rs + s.readGpr rt)

/-- 40_integer_alu.md R144. -/
def execSub (rd rs rt : RegIdx) (s : State) : Result :=
  s.finishTrapping rd ((s.readGpr rs).toInt - (s.readGpr rt).toInt)

/-- 40_integer_alu.md R145. -/
def execSubu (rd rs rt : RegIdx) (s : State) : Result :=
  s.finishGpr rd (s.readGpr rs - s.readGpr rt)

/-- 40_integer_alu.md R146. -/
def execAnd (rd rs rt : RegIdx) (s : State) : Result :=
  s.finishGpr rd (s.readGpr rs &&& s.readGpr rt)

/-- 40_integer_alu.md R147. -/
def execOr (rd rs rt : RegIdx) (s : State) : Result :=
  s.finishGpr rd (s.readGpr rs ||| s.readGpr rt)

/-- 40_integer_alu.md R148. -/
def execXor (rd rs rt : RegIdx) (s : State) : Result :=
  s.finishGpr rd (s.readGpr rs ^^^ s.readGpr rt)

/-- 40_integer_alu.md R149. -/
def execNor (rd rs rt : RegIdx) (s : State) : Result :=
  s.finishGpr rd (~~~(s.readGpr rs ||| s.readGpr rt))

/-- 40_integer_alu.md R150. -/
def execSlt (rd rs rt : RegIdx) (s : State) : Result :=
  s.finishGpr rd (boolWord (signedLt (s.readGpr rs) (s.readGpr rt)))

/-- 40_integer_alu.md R151. -/
def execSltu (rd rs rt : RegIdx) (s : State) : Result :=
  s.finishGpr rd (boolWord (unsignedLt (s.readGpr rs) (s.readGpr rt)))

/-- 40_integer_alu.md R152. -/
def execAddi (rt rs : RegIdx) (imm : Imm16) (s : State) : Result :=
  s.finishTrapping rt ((s.readGpr rs).toInt + imm.toInt)

/-- 40_integer_alu.md R153. -/
def execAddiu (rt rs : RegIdx) (imm : Imm16) (s : State) : Result :=
  s.finishGpr rt (s.readGpr rs + sextImm imm)

/-- 40_integer_alu.md R154. -/
def execSlti (rt rs : RegIdx) (imm : Imm16) (s : State) : Result :=
  s.finishGpr rt (boolWord (signedLt (s.readGpr rs) (sextImm imm)))

/-- 40_integer_alu.md R155. -/
def execSltiu (rt rs : RegIdx) (imm : Imm16) (s : State) : Result :=
  s.finishGpr rt (boolWord (unsignedLt (s.readGpr rs) (sextImm imm)))

/-- 40_integer_alu.md R156. -/
def execAndi (rt rs : RegIdx) (imm : Imm16) (s : State) : Result :=
  s.finishGpr rt (s.readGpr rs &&& zextImm imm)

/-- 40_integer_alu.md R157. -/
def execOri (rt rs : RegIdx) (imm : Imm16) (s : State) : Result :=
  s.finishGpr rt (s.readGpr rs ||| zextImm imm)

/-- 40_integer_alu.md R158. -/
def execXori (rt rs : RegIdx) (imm : Imm16) (s : State) : Result :=
  s.finishGpr rt (s.readGpr rs ^^^ zextImm imm)

/-- 40_integer_alu.md R159. -/
def execSll (rd rt : RegIdx) (shamt : BitVec 5) (s : State) : Result :=
  s.finishGpr rd (s.readGpr rt <<< shamt.toNat)

/-- 40_integer_alu.md R160. -/
def execSrl (rd rt : RegIdx) (shamt : BitVec 5) (s : State) : Result :=
  s.finishGpr rd (s.readGpr rt >>> shamt.toNat)

/-- 40_integer_alu.md R161. -/
def execSra (rd rt : RegIdx) (shamt : BitVec 5) (s : State) : Result :=
  s.finishGpr rd ((s.readGpr rt).sshiftRight shamt.toNat)

/-- 40_integer_alu.md R162. -/
def execSllv (rd rt rs : RegIdx) (s : State) : Result :=
  s.finishGpr rd (s.readGpr rt <<< shiftAmount (s.readGpr rs))

/-- 40_integer_alu.md R163. -/
def execSrlv (rd rt rs : RegIdx) (s : State) : Result :=
  s.finishGpr rd (s.readGpr rt >>> shiftAmount (s.readGpr rs))

/-- 40_integer_alu.md R164. -/
def execSrav (rd rt rs : RegIdx) (s : State) : Result :=
  s.finishGpr rd ((s.readGpr rt).sshiftRight (shiftAmount (s.readGpr rs)))

end Sys2Proof.Machine
end

