-- ==== Sys2Proof/Machine/Control.lean ====
section
/-!
DEFINITION. Control transfer (43_control.md R230 to R247). There is no delay slot (R231); a target is tested only when
control is transferred to it (R232); the link value is `this_pc + 8` (R235).
-/

namespace Sys2Proof.Machine

/-- Transfer control to `t` after writing what `link` writes, or raise `InvalidBranchTarget(t)` with nothing written
(43_control.md R232). -/
def State.transfer (s : State) (t : Word) (link : State → State) : Result :=
  if s.targetOk t then .next ((link s).setPc t) else .next (s.raise (.invalidBranchTarget t))

/-- A conditional branch: the target when the condition holds, else the next word (43_control.md R230, R233). -/
def State.branch (s : State) (cond : Bool) (imm : Imm16) : Result :=
  if cond then s.transfer (branchTarget s.pc imm) id else .next s.advance

/-- 43_control.md R236. -/
def execBeq (rs rt : RegIdx) (imm : Imm16) (s : State) : Result := s.branch (s.takes (.beq rs rt imm)) imm

/-- 43_control.md R237. -/
def execBne (rs rt : RegIdx) (imm : Imm16) (s : State) : Result := s.branch (s.takes (.bne rs rt imm)) imm

/-- 43_control.md R238. -/
def execBgtz (rs : RegIdx) (imm : Imm16) (s : State) : Result := s.branch (s.takes (.bgtz rs imm)) imm

/-- 43_control.md R239. -/
def execBgez (rs : RegIdx) (imm : Imm16) (s : State) : Result := s.branch (s.takes (.bgez rs imm)) imm

/-- 43_control.md R240. -/
def execBltz (rs : RegIdx) (imm : Imm16) (s : State) : Result := s.branch (s.takes (.bltz rs imm)) imm

/-- 43_control.md R241. -/
def execBlez (rs : RegIdx) (imm : Imm16) (s : State) : Result := s.branch (s.takes (.blez rs imm)) imm

/-- 43_control.md R242. -/
def execJ (target : BitVec 26) (s : State) : Result := s.transfer (jumpTarget s.pc target) id

/-- 43_control.md R243. -/
def execJal (target : BitVec 26) (s : State) : Result :=
  s.transfer (jumpTarget s.pc target) (fun u => u.setGpr 31#5 (linkValue s.pc))

/-- 43_control.md R244. -/
def execJr (rs : RegIdx) (s : State) : Result := s.transfer (s.readGpr rs) id

/-- 43_control.md R245: the target is read before the link is written. -/
def execJalr (rd rs : RegIdx) (s : State) : Result :=
  s.transfer (s.readGpr rs) (fun u => u.setGpr rd (linkValue s.pc))

/-- 43_control.md R246. -/
def execBc1t (imm : Imm16) (s : State) : Result := s.branch (s.takes (.bc1t imm)) imm

/-- 43_control.md R247. -/
def execBc1f (imm : Imm16) (s : State) : Result := s.branch (s.takes (.bc1f imm)) imm

end Sys2Proof.Machine
end

