-- ==== Sys2Proof/Machine/FloatOps.lean ====
section
/-!
DEFINITION. The single-precision instructions (44_float.md R260 to R274). None raises a fault. Where the result of an
arithmetic operation is some NaN pattern, it is a free one (notes/assumptions/4.md).
-/

namespace Sys2Proof.Machine

/-- `f[fd] <- r`, where none is some NaN pattern, a draw (44_float.md R261(c)). -/
def State.finishNumber (s : State) (fd : RegIdx) (r : Option Word) : Result :=
  match r with
  | some v => s.finishFpr fd v
  | none => s.drawn.finishFpr fd (nanOf s.draw)

/-- 44_float.md R262. -/
def execAddS (fd fs ft : RegIdx) (s : State) : Result := s.finishNumber fd (fpAdd (s.readFpr fs) (s.readFpr ft))

/-- 44_float.md R263. -/
def execSubS (fd fs ft : RegIdx) (s : State) : Result := s.finishNumber fd (fpSub (s.readFpr fs) (s.readFpr ft))

/-- 44_float.md R264. -/
def execMulS (fd fs ft : RegIdx) (s : State) : Result := s.finishNumber fd (fpMul (s.readFpr fs) (s.readFpr ft))

/-- 44_float.md R265. -/
def execDivS (fd fs ft : RegIdx) (s : State) : Result := s.finishNumber fd (fpDiv (s.readFpr fs) (s.readFpr ft))

/-- 44_float.md R266. -/
def execAbsS (fd fs : RegIdx) (s : State) : Result := s.finishFpr fd (clearSign (s.readFpr fs))

/-- 44_float.md R267. -/
def execNegS (fd fs : RegIdx) (s : State) : Result := s.finishFpr fd (flipSign (s.readFpr fs))

/-- 44_float.md R268. -/
def execMovS (fd fs : RegIdx) (s : State) : Result := s.finishFpr fd (s.readFpr fs)

/-- 44_float.md R269. -/
def execCvtSW (fd fs : RegIdx) (s : State) : Result := s.finishFpr fd (fpOfInt (s.readFpr fs))

/-- 44_float.md R270: outside the exact cases the result is a free value (notes/assumptions/11.md). -/
def execCvtWS (fd fs : RegIdx) (s : State) : Result :=
  match cvtExact (s.readFpr fs) with
  | some v => s.finishFpr fd v
  | none => s.drawn.finishFpr fd s.draw

/-- 44_float.md R272. -/
def execCEqS (fs ft : RegIdx) (s : State) : Result := s.finishFcc (fccEq (s.readFpr fs) (s.readFpr ft))

/-- 44_float.md R273. -/
def execCLtS (fs ft : RegIdx) (s : State) : Result := s.finishFcc (fccLt (s.readFpr fs) (s.readFpr ft))

/-- 44_float.md R274. -/
def execCLeS (fs ft : RegIdx) (s : State) : Result := s.finishFcc (fccLe (s.readFpr fs) (s.readFpr ft))

end Sys2Proof.Machine
end

