-- ==== Sys2Proof/Machine/LoadStore.lean ====
section
/-!
DEFINITION. Loads, stores and lui (42_loadstore.md R200 to R211). Faults in the order of R200: AddressOverflow, bounds,
alignment, write protection; on any of them nothing is written.
-/

namespace Sys2Proof.Machine

/-- The common part of a load: the address, its checks, and the zero-extended pattern handed to `finish`
(42_loadstore.md R200; 20_memory.md R65, R66). -/
def State.loadAt (s : State) (base : RegIdx) (imm : Imm16) (w : Width) (finish : Word → Result) : Result :=
  match effAddr (s.readGpr base) imm with
  | none => .next (s.raise .addressOverflow)
  | some a =>
    match s.readFault a w.bytes with
    | some k => .next (s.raise k)
    | none => finish (Memory.load s.mem a w)

/-- The common part of a store (42_loadstore.md R200; 20_memory.md R65, R67). -/
def State.storeAt (s : State) (base : RegIdx) (imm : Imm16) (w : Width) (v : Word) : Result :=
  match effAddr (s.readGpr base) imm with
  | none => .next (s.raise .addressOverflow)
  | some a =>
    match s.writeFault a w.bytes with
    | some k => .next (s.raise k)
    | none => .next (s.storeBytes a (w.bytesOf v)).advance

/-- `sext_32` of the low 16 bits. -/
def sextHalf (v : Word) : Word := (v.extractLsb' 0 16).signExtend 32

/-- `sext_32` of the low 8 bits. -/
def sextByte (v : Word) : Word := (v.extractLsb' 0 8).signExtend 32

/-- 42_loadstore.md R201. -/
def execLw (rt base : RegIdx) (imm : Imm16) (s : State) : Result :=
  s.loadAt base imm .word (fun v => s.finishGpr rt v)

/-- 42_loadstore.md R202. -/
def execLh (rt base : RegIdx) (imm : Imm16) (s : State) : Result :=
  s.loadAt base imm .half (fun v => s.finishGpr rt (sextHalf v))

/-- 42_loadstore.md R203. -/
def execLhu (rt base : RegIdx) (imm : Imm16) (s : State) : Result :=
  s.loadAt base imm .half (fun v => s.finishGpr rt v)

/-- 42_loadstore.md R204. -/
def execLb (rt base : RegIdx) (imm : Imm16) (s : State) : Result :=
  s.loadAt base imm .byte (fun v => s.finishGpr rt (sextByte v))

/-- 42_loadstore.md R205. -/
def execLbu (rt base : RegIdx) (imm : Imm16) (s : State) : Result :=
  s.loadAt base imm .byte (fun v => s.finishGpr rt v)

/-- 42_loadstore.md R206. -/
def execSw (rt base : RegIdx) (imm : Imm16) (s : State) : Result :=
  s.storeAt base imm .word (s.readGpr rt)

/-- 42_loadstore.md R207. -/
def execSh (rt base : RegIdx) (imm : Imm16) (s : State) : Result :=
  s.storeAt base imm .half (s.readGpr rt)

/-- 42_loadstore.md R208. -/
def execSb (rt base : RegIdx) (imm : Imm16) (s : State) : Result :=
  s.storeAt base imm .byte (s.readGpr rt)

/-- 42_loadstore.md R209. -/
def execLui (rt : RegIdx) (imm : Imm16) (s : State) : Result := s.finishGpr rt (luiImm imm)

/-- 42_loadstore.md R210: the 32 bits copied unchanged. -/
def execLwc1 (ft base : RegIdx) (imm : Imm16) (s : State) : Result :=
  s.loadAt base imm .word (fun v => s.finishFpr ft v)

/-- 42_loadstore.md R211. -/
def execSwc1 (ft base : RegIdx) (imm : Imm16) (s : State) : Result :=
  s.storeAt base imm .word (s.readFpr ft)

end Sys2Proof.Machine
end

