-- ==== Sys2Proof/Machine/MulDiv.lean ====
section
/-!
DEFINITION. Multiply, divide and the HI and LO moves (41_muldiv.md R180 to R188). LO receives the quotient and HI the
remainder (90_conflicts.md C1).
-/

namespace Sys2Proof.Machine

/-- `HI <- P[63:32]; LO <- P[31:0]` of a 64-bit product (41_muldiv.md R181, R182). -/
def State.finishProduct (s : State) (p : BitVec 64) : Result :=
  s.finishHiLo (p.extractLsb' 32 32) (p.extractLsb' 0 32)

/-- 41_muldiv.md R181. -/
def execMult (rs rt : RegIdx) (s : State) : Result :=
  s.finishProduct (BitVec.ofInt 64 ((s.readGpr rs).toInt * (s.readGpr rt).toInt))

/-- 41_muldiv.md R182. -/
def execMultu (rs rt : RegIdx) (s : State) : Result :=
  s.finishProduct (BitVec.ofNat 64 ((s.readGpr rs).toNat * (s.readGpr rt).toNat))

/-- 41_muldiv.md R183: divisor 0 raises; the quotient overflow leaves `DIV_OVF`, two free values
(notes/assumptions/10.md); else the quotient is truncated toward zero. -/
def execDiv (rs rt : RegIdx) (s : State) : Result :=
  let n := (s.readGpr rs).toInt
  let d := (s.readGpr rt).toInt
  if d = 0 then .next (s.raise .divisionByZero)
  else if n = -2 ^ 31 ∧ d = -1 then .next s.drawHiLo.advance
  else s.finishHiLo (BitVec.ofInt 32 (n - n.tdiv d * d)) (BitVec.ofInt 32 (n.tdiv d))

/-- 41_muldiv.md R184. -/
def execDivu (rs rt : RegIdx) (s : State) : Result :=
  let n := (s.readGpr rs).toNat
  let d := (s.readGpr rt).toNat
  if d = 0 then .next (s.raise .divisionByZero)
  else s.finishHiLo (BitVec.ofNat 32 (n % d)) (BitVec.ofNat 32 (n / d))

/-- 41_muldiv.md R185. -/
def execMfhi (rd : RegIdx) (s : State) : Result := s.finishGpr rd s.hi

/-- 41_muldiv.md R186. -/
def execMflo (rd : RegIdx) (s : State) : Result := s.finishGpr rd s.lo

/-- 41_muldiv.md R187. -/
def execMthi (rs : RegIdx) (s : State) : Result := s.finishHiLo (s.readGpr rs) s.lo

/-- 41_muldiv.md R188. -/
def execMtlo (rs : RegIdx) (s : State) : Result := s.finishHiLo s.hi (s.readGpr rs)

end Sys2Proof.Machine
end

