-- ==== Sys2Proof/Machine/System.lean ====
section
/-!
DEFINITION. Environment call, break and nop (45_system.md R290 to R303).
-/

namespace Sys2Proof.Machine

/-- `$v0`, `$a0`, `$a1` (10_state.md R22). -/
def regV0 : RegIdx := 2#5
/-- `$a0`. -/
def regA0 : RegIdx := 4#5
/-- `$a1`. -/
def regA1 : RegIdx := 5#5

/-- Call 1, print-int (45_system.md R292). -/
def State.callPrintInt (s : State) : State := (s.emit (.printInt (s.readGpr regA0))).advance

/-- Call 4, print-string (45_system.md R294): the bytes up to the first zero byte, or the first address outside
memory when there is none. -/
def State.callPrintString (s : State) : State :=
  let a := (s.readGpr regA0).toNat
  match Memory.cString s.mem (s.cfg.memSize - a) a with
  | some bs => (s.emit (.printString bs)).advance
  | none => s.raise (.memoryOutOfBounds (max a s.cfg.memSize))

/-- Call 5, read-int (45_system.md R295). -/
def State.callReadInt (s : State) : State := (s.askInt.2.setGpr regV0 s.askInt.1).advance

/-- The fault of the destination of a read-string of `n` bytes at `buf`, if any: bounds, then write protection, at
the first such address (45_system.md R296). -/
def State.bufferFault (s : State) (buf n : Nat) : Option FaultKind :=
  if s.cfg.memSize < buf + n then some (.memoryOutOfBounds (max buf s.cfg.memSize))
  else if s.protects buf n then some (.memoryWriteProtected (max buf s.cfg.roBase))
  else none

/-- The bytes a read-string call stores and the state after the host was asked (45_system.md R296). -/
def State.readStringBytes (s : State) (n : Nat) : List Byte × State :=
  ((s.askString (n - 1)).1 ++ [0#8], (s.askString (n - 1)).2)

/-- Call 8, read-string (45_system.md R296). -/
def State.callReadString (s : State) : State :=
  let buf := (s.readGpr regA0).toNat
  let n := (s.readGpr regA1).toNat
  if n = 0 then s.advance
  else
    match s.bufferFault buf n with
    | some k => s.raise k
    | none => ((s.readStringBytes n).2.storeBytes buf (s.readStringBytes n).1).advance

/-- Call 10, exit (45_system.md R297): `pc` stays. -/
def State.callExit (s : State) : State := s.setStatus .exited

/-- Call 11, print-char (45_system.md R298). -/
def State.callPrintChar (s : State) : State :=
  (s.emit (.printChar ((s.readGpr regA0).extractLsb' 0 8))).advance

/-- Call 12, read-char (45_system.md R299). -/
def State.callReadChar (s : State) : State := (s.askChar.2.setGpr regV0 (s.askChar.1.zeroExtend 32)).advance

/-- 45_system.md R291: the service of the number in `$v0`; the code field is ignored. -/
def execSyscall (_code : BitVec 20) (s : State) : Result :=
  let n := s.readGpr regV0
  if n = 1#32 then .next s.callPrintInt
  else if n = 4#32 then .next s.callPrintString
  else if n = 5#32 then .next s.callReadInt
  else if n = 8#32 then .next s.callReadString
  else if n = 10#32 then .next s.callExit
  else if n = 11#32 then .next s.callPrintChar
  else if n = 12#32 then .next s.callReadChar
  else .next (s.raise (.invalidSyscall n))

/-- 45_system.md R302: pauses at its own address; the code field is ignored. -/
def execBrk (_code : BitVec 20) (s : State) : Result := .next (s.raise (.breakpoint s.pc))

/-- 45_system.md R303. -/
def execNop (s : State) : Result := .next s.advance

end Sys2Proof.Machine
end

