-- ==== Sys2Proof/Machine/Functional.lean ====
section
/-!
DEFINITION. One step of the functional engine (45_system.md R300), and the loader's effect (70_reset_and_hazards.md R535).
-/

namespace Sys2Proof.Machine

/-- The end of a step: `steps + 1` when the instruction completed, the exit call among them (45_system.md R300, R297;
D71); a raise counts nothing. -/
def State.endStep (t : State) : State :=
  match t.status with
  | .faulted _ | .paused _ => t
  | _ => t.countStep

/-- The outcome of an instruction with its step counted. -/
def countOutcome (r : Result) : Result :=
  match r with
  | .next t => .next t.endStep
  | .fault f => .fault f
  | .refused f => .refused f

/-- Fetch, decode and execute at `pc`; a raise at any of the three is applied by 60_exceptions.md R500 (45_system.md R300). -/
def State.runInstruction (s : State) : Result :=
  match s.fetch s.pc.toNat with
  | .error k => .next (s.raise k)
  | .ok w =>
    match decode w with
    | .error _ => .next (s.raise (.invalidInstruction w))
    | .ok i => countOutcome (exec i s)

/-- One step of the functional engine: the end-of-run tests in the order of 45_system.md R300 (D70), then the instruction. -/
def stepFunctional (s : State) : Result :=
  if s.status ≠ .running then .next s
  else if s.cfg.maxSteps ≤ s.steps then .next (s.setStatus .budgetExhausted)
  else if s.cfg.breakpoint = some s.pc then .next (s.raise (.breakpoint s.pc))
  else if s.cfg.textEnd ≤ s.pc.toNat then .next (s.setStatus .endOfText)
  else s.runInstruction

/-! The loader's effect (70_reset_and_hazards.md R532, R535). -/

/-- The natural of a little-endian u32 header field at an offset of the image. -/
def imageU32 (image : List Byte) (at_ : Nat) : Nat :=
  (wordOfBytes (image.getD at_ 0#8) (image.getD (at_ + 1) 0#8) (image.getD (at_ + 2) 0#8)
    (image.getD (at_ + 3) 0#8)).toNat

/-- The state after the image is loaded and the driver has set `pc` and `$sp`: the data section at DATA_BASE and the text
section at TEXT_BASE, written past the read-only flag, which is then armed, and `TEXT_END = TEXT_BASE + text_size`. None
for an image that is cut short or does not fit in memory, which the spec refuses (70_reset_and_hazards.md R535; U8). An
empty section fits anywhere. Bytes of the image past its text section, of which the rule says nothing, are ignored,
and where the two sections overlap the text is written over the data (DESIGN CHOICE, notes/assumptions/3.md). -/
def State.loadImage (s : State) (image : List Byte) : Option State :=
  let dataSize := imageU32 image 0
  let textSize := imageU32 image 4
  let fits := fun base size => size = 0 ∨ base + size ≤ s.cfg.memSize
  if 8 + dataSize + textSize ≤ image.length ∧ fits s.cfg.dataBase dataSize ∧ fits s.cfg.textBase textSize then
    let data := (image.drop 8).take dataSize
    let text := (image.drop (8 + dataSize)).take textSize
    let loaded := (s.storeBytes s.cfg.dataBase data).storeBytes s.cfg.textBase text
    some { loaded with cfg := { s.cfg with textEnd := s.cfg.textBase + textSize }, roArmed := true }
  else none

end Sys2Proof.Machine
end

