-- ==== Sys2Proof/Machine/Cache.lean ====
section
/-!
DEFINITION. The caches (46_cache.md). Timing and statistics only (R350): the architectural memory is always up to date,
and the lines' data are a shadow of it, filled from it (notes/assumptions/9.md). An access first works out what one
cache does (`Cache.access`), then what the next level sees of it (`State.accessL1`).
-/

namespace Sys2Proof

/-! Geometry (46_cache.md R323). -/

/-- `block = addr / BLOCK`. -/
def CacheCfg.blockOf (c : CacheCfg) (addr : Nat) : Nat := addr / c.block
/-- `offset = addr mod BLOCK`. -/
def CacheCfg.offsetOf (c : CacheCfg) (addr : Nat) : Nat := addr % c.block
/-- `index = block mod num_sets`. -/
def CacheCfg.indexOf (c : CacheCfg) (addr : Nat) : Nat := c.blockOf addr % c.numSets
/-- `tag = block / num_sets`. -/
def CacheCfg.tagOf (c : CacheCfg) (addr : Nat) : Nat := c.blockOf addr / c.numSets
/-- `block_base = addr - offset`. -/
def CacheCfg.baseOf (c : CacheCfg) (addr : Nat) : Nat := addr - c.offsetOf addr

/-- The level's own latency: hit, or hit and miss penalty (46_cache.md R340). -/
def CacheCfg.latencyOf (c : CacheCfg) (hit : Bool) : Nat :=
  if hit then c.hitLatency else c.hitLatency + c.missPenalty

/-- `a` comes before `b` in the replacement order of a policy (46_cache.md R333). -/
def Repl.before (r : Repl) (a b : Sys2Proof.Machine.Line) : Bool :=
  match r with
  | .lru => decide (a.lastUse < b.lastUse)
  | .fifo => decide (a.fillTime < b.fillTime)
  | .lfu => decide (a.useCount < b.useCount) || (a.useCount == b.useCount && decide (a.lastUse < b.lastUse))
  | .random => false

end Sys2Proof

namespace Sys2Proof.Machine

/-! The fields of a line (46_cache.md R321). -/

/-- `valid`. -/
def Way.isValid (w : Way) : Bool :=
  match w with
  | .valid _ => true
  | .invalid _ => false

/-- The other fields of a line, in a cache with blocks of `block` bytes. Those of an invalid line are a draw, `dirty`
apart, and no access reads them (10_state.md R38; 93_implementation_defined.md U5). -/
def Way.line (block : Nat) (w : Way) : Line :=
  match w with
  | .valid l => l
  | .invalid n =>
    { tag := (Config.unsetTag n).toNat, dirty := false, lastUse := Config.unsetMeta n 0,
      fillTime := Config.unsetMeta n 1, useCount := Config.unsetMeta n 2,
      data := (List.range block).map (Config.unsetByte n) }

/-- The line at a place of a set, when it is valid. -/
def validLine (ways : List Way) (way : Nat) : Option Line :=
  match ways[way]? with
  | some (.valid l) => some l
  | some (.invalid _) | none => none

/-! Lookup and replacement. -/

/-- The line is valid and carries the tag (46_cache.md R324). -/
def wayHits (tag : Nat) (w : Way) : Bool :=
  match w with
  | .valid l => l.tag == tag
  | .invalid _ => false

/-- The way an address hits in, if any (46_cache.md R324). -/
def lookupWay (tag : Nat) (ways : List Way) : Option Nat := ways.findIdx? (wayHits tag)

/-- The index of the first line that no later one comes before, starting from line `best` at index `at`; `i` is the
index of the head of the list. -/
def minWay (r : Repl) (best : Line) (at_ i : Nat) (ways : List Way) : Nat :=
  match ways with
  | [] => at_
  | .valid l :: rest => if r.before l best then minWay r l i (i + 1) rest else minWay r best at_ (i + 1) rest
  | .invalid _ :: rest => minWay r best at_ (i + 1) rest

/-- The way the policy chooses when all ways are valid; Random takes a free value (46_cache.md R333). -/
def policyWay (c : CacheCfg) (ways : List Way) (free : Nat) : Nat :=
  match c.repl with
  | .random => free % c.assoc
  | _ =>
    match ways with
    | .valid l :: rest => minWay c.repl l 0 1 rest
    | _ => 0

/-- `victim(index)`: the lowest-numbered invalid way, else the policy's (46_cache.md R332). -/
def victimWay (c : CacheCfg) (ways : List Way) (free : Nat) : Nat :=
  match ways.findIdx? (fun w => !w.isValid) with
  | some w => w
  | none => policyWay c ways free

/-- The victim choice takes a free value: Random with every way valid (46_cache.md R333). -/
def victimDraws (c : CacheCfg) (ways : List Way) : Bool :=
  c.repl == .random && ways.all Way.isValid

/-! One access of one cache. -/

/-- What an access does: a read, or a write of bytes (46_cache.md R325). -/
inductive AccessKind where
  | read
  | write (bytes : List Byte)
  deriving DecidableEq, Repr

/-- What an access of one cache leaves: the cache, whether it hit, the block written back (base and data), the base of
the block filled, the store passed to the next level, and whether a free value was taken. -/
structure Access where
  cache : Cache
  hit : Bool
  writeBack : Option (Nat × List Byte)
  fill : Option Nat
  passDown : Option (Nat × List Byte)
  drew : Bool
  deriving DecidableEq, Repr

/-- Bytes of a block replaced from an offset on. -/
def patch (data : List Byte) (offset : Nat) (bs : List Byte) : List Byte :=
  data.take offset ++ bs ++ data.drop (offset + bs.length)

/-- The line of a hit: its policy update (46_cache.md R333) and, for a write, the bytes and under write-back the dirty
flag (R328, R329). -/
def Line.touch (l : Line) (c : CacheCfg) (clock : Nat) (kind : AccessKind) (offset : Nat) : Line :=
  match kind with
  | .read => { l with lastUse := clock, useCount := l.useCount + 1 }
  | .write bs =>
    { l with lastUse := clock, useCount := l.useCount + 1, data := patch l.data offset bs,
             dirty := l.dirty || c.writePolicy == .writeBack }

/-- A line just filled (46_cache.md R335), with a write's bytes put in and under write-back marked dirty (R330, R331). -/
def Line.fresh (c : CacheCfg) (tag clock : Nat) (block : List Byte) (kind : AccessKind) (offset : Nat) : Line :=
  match kind with
  | .read => { tag := tag, dirty := false, lastUse := clock, fillTime := clock, useCount := 0, data := block }
  | .write bs =>
    { tag := tag, dirty := c.writePolicy == .writeBack, lastUse := clock, fillTime := clock, useCount := 0,
      data := patch block offset bs }

/-- The store a write-through cache passes on (46_cache.md R328, R330). -/
def passedDown (c : CacheCfg) (addr : Nat) (kind : AccessKind) : Option (Nat × List Byte) :=
  match kind, c.writePolicy with
  | .write bs, .writeThrough => some (addr, bs)
  | _, _ => none

/-- A miss allocates: always for a read and under write-back, by the flag under write-through (46_cache.md R327, R330,
R331). -/
def allocates (c : CacheCfg) (kind : AccessKind) : Bool :=
  match kind, c.writePolicy with
  | .write _, .writeThrough => c.writeAllocate
  | _, _ => true

/-- The block a victim writes back: base and data when it is a valid line and dirty (46_cache.md R334). -/
def writeBackOf (c : CacheCfg) (index : Nat) (victim : Option Line) : Option (Nat × List Byte) :=
  match victim with
  | some l => if l.dirty then some ((l.tag * c.numSets + index) * c.block, l.data) else none
  | none => none

/-- The clock and the access counter, stepped at the start of every access (46_cache.md R325). -/
def Cache.tick (k : Cache) : Cache := { k with clock := k.clock + 1, accesses := k.accesses + 1 }

/-- The ways of a set with one way replaced. -/
def Cache.setWay (k : Cache) (index way : Nat) (l : Line) : Cache :=
  { k with sets := k.sets.modify index (fun ways => ways.set way (.valid l)) }

/-- The way after a hit on the line of a tag; unchanged when it no longer holds that line. -/
def Way.touch (w : Way) (c : CacheCfg) (tag clock : Nat) (kind : AccessKind) (offset : Nat) : Way :=
  match w with
  | .valid l => if l.tag = tag then .valid (l.touch c clock kind offset) else w
  | .invalid _ => w

/-- A hit in a way (46_cache.md R326, R328, R329). -/
def Cache.onHit (k : Cache) (c : CacheCfg) (addr way : Nat) (kind : AccessKind) : Access :=
  { cache := { k with
      hits := k.hits + 1,
      sets := k.sets.modify (c.indexOf addr) (fun ways =>
        ways.modify way (fun w => w.touch c (c.tagOf addr) k.clock kind (c.offsetOf addr))) },
    hit := true, writeBack := none, fill := none, passDown := passedDown c addr kind, drew := false }

/-- The way a miss fills: the one its victim choice gave, or where the set already holds the block, so that at most one
line of a set carries a tag (46_cache.md R322). -/
def fillWay (tag : Nat) (ways : List Way) (victim : Nat) : Nat := (lookupWay tag ways).getD victim

/-- A miss that allocates, after its victim choice: eviction, fill (46_cache.md R327, R330, R331). `block` is the data of
the block. -/
def Cache.onAllocate (k : Cache) (c : CacheCfg) (addr victim : Nat) (kind : AccessKind) (block : List Byte)
    (drew : Bool) : Access :=
  let ways := k.sets.getD (c.indexOf addr) []
  let way := fillWay (c.tagOf addr) ways victim
  let back := writeBackOf c (c.indexOf addr) (validLine ways way)
  let counted := { k with misses := k.misses + 1, writebacks := k.writebacks + back.toList.length }
  { cache := counted.setWay (c.indexOf addr) way (Line.fresh c (c.tagOf addr) k.clock block kind (c.offsetOf addr)),
    hit := false, writeBack := back, fill := some (c.baseOf addr), passDown := passedDown c addr kind, drew := drew }

/-- A store miss of a write-through cache without write-allocate: no line changes (46_cache.md R330). -/
def Cache.onBypass (k : Cache) (c : CacheCfg) (addr : Nat) (kind : AccessKind) : Access :=
  { cache := { k with misses := k.misses + 1 }, hit := false, writeBack := none, fill := none,
    passDown := passedDown c addr kind, drew := false }

/-- An access whose lookup and victim choice are made on the lines of `seen`, and whose counters, policy update, eviction
and fill are made in `k` (46_cache.md R325; 49_ooo_engine.md R450). -/
def Cache.accessSeeing (k seen : Cache) (c : CacheCfg) (addr : Nat) (kind : AccessKind) (block : List Byte)
    (free : Nat) : Access :=
  let ways := seen.sets.getD (c.indexOf addr) []
  match lookupWay (c.tagOf addr) ways with
  | some way => k.tick.onHit c addr way kind
  | none =>
    if allocates c kind then k.tick.onAllocate c addr (victimWay c ways free) kind block (victimDraws c ways)
    else k.tick.onBypass c addr kind

/-- `access` at one cache (46_cache.md R325): the counters, the lookup, then the rule for a hit or a miss. -/
def Cache.access (k : Cache) (c : CacheCfg) (addr : Nat) (kind : AccessKind) (block : List Byte) (free : Nat) :
    Access :=
  k.accessSeeing k c addr kind block free

/-! The hierarchy (46_cache.md R320, R336, R340). -/

/-- The bytes of the block of an address, from the architectural memory (46_cache.md R335, R350); bytes past MEM_SIZE
are never listed and read 0. -/
def State.blockBytes (s : State) (c : CacheCfg) (addr : Nat) : List Byte :=
  Memory.readBytes s.mem (c.baseOf addr) c.block

/-- The draw counter after an access that may have taken a free value. -/
def State.drawnIf (s : State) (drew : Bool) : State := if drew then s.drawn else s

/-- The L2 of the state replaced. -/
def State.setL2 (s : State) (k : Cache) : State := { s with micro := { s.micro with l2 := some k } }

/-- One access of the L2, when there is one, with its latency; 0 when the next level is Memory (46_cache.md R336, R340). -/
def State.accessL2 (s : State) (addr : Nat) (kind : AccessKind) : Nat × State :=
  match s.cfg.l2, s.micro.l2 with
  | some c, some k =>
    let r := k.access c addr kind (s.blockBytes c addr) (Config.freeNat s.draws)
    (c.latencyOf r.hit, (s.setL2 r.cache).drawnIf r.drew)
  | _, _ => (0, s)

/-- The L2's view of one block or store sent down; it adds no latency (46_cache.md R340). -/
def State.sendDown (s : State) (w : Option (Nat × List Byte)) : State :=
  match w with
  | some (a, bs) => (s.accessL2 a (.write bs)).2
  | none => s

/-- The L2's part in a fill: one read access at the L1 block's base, whose latency is added (46_cache.md R335, R340). -/
def State.fillFrom (s : State) (f : Option Nat) : Nat × State :=
  match f with
  | some a => s.accessL2 a .read
  | none => (0, s)

/-- What the next level sees of an access of an L1, in the order of R327 to R331: the block written back, the fill, the
store passed down. The result is the latency of the fill and the state. -/
def State.nextLevel (s : State) (r : Access) : Nat × State :=
  let filled := ((s.drawnIf r.drew).sendDown r.writeBack).fillFrom r.fill
  (filled.1, filled.2.sendDown r.passDown)

/-- A fetch's access of the L1I: its latency and the state (46_cache.md R320, R325, R340). -/
def State.accessL1I (s : State) (addr : Nat) : Nat × State :=
  let c := s.cfg.l1i
  let r := s.micro.l1i.access c addr .read (s.blockBytes c addr) (Config.freeNat s.draws)
  let next := { s with micro := { s.micro with l1i := r.cache } }.nextLevel r
  (c.latencyOf r.hit + next.1, next.2)

/-- A data access of the L1D: its latency and the state (46_cache.md R320, R325, R340). -/
def State.accessL1D (s : State) (addr : Nat) (kind : AccessKind) : Nat × State :=
  let c := s.cfg.l1d
  let r := s.micro.l1d.access c addr kind (s.blockBytes c addr) (Config.freeNat s.draws)
  let next := { s with micro := { s.micro with l1d := r.cache } }.nextLevel r
  (c.latencyOf r.hit + next.1, next.2)

/-! Accesses of one phase (49_ooo_engine.md R450, 70_reset_and_hazards.md R546): each decides on the state at the start of
the phase, and their writes are applied in turn (notes/assumptions/12.md). -/

/-- One access of the L2 whose lookup and victim choice are those of the L2 of `seen`. -/
def State.accessL2Seeing (s seen : State) (addr : Nat) (kind : AccessKind) : State :=
  match s.cfg.l2, s.micro.l2, seen.micro.l2 with
  | some c, some k, some k' =>
    s.setL2 (k.accessSeeing k' c addr kind (s.blockBytes c addr) (Config.freeNat seen.draws)).cache
  | _, _, _ => s

/-- A block sent down. -/
def State.sendDownSeeing (s seen : State) (w : Option (Nat × List Byte)) : State :=
  match w with
  | some (a, bs) => s.accessL2Seeing seen a (.write bs)
  | none => s

/-- The L2's part in a fill. -/
def State.fillFromSeeing (s seen : State) (f : Option Nat) : State :=
  match f with
  | some a => s.accessL2Seeing seen a .read
  | none => s

/-- A read of the L1D in a phase that began in `start`. Its latency, its lookups and its victims are those of the same
read made alone on the caches of `start`; it takes the next free values of `s`. -/
def State.readL1DFrom (s start : State) (addr : Nat) : Nat × State :=
  let c := s.cfg.l1d
  let block := s.blockBytes c addr
  let free := Config.freeNat s.draws
  let v := start.setDraws s.draws
  let alone := v.micro.l1d.access c addr .read block free
  let looked := { v with micro := { v.micro with l1d := alone.cache } }.drawnIf alone.drew
  let evicted := looked.sendDown alone.writeBack
  let filled := evicted.fillFrom alone.fill
  let r := s.micro.l1d.accessSeeing v.micro.l1d c addr .read block free
  let t := { s with micro := { s.micro with l1d := r.cache } }
  (c.latencyOf alone.hit + filled.1,
    ((t.sendDownSeeing looked r.writeBack).fillFromSeeing evicted r.fill).setDraws filled.2.draws)

end Sys2Proof.Machine
end

