-- ==== Sys2Proof/Machine/Predictor.lean ====
section
/-!
DEFINITION. The branch predictor (47_branch_predictor.md): a table of 2-bit saturating counters and a bounded branch
target buffer with LRU eviction. Timing only.
-/

namespace Sys2Proof.Machine

/-- Predicted taken: WT or ST (47_branch_predictor.md R363). -/
def Counter.isTaken (c : Counter) : Bool :=
  match c with
  | .sn | .wn => false
  | .wt | .st => true

/-- The counter after a resolution (47_branch_predictor.md R364). -/
def Counter.update (c : Counter) (taken : Bool) : Counter :=
  match c, taken with
  | .sn, true => .wn
  | .wn, true => .wt
  | .wt, true => .st
  | .st, true => .st
  | .sn, false => .sn
  | .wn, false => .sn
  | .wt, false => .wn
  | .st, false => .wt

/-- The index of a pc in the direction table (47_branch_predictor.md R361). -/
def counterIndex (entries : Nat) (pc : Word) : Nat := (pc.toNat / 4) % entries

/-- The target the BTB holds for a pc (47_branch_predictor.md R365). A lookup changes nothing. -/
def btbLookup (btb : List (Word × Word)) (pc : Word) : Option Word :=
  (btb.find? (fun e => e.1 == pc)).map Prod.snd

/-- The pair becomes the most recently used one; the least recently used falls out when the BTB is full
(47_branch_predictor.md R367). -/
def btbInsert (entries : Nat) (btb : List (Word × Word)) (pc target : Word) : List (Word × Word) :=
  ((pc, target) :: btb.filter (fun e => e.1 != pc)).take entries

/-- The direction predicted for a pc (47_branch_predictor.md R363). -/
def Predictor.direction (p : Predictor) (entries : Nat) (pc : Word) : Bool :=
  (p.table.getD (counterIndex entries pc) .wn).isTaken

/-- `predict(pc)` (47_branch_predictor.md R366, R369). -/
def Predictor.predict (p : Predictor) (cfg : Config) (pc : Word) : Word :=
  match cfg.predictor with
  | .staticNotTaken => pc + 4#32
  | .twoBit =>
    if p.direction cfg.predEntries pc then (btbLookup p.btb pc).getD (pc + 4#32) else pc + 4#32

/-- The predictor after a control transfer at `pc` resolved (47_branch_predictor.md R364, R367); in static mode neither
table is written (R369). -/
def Predictor.resolve (p : Predictor) (cfg : Config) (pc : Word) (taken : Bool) (target : Word) : Predictor :=
  match cfg.predictor with
  | .staticNotTaken => p
  | .twoBit =>
    { table := p.table.modify (counterIndex cfg.predEntries pc) (fun c => c.update taken),
      btb := if taken then btbInsert cfg.btbEntries p.btb pc target else p.btb }

/-- A control transfer that did not fault resolves: `branches`, the predictor, and `mispredictions` when the next pc that
Fetch chose is not the actual one (47_branch_predictor.md R368; 48_pipeline_inorder.md R408). -/
def Micro.resolve (m : Micro) (cfg : Config) (pc : Word) (taken : Bool) (predNext nextPc : Word) : Micro :=
  { m with
    pred := m.pred.resolve cfg pc taken nextPc,
    branches := m.branches + 1,
    mispredictions := if nextPc = predNext then m.mispredictions else m.mispredictions + 1 }

/-! Derived quantities (10_state.md R34). None while the divisor is 0, where the rule states no quotient. -/

/-- A quotient of counters. -/
def ratio (n : Int) (d : Nat) : Option Rat := if d = 0 then none else some ((n : Rat) / (d : Rat))

/-- The predictor hit rate, `(branches - mispredictions) / branches` (47_branch_predictor.md R368). -/
def Micro.hitRate (m : Micro) : Option Rat := ratio (m.branches - m.mispredictions) m.branches

/-- `CPI = cycles / committed` (48_pipeline_inorder.md R420). -/
def Micro.cpi (m : Micro) : Option Rat := ratio m.cycles m.committed

end Sys2Proof.Machine
end

