-- ==== Sys2Proof/Machine/Compute.lean ====
section
/-!
DEFINITION. What the two timing engines share: an instruction computed on operand values by its own rule
(48_pipeline_inorder.md R387; 49_ooo_engine.md R460), without a trace in the architectural state; and the record of stored
bytes by which a program that fetches what it stored is refused (20_memory.md R79).
-/

namespace Sys2Proof.Machine

/-- What an instruction's rule gives on operand values: the values under its destination names, the next pc, whether
control is transferred, the fault, and the draw counter after it. -/
structure Computed where
  writes : List (RegName × Word)
  nextPc : Word
  taken : Bool
  fault : Option FaultKind
  draws : Nat
  deriving DecidableEq, Repr

/-- The state in which an instruction at `pc` with the given operand values is computed: never a state of the machine. -/
def State.scratch (s : State) (pc : Word) (ops : List (RegName × Word)) : State :=
  ((s.setStatus .running).setPc pc).writeNames ops

/-- `compute, by the instruction's own rule` (48_pipeline_inorder.md R387): run it in the scratch state and read the
result. A computation that raises a fault takes no free value. -/
def State.compute (s : State) (i : Instr) (pc : Word) (ops : List (RegName × Word)) : Computed :=
  let u := s.scratch pc ops
  match exec i u with
  | .next t =>
    match t.status.fault with
    | some k => { writes := [], nextPc := pc, taken := u.takes i, fault := some k, draws := s.draws }
    | none =>
      { writes := (destNames i).map (fun n => (n, t.readName n)), nextPc := t.pc, taken := u.takes i,
        fault := none, draws := t.draws }
  | _ => { writes := [], nextPc := pc + 4#32, taken := false, fault := none, draws := s.draws }

/-- The value a list holds under a name. -/
def lookupName (ws : List (RegName × Word)) (n : RegName) : Option Word :=
  (ws.find? (fun w => w.1 == n)).map Prod.snd

/-- The value a list holds under a name, zero when it holds none. -/
def valueOf (ws : List (RegName × Word)) (n : RegName) : Word := (lookupName ws n).getD 0#32

/-- The effective address of a load or store on its operand values (20_memory.md R65). -/
def addressOf (m : MemOp) (ops : List (RegName × Word)) : Option Nat :=
  effAddr (valueOf ops (.gpr m.base)) m.imm

/-- The bytes a store writes, on its operand values (20_memory.md R67). -/
def storeData (m : MemOp) (ops : List (RegName × Word)) : List Byte :=
  m.width.bytesOf (valueOf ops m.data)

/-! Stored bytes (20_memory.md R79; notes/assumptions/8.md). -/

/-- The word at `pc` has a byte that was stored to. -/
def State.meetsStored (s : State) (pc : Word) : Bool :=
  s.micro.stored.any (fun r => rangesMeet pc.toNat 4 r.1 (r.1 + r.2))

/-- The instruction at `pc` commits on a word it did fetch: refused when an older instruction stored to that word. A
breakpoint mark fetched nothing (48_pipeline_inorder.md R384). -/
def State.staleText (s : State) (pc : Word) (fault : Option FaultKind) : Bool :=
  match fault with
  | some (.breakpoint _) => false
  | _ => s.meetsStored pc

/-- Bytes stored by an instruction of a timing engine: the architectural memory and the record of stored bytes. -/
def State.commitStore (s : State) (a : Nat) (bs : List Byte) : State :=
  { s.storeBytes a bs with micro := { s.micro with stored := (a, bs.length) :: s.micro.stored } }

/-- The range a syscall stores to: the buffer of a completed call 8 (45_system.md R296). -/
def State.callStores (s : State) : List (Nat × Nat) :=
  if s.readGpr regV0 = 8#32 ∧ s.readGpr regA1 ≠ 0#32 then
    [((s.readGpr regA0).toNat, (s.readStringBytes (s.readGpr regA1).toNat).1.length)]
  else []

/-- One more instruction has committed (48_pipeline_inorder.md R420; 49_ooo_engine.md R480). -/
def State.countCommitted (s : State) : State :=
  { s with micro := { s.micro with committed := s.micro.committed + 1 } }

/-- Fetch goes on at an address. -/
def State.restartFetch (s : State) (a : Word) : State :=
  { s with micro := { s.micro with fetchPc := a, fetchStop := false } }

/-- Fetch is suspended (48_pipeline_inorder.md R383; 49_ooo_engine.md R452). -/
def State.stopFetch (s : State) : State := { s with micro := { s.micro with fetchStop := true } }

/-- `fetch_pc <- a`. -/
def State.setFetchPc (s : State) (a : Word) : State := { s with micro := { s.micro with fetchPc := a } }

/-- A syscall at the end of its timing engine: the whole call on the architectural state, then fetch restarts behind it
unless the run has ended; the exit call counts as committed, a call that faults does not (48_pipeline_inorder.md R412;
49_ooo_engine.md R470). -/
def State.commitCall (s : State) (code : BitVec 20) (pc : Word) : Result :=
  let u := s.setPc pc
  match exec (.syscall code) u with
  | .next t =>
    match t.status with
    | .running =>
      let v := { t with micro := { t.micro with stored := u.callStores ++ t.micro.stored } }
      .next (v.countCommitted.restartFetch (pc + 4#32))
    | .exited => .next t.countCommitted
    | _ => .next t
  | r => r

/-- A control transfer without a fault resolves: the predictor and its counters (47_branch_predictor.md R368). -/
def State.resolve (s : State) (pc : Word) (taken : Bool) (predNext nextPc : Word) : State :=
  { s with micro := s.micro.resolve s.cfg pc taken predNext nextPc }

/-- The end of a timing engine's run with no instruction left to execute (48_pipeline_inorder.md R381, 49_ooo_engine.md
R450). The user breakpoint is tested on the architectural `pc` first, in the order of 45_system.md R300: so a breakpoint
at or past `TEXT_END` gives `Paused` in every engine, as 45_system.md R305, 48_pipeline_inorder.md R421 and
49_ooo_engine.md R485 ask (DEDUCED, notes/assumptions/21.md). -/
def State.endOfText (s : State) : State :=
  if s.cfg.breakpoint = some s.pc then s.raise (.breakpoint s.pc) else s.setStatus .endOfText

/-- One more cycle (48_pipeline_inorder.md R381; 49_ooo_engine.md R450). -/
def State.countCycle (s : State) : State :=
  { s with micro := { s.micro with cycles := s.micro.cycles + 1 } }

end Sys2Proof.Machine
end

