-- ==== Sys2Proof/Machine/OutOfOrder.lean ====
section
/-!
DEFINITION. One cycle of the out-of-order engine (49_ooo_engine.md): commit, writeback, execute, issue, dispatch, fetch,
squash (R450). Inside the execute phase the operations are taken oldest first (notes/assumptions/12.md).
-/

namespace Sys2Proof.Machine

/-- The engine replaced. -/
def State.setOoo (s : State) (o : Ooo) : State := { s with micro := { s.micro with ooo := o } }

/-! Functional-unit classes (49_ooo_engine.md R435). -/

/-- The five classes. -/
inductive Fu where
  | intAlu
  | intMul
  | loadStore
  | fpAdd
  | fpMul
  deriving DecidableEq, Repr

/-- All classes. -/
def fuList : List Fu := [.intAlu, .intMul, .loadStore, .fpAdd, .fpMul]

/-- The class of an instruction (49_ooo_engine.md R435). -/
def fuOf (i : Instr) : Fu :=
  match i with
  | .mult _ _ | .multu _ _ | .div _ _ | .divu _ _ => .intMul
  | .lw _ _ _ | .lh _ _ _ | .lhu _ _ _ | .lb _ _ _ | .lbu _ _ _ | .lwc1 _ _ _ | .sw _ _ _ | .sh _ _ _ | .sb _ _ _
  | .swc1 _ _ _ => .loadStore
  | .addS _ _ _ | .subS _ _ _ | .absS _ _ | .negS _ _ | .movS _ _ | .cvtSW _ _ | .cvtWS _ _ | .cEqS _ _ | .cLtS _ _
  | .cLeS _ _ => .fpAdd
  | .mulS _ _ _ | .divS _ _ _ => .fpMul
  | _ => .intAlu

/-- The parameters of a class. -/
def fuCfg (c : Config) (f : Fu) : FuCfg :=
  match f with
  | .intAlu => c.intAlu
  | .intMul => c.intMul
  | .loadStore => c.loadStore
  | .fpAdd => c.fpAdd
  | .fpMul => c.fpMul

/-- The stations and operations of a class. -/
def Ooo.fu (o : Ooo) (f : Fu) : FuClass :=
  match f with
  | .intAlu => o.intAlu
  | .intMul => o.intMul
  | .loadStore => o.loadStore
  | .fpAdd => o.fpAdd
  | .fpMul => o.fpMul

/-- The stations and operations of a class replaced. -/
def Ooo.setFu (o : Ooo) (f : Fu) (c : FuClass) : Ooo :=
  match f with
  | .intAlu => { o with intAlu := c }
  | .intMul => { o with intMul := c }
  | .loadStore => { o with loadStore := c }
  | .fpAdd => { o with fpAdd := c }
  | .fpMul => { o with fpMul := c }

/-- Every class changed in one way. -/
def Ooo.mapFu (o : Ooo) (g : FuClass → FuClass) : Ooo :=
  { o with
    intAlu := g o.intAlu, intMul := g o.intMul, loadStore := g o.loadStore, fpAdd := g o.fpAdd, fpMul := g o.fpMul }

/-! The reorder buffer (49_ooo_engine.md R431). -/

/-- The entry of a rob id. -/
def Ooo.entry (o : Ooo) (id : Nat) : Option RobEntry := o.rob.getD id none

/-- The entry of a rob id replaced. -/
def Ooo.setEntry (o : Ooo) (id : Nat) (e : Option RobEntry) : Ooo := { o with rob := o.rob.set id e }

/-- The entry of a rob id changed. -/
def Ooo.mapEntry (o : Ooo) (id : Nat) (g : RobEntry → RobEntry) : Ooo :=
  { o with rob := o.rob.modify id (Option.map g) }

/-- The rob ids in the buffer, oldest first. -/
def Ooo.ids (o : Ooo) (cap : Nat) : List Nat := (List.range o.count).map (fun k => (o.head + k) % cap)

/-- The age of an entry, `(id - head) mod C`. -/
def Ooo.age (o : Ooo) (cap id : Nat) : Nat := (id + cap - o.head) % cap

/-- The rob ids older than one. -/
def Ooo.older (o : Ooo) (cap id : Nat) : List Nat := (o.ids cap).take (o.age cap id)

/-- The entry of a rob id is a store. -/
def Ooo.isStoreEntry (o : Ooo) (id : Nat) : Bool :=
  match o.entry id with
  | some e => (e.instr.map isStore).getD false
  | none => false

/-! Renaming (49_ooo_engine.md R433). -/

/-- The index of HILO. -/
def hiloIndex : Nat := 64
/-- The index of FCC. -/
def fccIndex : Nat := 65

/-- The rename index of a name. -/
def renameIndex (n : RegName) : Nat :=
  match n with
  | .gpr r => r.toNat
  | .fpr r => 32 + r.toNat
  | .hi | .lo => hiloIndex
  | .fcc => fccIndex

/-- The source indices in operand order: `mthi` and `mtlo` also read HILO (49_ooo_engine.md R433, R434). -/
def renamedSources (i : Instr) : List Nat :=
  match i with
  | .mthi rs | .mtlo rs => [rs.toNat, hiloIndex]
  | _ => (sourceOperands i).map renameIndex

/-- The destination index, `G[0]` among them. -/
def renamedDest (i : Instr) : Option Nat := (destOperands i).head?.map renameIndex

/-- The names of an index with their values in a 64-bit value: HI in bits 63:32 of HILO. -/
def namesOf (n : Nat) (v : BitVec 64) : List (RegName × Word) :=
  if n < 32 then [(.gpr (BitVec.ofNat 5 n), v.extractLsb' 0 32)]
  else if n < 64 then [(.fpr (BitVec.ofNat 5 (n - 32)), v.extractLsb' 0 32)]
  else if n = hiloIndex then [(.hi, v.extractLsb' 32 32), (.lo, v.extractLsb' 0 32)]
  else [(.fcc, v.extractLsb' 0 32)]

/-- The 64-bit value of an index from the values of its names. -/
def valueAt (n : Nat) (value : RegName → Word) : BitVec 64 :=
  if n < 32 then (value (.gpr (BitVec.ofNat 5 n))).zeroExtend 64
  else if n < 64 then (value (.fpr (BitVec.ofNat 5 (n - 32)))).zeroExtend 64
  else if n = hiloIndex then (value .hi ++ value .lo : BitVec 64)
  else (value .fcc).zeroExtend 64

/-- The architectural value of an index. -/
def State.archValue (s : State) (n : Nat) : BitVec 64 := valueAt n s.readName

/-- An alias entry set. -/
def Ooo.setAlias (o : Ooo) (n : Nat) (id : Option Nat) : Ooo := { o with rat := o.rat.set n id }

/-- The alias of a destination that an instruction now writes; entry 0 stays none. -/
def Ooo.rename (o : Ooo) (dest : Option Nat) (id : Nat) : Ooo :=
  match dest with
  | some n => if n = 0 then o else o.setAlias n (some id)
  | none => o

/-! Commit (49_ooo_engine.md R470, R472). -/

/-- The alias of the head's destination is cleared if it still points to the head; the head is freed. -/
def Ooo.freeHead (o : Ooo) (cap : Nat) (h : RobEntry) : Ooo :=
  let o' :=
    match h.dest with
    | some n => if o.rat.getD n none = some o.head then o.setAlias n none else o
    | none => o
  { o'.setEntry o.head none with head := (o.head + 1) % cap, count := o.count - 1 }

/-- The bookkeeping of a committed head. -/
def State.freeHead (s : State) (h : RobEntry) : State :=
  s.setOoo (s.micro.ooo.freeHead s.cfg.robCapacity h)

/-- A store commits: the write access of the L1D, then the memory (49_ooo_engine.md R463, R470). -/
def State.commitStoreEntry (s : State) (a width : Nat) (v : BitVec 64) : State :=
  let bs := (bytesOfWord (v.extractLsb' 0 32)).take width
  (s.accessL1D a (.write bs)).2.commitStore a bs

/-- The architectural write of a committed entry. -/
def State.commitDest (s : State) (h : RobEntry) : State :=
  match h.dest with
  | some n => s.writeNames (namesOf n h.value)
  | none => s

/-- A syscall at the head takes its whole effect; the entry is freed when the call commits, the exit call among them, and
stays when the call faults. -/
def State.commitSyscall (s : State) (h : RobEntry) (code : BitVec 20) : Result :=
  match s.commitCall code h.pc with
  | .next t => if t.status.fault.isNone then .next (t.freeHead h) else .next t
  | r => r

/-- The head commits: a fault or a break ends the run at its pc; a syscall takes its whole effect on the architectural
state; a store writes memory; any other entry writes its destination. -/
def State.commitHead (s : State) (h : RobEntry) : Result :=
  match h.exception, h.instr with
  | some k, _ => .next ((s.setPc h.pc).raise k)
  | none, some (.syscall code) => s.commitSyscall h code
  | none, some (.brk _) => .next ((s.setPc h.pc).raise (.breakpoint h.pc))
  | none, some i =>
    if isStore i then
      match h.storeAddr with
      | some a =>
        .next ((((s.commitStoreEntry a h.storeWidth h.value).freeHead h).setPc h.nextPc).countCommitted)
      | none => .fault .brokenEngine
    else .next ((((s.commitDest h).freeHead h).setPc h.nextPc).countCommitted)
  | none, none => .fault .brokenEngine

/-- The head of a buffer that is not empty, when it is ready. -/
def State.commitOne (s : State) : Result :=
  match s.micro.ooo.entry s.micro.ooo.head with
  | none => .fault .brokenEngine
  | some h =>
    if h.ready then (if s.staleText h.pc h.exception then .refused .storedText else s.commitHead h)
    else .next s

/-- The head may commit: the run goes on, the buffer is not empty and its head is ready (or missing). -/
def State.canCommit (s : State) : Bool :=
  match s.status with
  | .running => s.micro.ooo.count != 0 && ((s.micro.ooo.entry s.micro.ooo.head).map (fun h => h.ready)).getD true
  | _ => false

/-- The commit phase: up to `n` heads, stopping when the run ends. -/
def State.commitPhase (n : Nat) (s : State) : Result :=
  match n with
  | 0 => .next s
  | k + 1 =>
    if s.canCommit then
      match s.commitOne with
      | .next t => State.commitPhase k t
      | r => r
    else .next s

/-! Writeback (49_ooo_engine.md R468). -/

/-- The executing operation of an entry, with its class. -/
def Ooo.execOf (o : Ooo) (id : Nat) : Option (Fu × Exec) :=
  fuList.findSome? (fun f => ((o.fu f).exec.find? (fun x => x.robId == id)).map (fun x => (f, x)))

/-- The entry's operation has its result. -/
def Ooo.isComplete (o : Ooo) (id : Nat) : Bool :=
  match o.execOf id with
  | some (_, x) => x.result.isSome
  | none => false

/-- A station that waits for the entry takes its value. -/
def Station.capture (t : Station) (id : Nat) (v : BitVec 64) : Station :=
  { t with
    vj := if t.qj = some id then v else t.vj, qj := if t.qj = some id then none else t.qj,
    vk := if t.qk = some id then v else t.vk, qk := if t.qk = some id then none else t.qk }

/-- Every waiting station of a class takes the value. -/
def FuClass.capture (c : FuClass) (id : Nat) (v : BitVec 64) : FuClass :=
  { c with stations := c.stations.map (Option.map (fun t => t.capture id v)) }

/-- The station and the operation of an entry are freed. -/
def FuClass.release (c : FuClass) (id : Nat) : FuClass :=
  { stations := c.stations.map (fun t => if t.map (fun u => u.dest) = some id then none else t),
    exec := c.exec.filter (fun x => x.robId != id) }

/-- The width of the store that an instruction makes; 0 for every other (49_ooo_engine.md R431). -/
def widthStored (i : Instr) : Nat :=
  match memOp i with
  | some m => if m.store then m.width.bytes else 0
  | none => 0

/-- The entry after its broadcast (49_ooo_engine.md R468). A store without an exception also takes the address of its
station and its width (R463). -/
def RobEntry.complete (e : RobEntry) (r : ExecResult) (address : Option Nat) : RobEntry :=
  let done := { e with value := r.value, exception := r.exception, ready := true }
  match r.exception, e.instr with
  | none, some i => if isStore i then { done with storeAddr := address, storeWidth := widthStored i } else done
  | _, _ => done

/-- The effective address a station holds. -/
def Ooo.stationAddress (o : Ooo) (f : Fu) (x : Exec) : Option Nat :=
  ((o.fu f).stations.getD x.station none).bind (fun t => t.address)

/-- One broadcast on the common data bus. -/
def Ooo.broadcast (o : Ooo) (id : Nat) : Ooo :=
  match o.execOf id with
  | some (f, x) =>
    match x.result with
    | some r =>
      ((o.mapEntry id (fun e => e.complete r (o.stationAddress f x))).mapFu (fun c => c.capture id r.value)).mapFu
        (fun c => c.release id)
    | none => o
  | none => o

/-- The writeback phase: the oldest completed operations, up to `CDB_WIDTH`. -/
def Ooo.writeback (o : Ooo) (cap width : Nat) : Ooo :=
  (((o.ids cap).filter o.isComplete).take width).foldl Ooo.broadcast o

/-! Execute (49_ooo_engine.md R460 to R466). -/

/-- The operation of an entry replaced in its class. -/
def Ooo.setExec (o : Ooo) (f : Fu) (x : Exec) : Ooo :=
  o.setFu f { o.fu f with exec := (o.fu f).exec.map (fun y => if y.robId = x.robId then x else y) }

/-- The operand values of a station, under their names. -/
def Station.ops (t : Station) : List (RegName × Word) :=
  match renamedSources t.op with
  | n :: m :: _ => namesOf n t.vj ++ namesOf m t.vk
  | [n] => namesOf n t.vj
  | [] => []

/-- An operation completes with a value and an exception. -/
def Exec.done (x : Exec) (v : BitVec 64) (k : Option FaultKind) : Exec :=
  { x with remaining := 0, value := v, result := some { value := v, exception := k } }

/-- The value of a computation on the bus: that of the destination's index; a half of HILO that is not written keeps the
operand's. -/
def resultValue (i : Instr) (writes ops : List (RegName × Word)) : BitVec 64 :=
  match renamedDest i with
  | some n => valueAt n (fun m => (lookupName writes m).getD (valueOf ops m))
  | none => 0#64

/-- The value an operation puts on the bus by its own rule (49_ooo_engine.md R460): also when its destination is
register 0, where the architectural write is dropped at commit (R470). -/
def State.busValue (s : State) (t : Station) : BitVec 64 :=
  resultValue (visibleDest t.op) (s.compute (visibleDest t.op) t.pc t.ops).writes t.ops

/-- A control transfer without a fault resolves: its next pc enters its entry, the predictor learns and a misprediction
asks for a squash, the oldest one winning (49_ooo_engine.md R465). -/
def State.resolveEntry (s : State) (id : Nat) (pc : Word) (c : Computed) : State :=
  match s.micro.ooo.entry id with
  | some e =>
    let t := s.resolve pc c.taken e.predNext c.nextPc
    let o := t.micro.ooo.mapEntry id (fun e => { e with nextPc := c.nextPc })
    if c.nextPc = e.predNext then t.setOoo o
    else t.setOoo { o with squashFrom := o.squashFrom.orElse (fun _ => some id) }
  | none => s

/-- An operation completes with an exception: it broadcasts too, and its value is unspecified, a free value of two draws
(49_ooo_engine.md R468; notes/assumptions/4.md). -/
def State.completeFaulted (s : State) (f : Fu) (x : Exec) (k : FaultKind) : State :=
  s.drawn.drawn.setOoo (s.micro.ooo.setExec f (x.done (s.draw ++ s.drawn.draw) (some k)))

/-- An operation that is neither load nor store completes. A control transfer that raises InvalidBranchTarget has no next
pc, and its entry keeps the `pc + 4` of its dispatch (DESIGN CHOICE, notes/assumptions/22.md). -/
def State.completeValue (s : State) (f : Fu) (x : Exec) (t : Station) : State :=
  if isSerialising t.op then s.setOoo (s.micro.ooo.setExec f (x.done 0#64 none))
  else
    let c := s.compute t.op t.pc t.ops
    match c.fault with
    | some k => s.completeFaulted f x k
    | none =>
      let u := (s.setDraws c.draws).setOoo
        (s.micro.ooo.setExec f (x.done (s.busValue t) none))
      if isControl t.op then u.resolveEntry x.robId t.pc c else u

/-- The address of a load or store enters its station. -/
def Ooo.setAddress (o : Ooo) (f : Fu) (station : Nat) (a : Nat) : Ooo :=
  o.setFu f { o.fu f with
    stations := (o.fu f).stations.modify station (Option.map (fun t => { t with address := some a })) }

/-- A load makes its access (49_ooo_engine.md R461), in a phase that began in `start`: its value is that of the
architectural memory, which the phase does not change, and it completes `L` execute phases later. -/
def State.accessLoad (s start : State) (f : Fu) (x : Exec) (t : Station) (a : Nat) : State :=
  let r := s.readL1DFrom start a
  let y :=
    if r.1 = 0 then x.done (s.busValue t) none
    else { x with phase := .cache, remaining := r.1, value := s.busValue t }
  r.2.setOoo (r.2.micro.ooo.setExec f y)

/-- A load waits while an older store is in the buffer (49_ooo_engine.md R462). -/
def State.tryLoad (s start : State) (f : Fu) (x : Exec) (t : Station) (a : Nat) : State :=
  let o := s.micro.ooo
  if (o.older s.cfg.robCapacity x.robId).any o.isStoreEntry then
    s.setOoo (o.setExec f { x with phase := .waitStores, remaining := 0 })
  else s.accessLoad start f x t a

/-- The address of a load or store is known, and enters its station (49_ooo_engine.md R434); then its checks; a store is
then complete with its data (R461, R463). An address that overflows is none. -/
def State.completeAddress (s start : State) (f : Fu) (x : Exec) (t : Station) (m : MemOp) : State :=
  match addressOf m t.ops with
  | none => s.completeFaulted f x .addressOverflow
  | some a =>
    let u := s.setOoo (s.micro.ooo.setAddress f x.station a)
    match (s.compute t.op t.pc t.ops).fault with
    | some k => u.completeFaulted f x k
    | none =>
      if m.store then u.setOoo (u.micro.ooo.setExec f (x.done ((valueOf t.ops m.data).zeroExtend 64) none))
      else u.tryLoad start f x t a

/-- An operation whose count has reached 0, by its phase. -/
def State.completeExec (s start : State) (f : Fu) (x : Exec) (t : Station) : State :=
  match memOp t.op, x.phase with
  | none, _ => s.completeValue f x t
  | some m, .ea => s.completeAddress start f x t m
  | some _, .waitStores => s.tryLoad start f x t (t.address.getD 0)
  | some _, .cache => s.setOoo (s.micro.ooo.setExec f (x.done x.value none))

/-- One execute phase of one operation without a result. -/
def State.advanceExec (s start : State) (f : Fu) (x : Exec) (t : Station) : State :=
  if x.remaining ≤ 1 then s.completeExec start f { x with remaining := 0 } t
  else s.setOoo (s.micro.ooo.setExec f { x with remaining := x.remaining - 1 })

/-- One execute phase of the entry's operation, if it is executing without a result. -/
def State.executeEntry (start s : State) (id : Nat) : State :=
  match s.micro.ooo.execOf id with
  | some (f, x) =>
    match x.result, (s.micro.ooo.fu f).stations.getD x.station none with
    | none, some t => s.advanceExec start f x t
    | _, _ => s
  | none => s

/-- The execute phase: every operation decides on the state at its start (49_ooo_engine.md R450, 70_reset_and_hazards.md
R546), and their writes are applied in turn, the oldest operation's first. Of the reorder buffer and the stations each
reads only what the phase does not change or its own; a load's lookups, victims and latency are those of the caches of
the start; the resolutions' updates of the predictor and the counters are applied one on another (R465;
47_branch_predictor.md R364, R365; notes/assumptions/12.md). -/
def State.executePhase (s : State) : State :=
  (s.micro.ooo.ids s.cfg.robCapacity).foldl s.executeEntry s

/-! Issue (49_ooo_engine.md R458). -/

/-- The station of a class that holds the entry. -/
def FuClass.stationOf (c : FuClass) (id : Nat) : Option Nat :=
  c.stations.findIdx? (fun t => t.map (fun u => u.dest) == some id)

/-- The entry's station is ready and not yet issued. -/
def FuClass.eligible (c : FuClass) (id : Nat) : Bool :=
  match c.stationOf id with
  | some k =>
    match c.stations.getD k none with
    | some t => t.qj.isNone && t.qk.isNone && c.exec.all (fun x => x.robId != id)
    | none => false
  | none => false

/-- The entry's station starts executing. -/
def FuClass.issue (latency : Nat) (c : FuClass) (id : Nat) : FuClass :=
  match c.stationOf id with
  | some k =>
    { c with
      exec := c.exec ++ [{ station := k, robId := id, remaining := latency, phase := .ea, value := 0#64,
                           result := none }] }
  | none => c

/-- The oldest eligible stations of a class, up to its issue width, start executing. -/
def FuClass.issueOldest (c : FuClass) (p : FuCfg) (ids : List Nat) : FuClass :=
  ((ids.filter c.eligible).take p.issueWidth).foldl (FuClass.issue p.latency) c

/-- The issue phase. -/
def Ooo.issuePhase (o : Ooo) (c : Config) : Ooo :=
  let ids := o.ids c.robCapacity
  { o with
    intAlu := o.intAlu.issueOldest c.intAlu ids, intMul := o.intMul.issueOldest c.intMul ids,
    loadStore := o.loadStore.issueOldest c.loadStore ids, fpAdd := o.fpAdd.issueOldest c.fpAdd ids,
    fpMul := o.fpMul.issueOldest c.fpMul ids }

/-! Dispatch (49_ooo_engine.md R454 to R457). -/

/-- An entry as dispatch makes it. -/
def RobEntry.fresh (r : FetchRec) (i : Option Instr) (k : Option FaultKind) : RobEntry :=
  { instr := i, pc := r.pc, dest := i.bind renamedDest, value := 0#64, ready := k.isSome, exception := k,
    predNext := r.predNext, nextPc := r.pc + 4#32, storeAddr := none, storeWidth := 0 }

/-- The entry goes to the tail. -/
def Ooo.allocate (o : Ooo) (cap : Nat) (e : RobEntry) : Ooo :=
  { o.setEntry o.tail (some e) with tail := (o.tail + 1) % cap, count := o.count + 1 }

/-- A source operand: its value, or the entry that will produce it (49_ooo_engine.md R455). -/
def State.operand (s : State) (n : Nat) : BitVec 64 × Option Nat :=
  match s.micro.ooo.rat.getD n none with
  | none => (s.archValue n, none)
  | some p =>
    match s.micro.ooo.entry p with
    | some e => if e.ready then (e.value, none) else (0#64, some p)
    | none => (0#64, some p)

/-- An operand that may be absent. -/
def State.operandAt (s : State) (n : Option Nat) : BitVec 64 × Option Nat :=
  match n with
  | some n => s.operand n
  | none => (0#64, none)

/-- The station of an instruction that takes entry `id`. -/
def State.station (s : State) (i : Instr) (pc : Word) (id : Nat) : Station :=
  let j := s.operandAt (renamedSources i)[0]?
  let k := s.operandAt (renamedSources i)[1]?
  { op := i, pc := pc, vj := j.1, vk := k.1, qj := j.2, qk := k.2, dest := id, address := none }

/-- The fetch buffer is emptied and Fetch stops. -/
def State.endFetch (s : State) : State := (s.setOoo { s.micro.ooo with fq := [] }).stopFetch

/-- A carrier of a fault: ready at once, no station (49_ooo_engine.md R456). -/
def State.dispatchFault (s : State) (r : FetchRec) (k : FaultKind) : State :=
  (s.setOoo (s.micro.ooo.allocate s.cfg.robCapacity (RobEntry.fresh r none (some k)))).endFetch

/-- An instruction takes an entry, a station and its operands, and then the alias of its destination. -/
def State.dispatchInstr (s : State) (r : FetchRec) (i : Instr) (k : Nat) : State :=
  let o := s.micro.ooo
  let f := fuOf i
  let t := s.station i r.pc o.tail
  let o1 := o.setFu f { o.fu f with stations := (o.fu f).stations.set k (some t) }
  let o2 := (o1.allocate s.cfg.robCapacity (RobEntry.fresh r (some i) none)).rename (renamedDest i) o.tail
  let u := s.setOoo { o2 with fq := o.fq.tail }
  if isSerialising i then u.endFetch else u

/-- One record of the fetch buffer is dispatched, if nothing stalls it; none when it stays (49_ooo_engine.md R457). Of the
free stations of the class, of which R454 takes "a free station", the lowest-numbered one is taken (DESIGN CHOICE,
notes/assumptions/12.md). -/
def State.dispatchOne (s : State) : Option State :=
  let o := s.micro.ooo
  match o.fq with
  | [] => none
  | r :: _ =>
    if o.fqWait ≠ 0 ∨ s.cfg.robCapacity ≤ o.count then none
    else
      match r.content with
      | .error k => some (s.dispatchFault r k)
      | .ok w =>
        match decode w with
        | .error _ => some (s.dispatchFault r (.invalidInstruction w))
        | .ok i => ((o.fu (fuOf i)).stations.findIdx? Option.isNone).map (s.dispatchInstr r i)

/-- The dispatch phase: up to `n` records, one after the other. -/
def State.dispatchPhase (n : Nat) (s : State) : State :=
  match n with
  | 0 => s
  | k + 1 =>
    match s.dispatchOne with
    | some t => State.dispatchPhase k t
    | none => s

/-! Fetch (49_ooo_engine.md R452). -/

/-- A record enters the fetch buffer; `longest` is the largest latency of the group so far. -/
def State.pushFetch (s : State) (r : FetchRec) (longest : Nat) : State :=
  s.setOoo { s.micro.ooo with fq := s.micro.ooo.fq ++ [r], fqWait := longest - 1 }

/-- A record that carries a fault; Fetch stops. The rule gives it no `pred_next`, which is `pc + 4`, and no latency: in a
group that made no L1I access there is no largest `L`, and `fq_wait` is then 0 (DESIGN CHOICE,
notes/assumptions/22.md). -/
def State.pushFault (s : State) (a : Word) (k : FaultKind) (longest : Nat) : State :=
  (s.pushFetch { pc := a, content := .error k, predNext := a + 4#32 } longest).stopFetch

/-- Up to `n` fetches along the predicted path. A group with no record, `fetch_pc` being at or past `TEXT_END`, has no
largest `L` either, and `fq_wait` stays 0 (DESIGN CHOICE, notes/assumptions/22.md). -/
def State.fetchGroup (n longest : Nat) (s : State) : Result :=
  match n with
  | 0 => .next s
  | k + 1 =>
    let a := s.micro.fetchPc
    if s.cfg.textEnd ≤ a.toNat then .next s
    else if s.cfg.breakpoint = some a then .next (s.pushFault a (.breakpoint a) longest)
    else
      match s.fetch a.toNat with
      | .error e => .next (s.pushFault a e longest)
      | .ok w =>
        if s.meetsStored a then .refused .storedText
        else
          let r := s.accessL1I a.toNat
          let p := s.micro.pred.predict s.cfg a
          State.fetchGroup k (max longest r.1)
            ((r.2.pushFetch { pc := a, content := .ok w, predNext := p } (max longest r.1)).setFetchPc p)

/-- The fetch phase. -/
def State.fetchPhase (s : State) : Result :=
  if s.micro.ooo.fqWait ≠ 0 then .next (s.setOoo { s.micro.ooo with fqWait := s.micro.ooo.fqWait - 1 })
  else if s.micro.ooo.fq = [] ∧ s.micro.fetchStop = false then s.fetchGroup s.cfg.dispatchWidth 0
  else .next s

/-! Squash (49_ooo_engine.md R474). -/

/-- The alias table rebuilt from the surviving entries, oldest first. -/
def Ooo.rebuildAlias (o : Ooo) (ids : List Nat) : Ooo :=
  ids.foldl (fun o id => o.rename ((o.entry id).bind (fun e => e.dest)) id)
    { o with rat := List.replicate 66 none }

/-- Everything younger than entry `b` is removed. -/
def Ooo.squash (o : Ooo) (cap b : Nat) : Ooo :=
  let keep := (o.ids cap).take (o.age cap b + 1)
  let gone := (o.ids cap).drop (o.age cap b + 1)
  let cut := gone.foldl (fun o id => (o.setEntry id none).mapFu (fun c => c.release id)) o
  { cut.rebuildAlias keep with
    tail := (b + 1) % cap, count := keep.length, fq := [], fqWait := 0, squashFrom := none }

/-- The end of the cycle: the squash a misprediction asked for, and the redirection of Fetch. -/
def State.squashPhase (s : State) : State :=
  match s.micro.ooo.squashFrom with
  | none => s
  | some b =>
    let o := s.micro.ooo.squash s.cfg.robCapacity b
    (s.setOoo o).restartFetch (((o.entry b).map (fun e => e.nextPc)).getD s.micro.fetchPc)

/-! The cycle (49_ooo_engine.md R450). -/

/-- The phases after commit. -/
def State.laterPhases (s : State) : Result :=
  let w := s.setOoo (s.micro.ooo.writeback s.cfg.robCapacity s.cfg.cdbWidth)
  let x := w.executePhase
  let i := x.setOoo (x.micro.ooo.issuePhase x.cfg)
  match (State.dispatchPhase i.cfg.dispatchWidth i).fetchPhase with
  | .next t => .next t.squashPhase
  | r => r

/-- The phases of one cycle; the run may end in commit. -/
def State.runOooCycle (s : State) : Result :=
  match State.commitPhase s.cfg.commitWidth s with
  | .next t => if t.status = .running then t.laterPhases else .next t
  | r => r

/-- One cycle of the out-of-order engine, its end-of-run tests first. -/
def stepOutOfOrder (s : State) : Result :=
  if s.status ≠ .running then .next s
  else if s.cfg.maxSteps ≤ s.micro.cycles then .next (s.setStatus .budgetExhausted)
  else if s.micro.ooo.count = 0 ∧ s.micro.ooo.fq = []
      ∧ (s.micro.fetchStop ∨ s.cfg.textEnd ≤ s.micro.fetchPc.toNat) then
    .next s.endOfText
  else s.countCycle.runOooCycle

end Sys2Proof.Machine
end

