-- ==== Sys2Proof/Machine/Pipeline.lean ====
section
/-!
DEFINITION. One cycle of the in-order pipeline (48_pipeline_inorder.md). A stage squashed in a cycle is emptied at once, so
that it does not act in that cycle; stages act oldest first and then all advance (R381, R390).
-/

namespace Sys2Proof.Machine

/-- The pipeline replaced. -/
def State.setPipe (s : State) (p : Pipe) : State := { s with micro := { s.micro with pipe := p } }

/-- One more structural stall cycle (48_pipeline_inorder.md R405, R412). -/
def State.stallStructural (s : State) : State :=
  s.setPipe { s.micro.pipe with stallStructural := s.micro.pipe.stallStructural + 1 }

/-- No stage holds an instruction. -/
def Pipe.isEmpty (p : Pipe) : Bool :=
  p.ifs.isNone && p.ids.isNone && p.exs.isNone && p.mems.isNone && p.wbs.isNone

/-- `for each stage holding an instruction: occupancy[stage] += 1` (48_pipeline_inorder.md R381). -/
def Pipe.countOccupancy (p : Pipe) : Pipe :=
  { p with
    occIf := p.occIf + p.ifs.toList.length, occId := p.occId + p.ids.toList.length,
    occEx := p.occEx + p.exs.toList.length, occMem := p.occMem + p.mems.toList.length,
    occWb := p.occWb + p.wbs.toList.length }

/-! WB (48_pipeline_inorder.md R389). -/

/-- The store a slot makes when it leaves WB. -/
def Slot.store (w : Slot) : Option (Nat × List Byte) :=
  match w.instr.bind memOp, w.address with
  | some m, some a => if m.store then some (a, storeData m w.ops) else none
  | _, _ => none

/-- The bytes of a slot's store, when it makes one. -/
def State.applyStore (s : State) (w : Option (Nat × List Byte)) : State :=
  match w with
  | some (a, bs) => s.commitStore a bs
  | none => s

/-- A slot leaves WB: its fault ends the run; a syscall or break takes its whole effect (48_pipeline_inorder.md R412); any
other instruction writes what it computed. -/
def State.retireSlot (s : State) (w : Slot) : Result :=
  match w.fault, w.instr with
  | some k, _ => .next ((s.setPc w.pc).raise k)
  | none, some (.syscall code) => s.commitCall code w.pc
  | none, some (.brk _) => .next ((s.setPc w.pc).raise (.breakpoint w.pc))
  | none, _ => .next ((((s.writeNames w.result).applyStore w.store).setPc w.nextPc).countCommitted)

/-- The WB phase. -/
def State.wbPhase (s : State) : Result :=
  match s.micro.pipe.wbs with
  | none => .next s
  | some w =>
    if s.staleText w.pc w.fault then .refused .storedText
    else (s.setPipe { s.micro.pipe with wbs := none }).retireSlot w

/-! MEM (48_pipeline_inorder.md R388, R405). -/

/-- What an access of a load or store does to the L1D. -/
def accessKindOf (m : MemOp) (ops : List (RegName × Word)) : AccessKind :=
  if m.store then .write (storeData m ops) else .read

/-- A fault recorded in MEM: EX, ID and IF are squashed and Fetch stops (48_pipeline_inorder.md R411). -/
def State.faultInMem (s : State) (m : Slot) (k : FaultKind) : State :=
  (s.setPipe { s.micro.pipe with
    mems := some { m with fault := some k }, exs := none, ids := none, ifs := none }).stopFetch

/-- The first MEM cycle of a load or store: its checks, then the access of the L1D, and a load's value. -/
def State.beginAccess (s : State) (m : Slot) (i : Instr) (op : MemOp) : State :=
  let c := s.compute i m.pc m.ops
  match c.fault with
  | some k => s.faultInMem m k
  | none =>
    let r := s.accessL1D (m.address.getD 0) (accessKindOf op m.ops)
    r.2.setPipe { r.2.micro.pipe with
      mems := some { m with accessed := true, wait := r.1 - 1, result := c.writes } }

/-- A later MEM cycle of a load or store. -/
def State.continueAccess (s : State) (m : Slot) : State :=
  s.setPipe { s.micro.pipe with mems := some { m with wait := m.wait - 1 } }

/-- The load or store in MEM has advanced by one cycle of its access. -/
def State.advanceAccess (s : State) : State :=
  match s.micro.pipe.mems with
  | none => s
  | some m =>
    match m.fault, m.instr with
    | none, some i =>
      match memOp i with
      | some op => if m.accessed then s.continueAccess m else s.beginAccess m i op
      | none => s
    | _, _ => s

/-- `hold_mem`: the access in MEM still takes cycles. -/
def Pipe.holdMem (p : Pipe) : Bool :=
  match p.mems with
  | some m => m.wait != 0
  | none => false

/-- The MEM phase. -/
def State.memPhase (s : State) : State :=
  if s.advanceAccess.micro.pipe.holdMem then s.advanceAccess.stallStructural else s.advanceAccess

/-! EX (48_pipeline_inorder.md R387, R397, R408). -/

/-- The value of a name that a stage's instruction will write, when it has it. -/
def stageResult (w : Option Slot) (n : RegName) : Option Word :=
  match w with
  | some w => if w.fault.isNone then lookupName w.result n else none
  | none => none

/-- The operand of EX: with forwarding the result in MEM, else the result in WB this cycle, else the value read in ID
(48_pipeline_inorder.md R397). -/
def forward (on : Bool) (mem wb : Option Slot) (op : RegName × Word) : RegName × Word :=
  if on then (op.1, ((stageResult mem op.1).orElse (fun _ => stageResult wb op.1)).getD op.2) else op

/-- A fault recorded in EX: ID and IF are squashed and Fetch stops. -/
def State.faultInEx (s : State) (e : Slot) (k : FaultKind) : State :=
  (s.setPipe { s.micro.pipe with
    exs := some { e with fault := some k, executed := true }, ids := none, ifs := none }).stopFetch

/-- EX of a load or store: its effective address. -/
def State.executeAddress (s : State) (e : Slot) (op : MemOp) : State :=
  match addressOf op e.ops with
  | none => s.faultInEx e .addressOverflow
  | some a =>
    s.setPipe { s.micro.pipe with
      exs := some { e with address := some a, nextPc := e.pc + 4#32, executed := true } }

/-- A misprediction: the two younger slots are flushed, at a cost of two cycles (48_pipeline_inorder.md R408, R410). -/
def State.flush (s : State) : State :=
  s.setPipe { s.micro.pipe with
    ids := none, ifs := none, stallControl := s.micro.pipe.stallControl + 2 }

/-- A control transfer resolves in EX, with its redirect. -/
def State.resolveInEx (s : State) (e : Slot) (c : Computed) : State × Option Word :=
  let t := s.resolve e.pc c.taken e.predNext c.nextPc
  if c.nextPc = e.predNext then (t, none) else (t.flush, some c.nextPc)

/-- EX of every other instruction: computed by its own rule; a control transfer resolves. -/
def State.executeValue (s : State) (e : Slot) (i : Instr) : State × Option Word :=
  let c := s.compute i e.pc e.ops
  match c.fault with
  | some k => (s.faultInEx e k, none)
  | none =>
    let t := (s.setDraws c.draws).setPipe { s.micro.pipe with
      exs := some { e with result := c.writes, nextPc := c.nextPc, taken := c.taken, executed := true } }
    if isControl i then t.resolveInEx e c else (t, none)

/-- The EX phase, with its redirect; `wb` is what WB held at the start of the cycle. -/
def State.exPhase (s : State) (wb : Option Slot) : State × Option Word :=
  match s.micro.pipe.exs with
  | none => (s, none)
  | some e =>
    match e.fault, e.instr with
    | none, some i =>
      if e.executed || isSerialising i then (s, none)
      else
        let e' := { e with ops := e.ops.map (forward s.cfg.forwarding s.micro.pipe.mems wb) }
        match memOp i with
        | some op => (s.executeAddress e' op, none)
        | none => s.executeValue e' i
    | _, _ => (s, none)

/-! ID (48_pipeline_inorder.md R385, R395 to R398). -/

/-- `W(stage)`: empty for a bubble or a faulted slot. -/
def stageWrites (w : Option Slot) : List RegName :=
  match w with
  | some w => if w.fault.isNone then w.producerTag else []
  | none => []

/-- The stage holds a load. -/
def stageLoads (w : Option Slot) : Bool :=
  match w with
  | some w => w.fault.isNone && (w.instr.map isLoad).getD false
  | none => false

/-- Two sets of names have one in common. -/
def namesMeet (a b : List RegName) : Bool := a.any (fun n => b.contains n)

/-- `id_stall` of an instruction in ID: load-use with forwarding (48_pipeline_inorder.md R396), any pending producer
without (R398). -/
def hazard (on : Bool) (i : Instr) (ex mem wb : Option Slot) : Bool :=
  if on then stageLoads ex && namesMeet (sourceNames i) (stageWrites ex)
  else namesMeet (sourceNames i) (stageWrites ex ++ stageWrites mem ++ stageWrites wb)

/-- An invalid word in ID: the fault is recorded, IF is squashed, Fetch stops. -/
def State.faultInId (s : State) (d : Slot) (k : FaultKind) : State :=
  (s.setPipe { s.micro.pipe with ids := some { d with fault := some k }, ifs := none }).stopFetch

/-- A decoded instruction in ID, with `id_stall`: a serialising one stops Fetch (48_pipeline_inorder.md R412), one with a
hazard waits, any other reads its operands. -/
def State.readOperands (s : State) (d : Slot) (i : Instr) (wb : Option Slot) : State × Bool :=
  let d' := { d with instr := some i, producerTag := destNames i }
  if isSerialising i then
    ((s.setPipe { s.micro.pipe with ids := some d', ifs := none }).stopFetch, false)
  else if hazard s.cfg.forwarding i s.micro.pipe.exs s.micro.pipe.mems wb then
    (s.setPipe { s.micro.pipe with ids := some d', stallData := s.micro.pipe.stallData + 1 }, true)
  else
    (s.setPipe { s.micro.pipe with
      ids := some { d' with ops := (sourceNames i).map (fun n => (n, s.readName n)) } }, false)

/-- The ID phase, with `id_stall`; WB has already written the register file in this cycle. -/
def State.idPhase (s : State) (wb : Option Slot) : State × Bool :=
  match s.micro.pipe.ids with
  | none => (s, false)
  | some d =>
    match d.fault, d.instr with
    | some _, _ => (s, false)
    | none, some i => s.readOperands d i wb
    | none, none =>
      match decode d.word with
      | .error _ => (s.faultInId d (.invalidInstruction d.word), false)
      | .ok i => s.readOperands d i wb

/-! IF (48_pipeline_inorder.md R384). -/

/-- A slot as Fetch creates it. -/
def Slot.fetched (pc word predNext : Word) (fault : Option FaultKind) (wait : Nat) : Slot :=
  { pc := pc, word := word, instr := none, predNext := predNext, ops := [], result := [], address := none,
    nextPc := pc + 4#32, taken := false, fault := fault, executed := false, accessed := false, wait := wait,
    producerTag := [] }

/-- A fetch that marks a breakpoint or faults: its slot carries the fault, and Fetch stops. The rule gives the slot no
`word` and no `pred_next`; they are 0 and `pc + 4` (DESIGN CHOICE, notes/assumptions/22.md). -/
def State.faultInIf (s : State) (a : Word) (k : FaultKind) : State :=
  (s.setPipe { s.micro.pipe with ifs := some (Slot.fetched a 0#32 (a + 4#32) (some k) 0) }).stopFetch

/-- A new fetch at `fetch_pc`. -/
def State.beginFetch (s : State) : Result :=
  let a := s.micro.fetchPc
  if s.cfg.breakpoint = some a then .next (s.faultInIf a (.breakpoint a))
  else
    match s.fetch a.toNat with
    | .error k => .next (s.faultInIf a k)
    | .ok w =>
      if s.meetsStored a then .refused .storedText
      else
        let r := s.accessL1I a.toNat
        .next (r.2.setPipe { r.2.micro.pipe with
          ifs := some (Slot.fetched a w (s.micro.pred.predict s.cfg a) none (r.1 - 1)) })

/-- The IF phase; a fetch in progress waits while `hold_mem` (48_pipeline_inorder.md R400). -/
def State.ifPhase (s : State) (hold : Bool) : Result :=
  match s.micro.pipe.ifs with
  | some f =>
    if f.wait = 0 ∨ hold = true then .next s
    else .next (s.setPipe { s.micro.pipe with ifs := some { f with wait := f.wait - 1 } }).stallStructural
  | none => if s.micro.fetchStop ∨ s.cfg.textEnd ≤ s.micro.fetchPc.toNat then .next s else s.beginFetch

/-! The cycle (48_pipeline_inorder.md R381, R390). -/

/-- The stage holds a serialising instruction on its way to WB. -/
def stageSerialises (w : Option Slot) : Bool :=
  match w with
  | some w => w.fault.isNone && (w.instr.map isSerialising).getD false
  | none => false

/-- Fetch is stopped in this cycle for a syscall or break (48_pipeline_inorder.md R412). R412 does not place the count
inside the cycle: the cycle in which the instruction is in WB counts none, since the run ends there or Fetch goes on
(DESIGN CHOICE, notes/assumptions/13.md). -/
def State.serialising (s : State) : Bool :=
  s.micro.fetchStop && (stageSerialises s.micro.pipe.ids || stageSerialises s.micro.pipe.exs
    || stageSerialises s.micro.pipe.mems)

/-- The stall of a stopped Fetch, counted. -/
def State.countSerialising (s : State) : State := if s.serialising then s.stallStructural else s

/-- IF holds a complete fetch. -/
def fetchComplete (w : Option Slot) : Bool :=
  match w with
  | some f => f.wait == 0
  | none => false

/-- `fetch_pc` after the stages advance: the next pc Fetch chose after a slot that leaves IF. -/
def State.followFetch (s : State) : State :=
  match s.micro.pipe.ifs with
  | some f => if f.wait = 0 then s.setFetchPc f.predNext else s
  | none => s

/-- The stages of the next cycle, before a redirect. -/
def State.advanceStages (s : State) (hold stall : Bool) : State :=
  let p := s.micro.pipe
  if hold then s.setPipe { p with wbs := none }
  else if stall then s.setPipe { p with wbs := p.mems, mems := p.exs, exs := none }
  else if fetchComplete p.ifs then
    s.followFetch.setPipe { p with wbs := p.mems, mems := p.exs, exs := p.ids, ids := p.ifs, ifs := none }
  else s.setPipe { p with wbs := p.mems, mems := p.exs, exs := p.ids, ids := none }

/-- The redirect of a misprediction. -/
def State.applyRedirect (s : State) (t : Option Word) : State :=
  match t with
  | some a => s.restartFetch a
  | none => s

/-- The ID phase unless `hold_mem`. -/
def State.idPhaseUnless (s : State) (hold : Bool) (wb : Option Slot) : State × Bool :=
  if hold then (s, false) else s.idPhase wb

/-- The IF phase unless Fetch is being redirected: in the cycle of a misprediction a waiting fetch is abandoned and no
fetch starts at the old `fetch_pc`, which R384 does not say and D80 suggests (DEDUCED, notes/assumptions/13.md). -/
def State.ifPhaseUnless (s : State) (redirect : Option Word) (hold : Bool) : Result :=
  match redirect with
  | some _ => .next s
  | none => s.ifPhase hold

/-- MEM, EX, ID, IF and the advance; `wb` is what WB held at the start of the cycle. -/
def State.youngerPhases (s : State) (wb : Option Slot) : Result :=
  let m := s.memPhase
  let hold := m.micro.pipe.holdMem
  let e := m.exPhase wb
  let d := e.1.idPhaseUnless hold wb
  match d.1.ifPhaseUnless e.2 hold with
  | .next t => .next ((t.countSerialising.advanceStages hold d.2).applyRedirect e.2)
  | r => r

/-- The phases of one cycle; the run may end in WB. -/
def State.runCycle (s : State) : Result :=
  match s.wbPhase with
  | .next t => if t.status = .running then t.youngerPhases s.micro.pipe.wbs else .next t
  | r => r

/-- One cycle of the in-order pipeline, its end-of-run tests first. -/
def stepInOrder (s : State) : Result :=
  if s.status ≠ .running then .next s
  else if s.cfg.maxSteps ≤ s.micro.cycles then .next (s.setStatus .budgetExhausted)
  else if s.micro.pipe.isEmpty ∧ (s.micro.fetchStop ∨ s.cfg.textEnd ≤ s.micro.fetchPc.toNat) then
    .next s.endOfText
  else (s.countCycle.setPipe s.micro.pipe.countOccupancy).runCycle

end Sys2Proof.Machine
end

