-- ==== Sys2Proof/Machine/Step.lean ====
section
/-!
DEFINITION. One step of the machine under its configuration (00_scope.md R3): an instruction of the functional engine
(45_system.md R300), a cycle of the in-order pipeline (48_pipeline_inorder.md R381), or a cycle of the out-of-order engine
(49_ooo_engine.md R450); and the placing of one instruction where the next step fetches.
-/

namespace Sys2Proof.Machine

/-- A step under a configuration that the spec does not allow is refused (notes/assumptions/7.md). -/
def State.underConfig (s : State) (r : Result) : Result :=
  if s.cfg.wf = true then r else .refused .configuration

/-- One step of the engine the configuration chooses. -/
def step (s : State) : Host.Outcome State Fault Refusal :=
  match s.cfg.engine with
  | .functional => s.underConfig (stepFunctional s)
  | .inOrder => s.underConfig (stepInOrder s)
  | .outOfOrder => s.underConfig (stepOutOfOrder s)

/-- Where the next step fetches: `pc` in the functional engine, `fetch_pc` in the timing engines
(48_pipeline_inorder.md R383). -/
def State.fetchAddress (s : State) : Nat :=
  match s.cfg.engine with
  | .functional => s.pc.toNat
  | .inOrder | .outOfOrder => s.micro.fetchPc.toNat

/-- The instruction whose table bits are `w`, stored where `step` fetches next, as the loader stores text (past the
read-only range), with `TEXT_END` behind it (70_reset_and_hazards.md R535; notes/assumptions/3.md). -/
def State.withFetchWord (s : State) (nbits w : Nat) : State :=
  let placed := s.storeBytes s.fetchAddress (tableBytes nbits w)
  { placed with cfg := { s.cfg with textEnd := max s.cfg.textEnd (s.fetchAddress + 4) } }

end Sys2Proof.Machine
end

