-- ==== Sys2Proof/Safety.lean ====
section
/-!
DEFINITION. The terms in which claims are made: what an instruction leaves unchanged, how it completes and how it faults;
the invariants every step keeps; correct rounding of a binary32 result; and a safe run.
-/

namespace Sys2Proof.Machine

/-! Frames. `draws`, the model's own counter of free values, stands in none of them. -/

/-- Configuration, read-only flag, console, run status, step counter and the timing engines' state are unchanged. -/
structure SameRest (s t : State) : Prop where
  cfg : t.cfg = s.cfg
  roArmed : t.roArmed = s.roArmed
  out : t.out = s.out
  inp : t.inp = s.inp
  status : t.status = s.status
  steps : t.steps = s.steps
  micro : t.micro = s.micro

/-- Every general register reads as before. -/
def SameGprs (s t : State) : Prop := ∀ q, t.readGpr q = s.readGpr q

/-- Every general register but one reads as before. -/
def SameGprsBut (r : RegIdx) (s t : State) : Prop := ∀ q, q ≠ r → t.readGpr q = s.readGpr q

/-- Every floating-point register reads as before. -/
def SameFprs (s t : State) : Prop := ∀ q, t.readFpr q = s.readFpr q

/-- Every floating-point register but one reads as before. -/
def SameFprsBut (r : RegIdx) (s t : State) : Prop := ∀ q, q ≠ r → t.readFpr q = s.readFpr q

/-- HI and LO are as before. -/
def SameHiLo (s t : State) : Prop := t.hi = s.hi ∧ t.lo = s.lo

/-- Every byte of memory reads as before. -/
def SameMemory (s t : State) : Prop := ∀ a, Memory.read t.mem a = Memory.read s.mem a

/-- Every byte of memory outside the `n` bytes at `a` reads as before. -/
def SameMemoryBut (a n : Nat) (s t : State) : Prop :=
  ∀ b, b < a ∨ a + n ≤ b → Memory.read t.mem b = Memory.read s.mem b

/-- Nothing differs but `pc`. -/
structure OnlyPc (s t : State) : Prop where
  gprs : SameGprs s t
  fprs : SameFprs s t
  hiLo : SameHiLo s t
  fcc : t.fcc = s.fcc
  memory : SameMemory s t
  rest : SameRest s t

/-- Nothing differs but `pc` and one general register. -/
structure OnlyGpr (r : RegIdx) (s t : State) : Prop where
  gprs : SameGprsBut r s t
  fprs : SameFprs s t
  hiLo : SameHiLo s t
  fcc : t.fcc = s.fcc
  memory : SameMemory s t
  rest : SameRest s t

/-- Nothing differs but `pc` and one floating-point register. -/
structure OnlyFpr (r : RegIdx) (s t : State) : Prop where
  gprs : SameGprs s t
  fprs : SameFprsBut r s t
  hiLo : SameHiLo s t
  fcc : t.fcc = s.fcc
  memory : SameMemory s t
  rest : SameRest s t

/-- Nothing differs but `pc`, HI and LO. -/
structure OnlyHiLo (s t : State) : Prop where
  gprs : SameGprs s t
  fprs : SameFprs s t
  fcc : t.fcc = s.fcc
  memory : SameMemory s t
  rest : SameRest s t

/-- Nothing differs but `pc` and FCC. -/
structure OnlyFcc (s t : State) : Prop where
  gprs : SameGprs s t
  fprs : SameFprs s t
  hiLo : SameHiLo s t
  memory : SameMemory s t
  rest : SameRest s t

/-- Nothing differs but `pc` and the `n` bytes of memory at `a`. -/
structure OnlyMemory (a n : Nat) (s t : State) : Prop where
  gprs : SameGprs s t
  fprs : SameFprs s t
  hiLo : SameHiLo s t
  fcc : t.fcc = s.fcc
  memory : SameMemoryBut a n s t
  rest : SameRest s t

/-! How an instruction completes. -/

/-- `i` completes: register `r` then holds `v` (0 when `r` is register 0), `pc` has advanced by 4, and nothing else
differs. -/
def WritesGpr (s : State) (i : Instr) (r : RegIdx) (v : Word) : Prop :=
  ∃ t, exec i s = .next t ∧ t.readGpr r = (if r = 0#5 then 0#32 else v) ∧ t.pc = s.pc + 4#32 ∧ OnlyGpr r s t

/-- `i` completes: FP register `r` then holds `v`, `pc` has advanced by 4, and nothing else differs. -/
def WritesFpr (s : State) (i : Instr) (r : RegIdx) (v : Word) : Prop :=
  ∃ t, exec i s = .next t ∧ t.readFpr r = v ∧ t.pc = s.pc + 4#32 ∧ OnlyFpr r s t

/-- `i` completes: HI and LO then hold `h` and `l`, `pc` has advanced by 4, and nothing else differs. -/
def WritesHiLo (s : State) (i : Instr) (h l : Word) : Prop :=
  ∃ t, exec i s = .next t ∧ t.hi = h ∧ t.lo = l ∧ t.pc = s.pc + 4#32 ∧ OnlyHiLo s t

/-- `i` completes: FCC is then `b`, `pc` has advanced by 4, and nothing else differs. -/
def WritesFcc (s : State) (i : Instr) (b : Bool) : Prop :=
  ∃ t, exec i s = .next t ∧ t.fcc = b ∧ t.pc = s.pc + 4#32 ∧ OnlyFcc s t

/-- `i` completes: control is at `a`, and nothing else differs. -/
def GoesTo (s : State) (i : Instr) (a : Word) : Prop :=
  ∃ t, exec i s = .next t ∧ t.pc = a ∧ OnlyPc s t

/-- `i` completes: the bytes at `a` and up then are `bs`, `pc` has advanced by 4, and nothing else differs. -/
def Stores (s : State) (i : Instr) (a : Nat) (bs : List Byte) : Prop :=
  ∃ t, exec i s = .next t ∧ Memory.readBytes t.mem a bs.length = bs ∧ t.pc = s.pc + 4#32 ∧
    OnlyMemory a bs.length s t

/-- Nothing differs but `pc`, the console's output and the answers it still holds ready. -/
structure OnlyConsole (s t : State) : Prop where
  gprs : SameGprs s t
  fprs : SameFprs s t
  hiLo : SameHiLo s t
  fcc : t.fcc = s.fcc
  memory : SameMemory s t
  cfg : t.cfg = s.cfg
  roArmed : t.roArmed = s.roArmed
  status : t.status = s.status
  steps : t.steps = s.steps
  micro : t.micro = s.micro

/-- `i` completes: the event `e` has been appended to the output, `pc` has advanced by 4, and nothing else differs. -/
def Prints (s : State) (i : Instr) (e : OutEvent) : Prop :=
  ∃ t, exec i s = .next t ∧ t.out = s.out ++ [e] ∧ t.inp = s.inp ∧ t.pc = s.pc + 4#32 ∧ OnlyConsole s t

/-- `i` completes on an answer of the console: register 2 then holds `v`, `inp` is what is left of the answers, `pc` has
advanced by 4, and nothing else differs. -/
def Answers (s : State) (i : Instr) (v : Word) (inp : List InAnswer) : Prop :=
  ∃ t, exec i s = .next t ∧ t.readGpr 2#5 = v ∧ t.inp = inp ∧ t.pc = s.pc + 4#32 ∧
    OnlyGpr 2#5 s { t with inp := s.inp }

/-! How an instruction faults (60_exceptions.md R500). -/

/-- The status that ends a run on a fault. -/
def endStatus (k : FaultKind) : RunStatus :=
  match k with
  | .breakpoint a => .paused a
  | k => .faulted k

/-- `t` is `s` after the fault `k`: the status is that of `k`, HI and LO differ at most after DivisionByZero, and nothing
else differs, `pc` included. -/
structure Faulted (s : State) (k : FaultKind) (t : State) : Prop where
  status : t.status = endStatus k
  pc : t.pc = s.pc
  gprs : SameGprs s t
  fprs : SameFprs s t
  hiLo : k ≠ .divisionByZero → SameHiLo s t
  fcc : t.fcc = s.fcc
  memory : SameMemory s t
  cfg : t.cfg = s.cfg
  roArmed : t.roArmed = s.roArmed
  out : t.out = s.out
  inp : t.inp = s.inp
  steps : t.steps = s.steps
  micro : t.micro = s.micro

/-- `i` raises the fault `k`. -/
def Faults (s : State) (i : Instr) (k : FaultKind) : Prop := ∃ t, exec i s = .next t ∧ Faulted s k t

/-- A control transfer with condition `c` and target `a` (43_control.md R230, R232): when the condition holds control is at
the target, or the target is refused; when it does not control is at the next word. -/
def Branches (s : State) (i : Instr) (c : Prop) (a : Word) : Prop :=
  (c → a.toNat % 4 = 0 → a.toNat + 4 ≤ s.cfg.memSize → GoesTo s i a) ∧
  (c → (a.toNat % 4 ≠ 0 ∨ s.cfg.memSize < a.toNat + 4) → Faults s i (.invalidBranchTarget a)) ∧
  (¬c → GoesTo s i (s.pc + 4#32))

/-- A jump to `a` that links in register `r` (43_control.md R232, R235): the link is written only when the target is good. -/
def Links (s : State) (i : Instr) (r : RegIdx) (a : Word) : Prop :=
  (a.toNat % 4 = 0 → a.toNat + 4 ≤ s.cfg.memSize →
    ∃ t, exec i s = .next t ∧ t.pc = a ∧ t.readGpr r = (if r = 0#5 then 0#32 else s.pc + 8#32) ∧ OnlyGpr r s t) ∧
  ((a.toNat % 4 ≠ 0 ∨ s.cfg.memSize < a.toNat + 4) → Faults s i (.invalidBranchTarget a))

/-! Accesses. -/

/-- The faults of an access of `n` bytes by `i` from base value `x` with offset `imm`, in the order of their tests
(42_loadstore.md R200): AddressOverflow, MemoryOutOfBounds, MemoryMisaligned. -/
def AccessFaults (s : State) (i : Instr) (x : Word) (imm : Imm16) (n : Nat) : Prop :=
  (effAddr x imm = none → Faults s i .addressOverflow) ∧
  (∀ a, effAddr x imm = some a → s.cfg.memSize < a + n → Faults s i (.memoryOutOfBounds a)) ∧
  (∀ a, effAddr x imm = some a → a + n ≤ s.cfg.memSize → a % n ≠ 0 → Faults s i (.memoryMisaligned a n))

/-- The `n` bytes at `a` can be loaded: in bounds and aligned (20_memory.md R66). -/
def State.loadable (s : State) (a n : Nat) : Prop := a + n ≤ s.cfg.memSize ∧ a % n = 0

/-- The `n` bytes at `a` can be stored to: also not write-protected (20_memory.md R67). -/
def State.storable (s : State) (a n : Nat) : Prop := s.loadable a n ∧ s.protects a n = false

/-- The bytes at `a` as a little-endian natural (20_memory.md R61). -/
def Memory.littleEndian (m : List Host.Cell) (a n : Nat) : Nat :=
  match n with
  | 0 => 0
  | k + 1 => (Memory.read m a).toNat + 2 ^ 8 * Memory.littleEndian m (a + 1) k

/-! Invariants. -/

/-- The memory has its canonical form and the storage of register 0 holds zero. -/
def State.Inv (s : State) : Prop := Memory.wf s.mem = true ∧ s.gpr[0] = 0#32

/-- `accesses = hits + misses` and `writebacks <= misses` (46_cache.md R345). -/
def Cache.Lawful (k : Cache) : Prop := k.accesses = k.hits + k.misses ∧ k.writebacks ≤ k.misses

/-- The counter laws hold at every level. -/
def State.CachesLawful (s : State) : Prop :=
  s.micro.l1i.Lawful ∧ s.micro.l1d.Lawful ∧ ∀ k, s.micro.l2 = some k → k.Lawful

/-- A cache as construction leaves it: every line invalid and clean, the clock and every counter 0 (10_state.md R38, R34). -/
structure Cache.Cold (k : Cache) : Prop where
  lines : ∀ ways ∈ k.sets, ∀ way ∈ ways, way.isValid = false ∧ ∀ block, (way.line block).dirty = false
  clock : k.clock = 0
  accesses : k.accesses = 0
  hits : k.hits = 0
  misses : k.misses = 0
  writebacks : k.writebacks = 0

/-- The pipeline as construction leaves it: five bubbles, every counter 0 (10_state.md R38, R34). -/
structure Pipe.Cold (p : Pipe) : Prop where
  empty : p.isEmpty = true
  stallData : p.stallData = 0
  stallControl : p.stallControl = 0
  stallStructural : p.stallStructural = 0
  occIf : p.occIf = 0
  occId : p.occId = 0
  occEx : p.occEx = 0
  occMem : p.occMem = 0
  occWb : p.occWb = 0

/-- The architectural state (10_state.md R20 to R33) is unchanged: all of it that a program or the console sees. -/
structure SameArch (s t : State) : Prop where
  cfg : t.cfg = s.cfg
  gpr : t.gpr = s.gpr
  hi : t.hi = s.hi
  lo : t.lo = s.lo
  pc : t.pc = s.pc
  fpr : t.fpr = s.fpr
  fcc : t.fcc = s.fcc
  mem : t.mem = s.mem
  roArmed : t.roArmed = s.roArmed
  out : t.out = s.out
  inp : t.inp = s.inp
  status : t.status = s.status
  steps : t.steps = s.steps

/-- The number of a counter's state (47_branch_predictor.md R361). -/
def Counter.number (c : Counter) : Nat :=
  match c with
  | .sn => 0
  | .wn => 1
  | .wt => 2
  | .st => 3

/-! Rounding (44_float.md R261(a)). -/

/-- A pattern that is neither NaN nor infinity. -/
def isFinite (v : Word) : Bool := expOf v != 255

/-- The magnitude of `v` is `n / d` units of 2^-149 rounded to nearest, ties to even: no finite pattern is nearer, one
equally near makes `v` even, and infinity is the result from half a unit in the last place beyond the largest finite
magnitude on. -/
def Nearest (n d : Nat) (v : Word) : Prop :=
  isNaN v = false ∧
  (isInf v = true ↔ (2 ^ 25 - 1) * 2 ^ 252 * d ≤ n) ∧
  (isFinite v = true → ∀ w, isFinite w = true →
    ((unitsOf v * d : Int) - n).natAbs ≤ ((unitsOf w * d : Int) - n).natAbs ∧
    (((unitsOf v * d : Int) - n).natAbs = ((unitsOf w * d : Int) - n).natAbs → unitsOf w ≠ unitsOf v →
      fracOf v % 2 = 0))

/-- `v` is a result of `fp.add` on `a` and `b` (44_float.md R261). -/
structure IsSum (a b v : Word) : Prop where
  nan : isNaN a = true ∨ isNaN b = true ∨ (isInf a = true ∧ isInf b = true ∧ signOf a ≠ signOf b) → isNaN v = true
  infLeft : isInf a = true → isNaN b = false → (isInf b = true → signOf a = signOf b) → v = a
  infRight : isInf b = true → isFinite a = true → v = b
  zero : isFinite a = true → isFinite b = true → signedUnits a + signedUnits b = 0 →
    v = zeroOf (signOf a && signOf b)
  number : isFinite a = true → isFinite b = true → signedUnits a + signedUnits b ≠ 0 →
    signOf v = decide (signedUnits a + signedUnits b < 0) ∧ Nearest (signedUnits a + signedUnits b).natAbs 1 v

/-- `v` is a result of `fp.mul` on `a` and `b` (44_float.md R261). -/
structure IsProduct (a b v : Word) : Prop where
  nan : isNaN a = true ∨ isNaN b = true ∨ (isInf a = true ∧ isZero b = true) ∨ (isZero a = true ∧ isInf b = true) →
    isNaN v = true
  inf : isNaN a = false → isNaN b = false → isZero a = false → isZero b = false →
    (isInf a = true ∨ isInf b = true) → v = infOf (signOf a != signOf b)
  number : isFinite a = true → isFinite b = true →
    signOf v = (signOf a != signOf b) ∧ Nearest (unitsOf a * unitsOf b) (2 ^ 149) v

/-- `v` is a result of `fp.div` on `a` and `b` (44_float.md R261, R265). -/
structure IsQuotient (a b v : Word) : Prop where
  nan : isNaN a = true ∨ isNaN b = true ∨ (isInf a = true ∧ isInf b = true) ∨ (isZero a = true ∧ isZero b = true) →
    isNaN v = true
  inf : isInf a = true → isFinite b = true → v = infOf (signOf a != signOf b)
  zero : isFinite a = true → isInf b = true → v = zeroOf (signOf a != signOf b)
  byZero : isFinite a = true → isZero a = false → isZero b = true → v = infOf (signOf a != signOf b)
  number : isFinite a = true → isFinite b = true → isZero b = false →
    signOf v = (signOf a != signOf b) ∧ Nearest (unitsOf a * 2 ^ 149) (unitsOf b) v

/-! Safe runs. -/

/-- The run has not ended in a fault. -/
def State.safe (s : State) : Bool :=
  match s.status with
  | .faulted _ => false
  | _ => true

end Sys2Proof.Machine
end

