-- ==== Sys2Proof/Certificates/Slice0/Obligations.lean ====
section
/-!
DEFINITION. The statements about the model, from the rules of spec/, for the provers. The terms `WritesGpr`, `Faults` and
the like are those of Safety.lean: each says that `exec` ANSWERS A NEXT STATE, what that state holds, and that nothing else
differs.
-/

open Sys2Proof Sys2Proof.Machine

/-! Encoding. -/

/-- 30_encoding.md R119, R110: decoding the word of any well-formed instruction gives it back, every operand included. -/
def Obligations.DecodeOfEncode : Prop :=
  ∀ i : Instr, i.wf = true → decode (encode i) = .ok i

/-- 30_encoding.md R119: "decoding then re-encoding a supported instruction yields the original word"; and only
well-formed instructions are decoded (R111). Since the fixed bits of `encode i` are those of its row, every must-be-zero
field of an accepted word is zero (R118). -/
def Obligations.EncodeOfDecode : Prop :=
  ∀ (w : Word) (i : Instr), decode w = .ok i → encode i = w ∧ i.wf = true

/-- Words the spec writes out for its instructions (R142, R152, R159, R111, R181, R201, R206, R236, R243, R262, and
`syscall` with code 0 by the encoding of R291) decode to those instructions; 0xFFFFFFFF is none of them (R117). -/
def Obligations.ExampleWordsDecode : Prop :=
  decode 0x01095020#32 = .ok (.add 10#5 8#5 9#5) ∧ decode 0x2008000F#32 = .ok (.addi 8#5 0#5 15#16) ∧
  decode 0x00094100#32 = .ok (.sll 8#5 9#5 4#5) ∧ decode 0x00000000#32 = .ok .nop ∧
  decode 0x01090018#32 = .ok (.mult 8#5 9#5) ∧ decode 0x8E080000#32 = .ok (.lw 8#5 16#5 0#16) ∧
  decode 0xAC0A0100#32 = .ok (.sw 10#5 0#5 0x100#16) ∧ decode 0x11090003#32 = .ok (.beq 8#5 9#5 3#16) ∧
  decode 0x0C000010#32 = .ok (.jal 16#26) ∧ decode 0x46020800#32 = .ok (.addS 0#5 1#5 2#5) ∧
  decode 0x0000000C#32 = .ok (.syscall 0#20) ∧ decode 0xFFFFFFFF#32 = .error (.invalidInstruction 0xFFFFFFFF#32)

/-- 30_encoding.md R113 to R118: the words that are no instruction. Unsupported are an opcode outside the primary map, a
SPECIAL funct, a REGIMM selector, a COP1 format, an FP branch selector, a single-format funct and a word-format funct
outside theirs; and no field that must be zero is anything else: `shamt`, `rs`, `rt` and `rd` under SPECIAL, `rs` of
`lui`, `rt` of `blez` and `bgtz`, `ft` of the one-operand FP instructions, `fd` of the compares. -/
def Obligations.UnsupportedWordsRejected : Prop :=
  ∀ w : Word,
    ((opcodeOf w).toNat ∉ [0x00, 0x01, 0x02, 0x03, 0x04, 0x05, 0x06, 0x07, 0x08, 0x09, 0x0A, 0x0B, 0x0C, 0x0D, 0x0E,
        0x0F, 0x11, 0x20, 0x21, 0x23, 0x24, 0x25, 0x28, 0x29, 0x2B, 0x31, 0x39] →
      decode w = .error (.invalidInstruction w)) ∧
    (opcodeOf w = 0x00#6 → (functOf w).toNat ∉ [0x00, 0x02, 0x03, 0x04, 0x06, 0x07, 0x08, 0x09, 0x0C, 0x0D, 0x10, 0x11,
        0x12, 0x13, 0x18, 0x19, 0x1A, 0x1B, 0x20, 0x21, 0x22, 0x23, 0x24, 0x25, 0x26, 0x27, 0x2A, 0x2B] →
      decode w = .error (.invalidInstruction w)) ∧
    (opcodeOf w = 0x01#6 → (rtOf w).toNat ∉ [0, 1] → decode w = .error (.invalidInstruction w)) ∧
    (opcodeOf w = 0x11#6 → (rsOf w).toNat ∉ [8, 16, 20] → decode w = .error (.invalidInstruction w)) ∧
    (opcodeOf w = 0x11#6 → rsOf w = 8#5 → (rtOf w).toNat ∉ [0, 1] → decode w = .error (.invalidInstruction w)) ∧
    (opcodeOf w = 0x11#6 → rsOf w = 16#5 →
      (functOf w).toNat ∉ [0x00, 0x01, 0x02, 0x03, 0x05, 0x06, 0x07, 0x24, 0x32, 0x3C, 0x3E] →
      decode w = .error (.invalidInstruction w)) ∧
    (opcodeOf w = 0x11#6 → rsOf w = 20#5 → functOf w ≠ 0x20#6 → decode w = .error (.invalidInstruction w)) ∧
    (opcodeOf w = 0x00#6 → (functOf w).toNat ∈ [0x04, 0x06, 0x07, 0x08, 0x09, 0x10, 0x11, 0x12, 0x13, 0x18, 0x19, 0x1A,
        0x1B, 0x20, 0x21, 0x22, 0x23, 0x24, 0x25, 0x26, 0x27, 0x2A, 0x2B] →
      shamtOf w ≠ 0#5 → decode w = .error (.invalidInstruction w)) ∧
    (opcodeOf w = 0x00#6 → (functOf w).toNat ∈ [0x00, 0x02, 0x03, 0x10, 0x12] → rsOf w ≠ 0#5 →
      decode w = .error (.invalidInstruction w)) ∧
    (opcodeOf w = 0x00#6 → (functOf w).toNat ∈ [0x08, 0x09, 0x10, 0x11, 0x12, 0x13] → rtOf w ≠ 0#5 →
      decode w = .error (.invalidInstruction w)) ∧
    (opcodeOf w = 0x00#6 → (functOf w).toNat ∈ [0x08, 0x11, 0x13, 0x18, 0x19, 0x1A, 0x1B] → rdOf w ≠ 0#5 →
      decode w = .error (.invalidInstruction w)) ∧
    (opcodeOf w = 0x0F#6 → rsOf w ≠ 0#5 → decode w = .error (.invalidInstruction w)) ∧
    (opcodeOf w = 0x06#6 ∨ opcodeOf w = 0x07#6 → rtOf w ≠ 0#5 → decode w = .error (.invalidInstruction w)) ∧
    (opcodeOf w = 0x11#6 → rsOf w = 16#5 → (functOf w).toNat ∈ [0x05, 0x06, 0x07, 0x24] → rtOf w ≠ 0#5 →
      decode w = .error (.invalidInstruction w)) ∧
    (opcodeOf w = 0x11#6 → rsOf w = 20#5 → rtOf w ≠ 0#5 → decode w = .error (.invalidInstruction w)) ∧
    (opcodeOf w = 0x11#6 → rsOf w = 16#5 → (functOf w).toNat ∈ [0x32, 0x3C, 0x3E] → shamtOf w ≠ 0#5 →
      decode w = .error (.invalidInstruction w))

/-! The step. -/

/-- 45_system.md R300, functional engine: when no end-of-run test applies and the bytes at `pc` decode to `i`, the step is
`exec i`, and `steps` counts it unless it ended in a fault or a pause. -/
def Obligations.StepRunsDecodedInstruction : Prop :=
  ∀ (s : State) (i : Instr) (rest : List Byte),
    s.cfg.wf = true → s.cfg.engine = .functional → s.status = .running → s.steps < s.cfg.maxSteps →
    s.cfg.breakpoint ≠ some s.pc → s.pc.toNat < s.cfg.textEnd → s.loadable s.pc.toNat 4 →
    decodeBytes (Memory.readBytes s.mem s.pc.toNat 4) = .ok (i, rest) →
    ∃ t, exec i s = .next t ∧
      (t.status.fault = none → step s = .next { t with steps := t.steps + 1 }) ∧
      (t.status.fault ≠ none → step s = .next t)

/-- 45_system.md R300, R301, R304, R305, functional engine: the end-of-run tests in their order, each changing the status
alone. -/
def Obligations.EndOfRunTests : Prop :=
  ∀ s : State, s.cfg.wf = true → s.cfg.engine = .functional → s.status = .running →
    (s.cfg.maxSteps ≤ s.steps → step s = .next { s with status := .budgetExhausted }) ∧
    (s.steps < s.cfg.maxSteps → s.cfg.breakpoint = some s.pc → step s = .next { s with status := .paused s.pc }) ∧
    (s.steps < s.cfg.maxSteps → s.cfg.breakpoint ≠ some s.pc → s.cfg.textEnd ≤ s.pc.toNat →
      step s = .next { s with status := .endOfText })

/-- 45_system.md R300, 20_memory.md R68, 60_exceptions.md R491, R492, R494, R500, R502, functional engine: the faults of
fetch and decode, in their order; on each nothing but the status changes. -/
def Obligations.FetchAndDecodeFaults : Prop :=
  ∀ s : State, s.cfg.wf = true → s.cfg.engine = .functional → s.status = .running → s.steps < s.cfg.maxSteps →
    s.cfg.breakpoint ≠ some s.pc → s.pc.toNat < s.cfg.textEnd →
    (s.cfg.memSize < s.pc.toNat + 4 → step s = .next { s with status := .faulted (.memoryOutOfBounds s.pc.toNat) }) ∧
    (s.pc.toNat + 4 ≤ s.cfg.memSize → s.pc.toNat % 4 ≠ 0 →
      step s = .next { s with status := .faulted (.memoryMisaligned s.pc.toNat 4) }) ∧
    (∀ w, s.loadable s.pc.toNat 4 → w.toNat = Memory.littleEndian s.mem s.pc.toNat 4 → (∀ i, decode w ≠ .ok i) →
      step s = .next { s with status := .faulted (.invalidInstruction w) })

/-- 10_state.md R33, in every engine: "Once it is not `Running` no instruction executes and no state changes." -/
def Obligations.TerminalStatusIsFinal : Prop :=
  ∀ s : State, s.cfg.wf = true → s.status ≠ .running → step s = .next s

/-- 00_scope.md R7, in every engine: a parameter "is fixed at construction and never changes during a run". -/
def Obligations.ConfigurationNeverChanges : Prop :=
  ∀ s t : State, step s = .next t → t.cfg = s.cfg

/-- 10_state.md R38, R34, 70_reset_and_hazards.md R530: the state after construction under any configuration, every counter
of every unit 0 and every line of every cache invalid and clean. -/
def Obligations.ResetValues : Prop :=
  ∀ c : Config,
    (∀ r, (State.construct c).readGpr r = if r = 29#5 then c.spInit else 0#32) ∧
    (State.construct c).hi = 0#32 ∧ (State.construct c).lo = 0#32 ∧
    (∀ r, (State.construct c).readFpr r = 0#32) ∧ (State.construct c).fcc = false ∧
    (State.construct c).pc = c.pcReset ∧ (∀ a, Memory.read (State.construct c).mem a = 0#8) ∧
    (State.construct c).roArmed = false ∧ (State.construct c).out = [] ∧
    (State.construct c).status = .running ∧ (State.construct c).steps = 0 ∧
    (State.construct c).micro.l1i.Cold ∧ (State.construct c).micro.l1d.Cold ∧
    (State.construct c).micro.l2.isSome = c.l2.isSome ∧ (∀ k, (State.construct c).micro.l2 = some k → k.Cold) ∧
    (∀ n ∈ (State.construct c).micro.pred.table, n = .wn) ∧ (State.construct c).micro.pred.btb = [] ∧
    (State.construct c).micro.pipe.Cold ∧ (State.construct c).micro.ooo.count = 0 ∧
    (State.construct c).micro.ooo.head = (State.construct c).micro.ooo.tail ∧
    (∀ n ∈ (State.construct c).micro.ooo.rat, n = none) ∧
    (∀ f, (∀ t ∈ ((State.construct c).micro.ooo.fu f).stations, t = none) ∧
      ((State.construct c).micro.ooo.fu f).exec = []) ∧
    (State.construct c).micro.fetchPc = c.pcReset ∧ (State.construct c).micro.fetchStop = false ∧
    (State.construct c).micro.ooo.fq = [] ∧ (State.construct c).micro.cycles = 0 ∧
    (State.construct c).micro.committed = 0 ∧ (State.construct c).micro.branches = 0 ∧
    (State.construct c).micro.mispredictions = 0

/-- The invariant of `StepKeepsInvariant` holds after construction under any configuration, and so at reset. -/
def Obligations.InvariantAtReset : Prop :=
  (∀ c : Config, (State.construct c).Inv) ∧ State.reset.Inv

/-- In every engine and from every state that has it, a step keeps the canonical form of memory (the model's own
invariant, notes/assumptions/17.md) and leaves the storage of register 0 at zero (10_state.md R21). -/
def Obligations.StepKeepsInvariant : Prop :=
  ∀ s t : State, s.Inv → step s = .next t → t.Inv

/-- 46_cache.md R345, in every engine: "Total cache accesses = hits + misses at each level; write-backs ≤ misses". The laws
hold at reset and every step keeps them. -/
def Obligations.CacheCounterLaws : Prop :=
  (∀ c : Config, (State.construct c).CachesLawful) ∧
  (∀ s t : State, s.CachesLawful → step s = .next t → t.CachesLawful)

/-- 45_system.md R300, R301, functional engine: a step from `Running` either completes an instruction, and then counts it,
or ends the run without completing one, and then counts nothing. -/
def Obligations.CompletedInstructionsAreCounted : Prop :=
  ∀ s t : State, s.cfg.engine = .functional → s.status = .running → step s = .next t →
    (t.steps = s.steps + 1 ∧ (t.status = .running ∨ t.status = .exited)) ∨
    (t.steps = s.steps ∧ t.status ≠ .running ∧ t.status ≠ .exited)

/-- 10_state.md R26, functional engine: `pc` stays a multiple of 4, since control transfers refuse every other target. -/
def Obligations.PcStaysAligned : Prop :=
  ∀ s t : State, s.cfg.engine = .functional → s.pc.toNat % 4 = 0 → step s = .next t → t.pc.toNat % 4 = 0

/-! Integer arithmetic and logic. -/

/-- 40_integer_alu.md R142, R144: `add` and `sub` deliver the exact signed result or raise ArithmeticOverflow with nothing
written. -/
def Obligations.AddAndSubtract : Prop :=
  ∀ (s : State) (rd rs rt : RegIdx),
    encode (.add rd rs rt) = 0b000000#6 ++ rs ++ rt ++ rd ++ 0b00000#5 ++ 0b100000#6 ∧
    encode (.sub rd rs rt) = 0b000000#6 ++ rs ++ rt ++ rd ++ 0b00000#5 ++ 0b100010#6 ∧
    (∀ r : Int, r = (s.readGpr rs).toInt + (s.readGpr rt).toInt →
      (-2 ^ 31 ≤ r ∧ r ≤ 2 ^ 31 - 1 → WritesGpr s (.add rd rs rt) rd (BitVec.ofInt 32 r)) ∧
      (r < -2 ^ 31 ∨ 2 ^ 31 - 1 < r → Faults s (.add rd rs rt) .arithmeticOverflow)) ∧
    (∀ r : Int, r = (s.readGpr rs).toInt - (s.readGpr rt).toInt →
      (-2 ^ 31 ≤ r ∧ r ≤ 2 ^ 31 - 1 → WritesGpr s (.sub rd rs rt) rd (BitVec.ofInt 32 r)) ∧
      (r < -2 ^ 31 ∨ 2 ^ 31 - 1 < r → Faults s (.sub rd rs rt) .arithmeticOverflow))

/-- 40_integer_alu.md R152, R153: `addi` traps like `add`; `addiu` sign-extends its immediate too, and wraps. -/
def Obligations.AddImmediate : Prop :=
  ∀ (s : State) (rt rs : RegIdx) (imm : Imm16),
    (∀ r : Int, r = (s.readGpr rs).toInt + imm.toInt →
      (-2 ^ 31 ≤ r ∧ r ≤ 2 ^ 31 - 1 → WritesGpr s (.addi rt rs imm) rt (BitVec.ofInt 32 r)) ∧
      (r < -2 ^ 31 ∨ 2 ^ 31 - 1 < r → Faults s (.addi rt rs imm) .arithmeticOverflow)) ∧
    (∃ v : Word, (v.toNat : Int) = ((s.readGpr rs).toNat + imm.toInt) % 2 ^ 32 ∧ WritesGpr s (.addiu rt rs imm) rt v)

/-- 40_integer_alu.md R143, R145: `addu` and `subu` wrap modulo 2^32 and never fault. -/
def Obligations.WrappingAddAndSubtract : Prop :=
  ∀ (s : State) (rd rs rt : RegIdx),
    encode (.addu rd rs rt) = 0b000000#6 ++ rs ++ rt ++ rd ++ 0b00000#5 ++ 0b100001#6 ∧
    encode (.subu rd rs rt) = 0b000000#6 ++ rs ++ rt ++ rd ++ 0b00000#5 ++ 0b100011#6 ∧
    (∃ v : Word, v.toNat = ((s.readGpr rs).toNat + (s.readGpr rt).toNat) % 2 ^ 32 ∧ WritesGpr s (.addu rd rs rt) rd v) ∧
    (∃ v : Word, (v.toNat : Int) = ((s.readGpr rs).toNat - (s.readGpr rt).toNat : Int) % 2 ^ 32 ∧
      WritesGpr s (.subu rd rs rt) rd v)

/-- 40_integer_alu.md R146 to R149: `and`, `or`, `xor` and `nor`, bit by bit. -/
def Obligations.BitwiseLogic : Prop :=
  ∀ (s : State) (rd rs rt : RegIdx),
    encode (.and rd rs rt) = 0b000000#6 ++ rs ++ rt ++ rd ++ 0b00000#5 ++ 0b100100#6 ∧
    encode (.or rd rs rt) = 0b000000#6 ++ rs ++ rt ++ rd ++ 0b00000#5 ++ 0b100101#6 ∧
    encode (.xor rd rs rt) = 0b000000#6 ++ rs ++ rt ++ rd ++ 0b00000#5 ++ 0b100110#6 ∧
    encode (.nor rd rs rt) = 0b000000#6 ++ rs ++ rt ++ rd ++ 0b00000#5 ++ 0b100111#6 ∧
    (∃ v : Word, (∀ k < 32, v.getLsbD k = ((s.readGpr rs).getLsbD k && (s.readGpr rt).getLsbD k)) ∧
      WritesGpr s (.and rd rs rt) rd v) ∧
    (∃ v : Word, (∀ k < 32, v.getLsbD k = ((s.readGpr rs).getLsbD k || (s.readGpr rt).getLsbD k)) ∧
      WritesGpr s (.or rd rs rt) rd v) ∧
    (∃ v : Word, (∀ k < 32, v.getLsbD k = ((s.readGpr rs).getLsbD k ^^ (s.readGpr rt).getLsbD k)) ∧
      WritesGpr s (.xor rd rs rt) rd v) ∧
    (∃ v : Word, (∀ k < 32, v.getLsbD k = !((s.readGpr rs).getLsbD k || (s.readGpr rt).getLsbD k)) ∧
      WritesGpr s (.nor rd rs rt) rd v)

/-- 40_integer_alu.md R156 to R158, 42_loadstore.md R209: logical immediates are zero-extended, so the upper half of the
result is 0 under `andi` and the operand's under `ori` and `xori`; `lui` puts its immediate in the upper half over
zeros. -/
def Obligations.LogicalImmediates : Prop :=
  ∀ (s : State) (rt rs : RegIdx) (imm : Imm16),
    (∃ v : Word, (∀ k < 32, v.getLsbD k = ((s.readGpr rs).getLsbD k && (decide (k < 16) && imm.getLsbD k))) ∧
      WritesGpr s (.andi rt rs imm) rt v) ∧
    (∃ v : Word, (∀ k < 32, v.getLsbD k = ((s.readGpr rs).getLsbD k || (decide (k < 16) && imm.getLsbD k))) ∧
      WritesGpr s (.ori rt rs imm) rt v) ∧
    (∃ v : Word, (∀ k < 32, v.getLsbD k = ((s.readGpr rs).getLsbD k ^^ (decide (k < 16) && imm.getLsbD k))) ∧
      WritesGpr s (.xori rt rs imm) rt v) ∧
    (∃ v : Word, v.toNat = imm.toNat * 2 ^ 16 ∧ WritesGpr s (.lui rt imm) rt v)

/-- 40_integer_alu.md R150, R151: `slt` compares signed, `sltu` unsigned; the result is 0 or 1. -/
def Obligations.SetOnLessThan : Prop :=
  ∀ (s : State) (rd rs rt : RegIdx),
    encode (.slt rd rs rt) = 0b000000#6 ++ rs ++ rt ++ rd ++ 0b00000#5 ++ 0b101010#6 ∧
    encode (.sltu rd rs rt) = 0b000000#6 ++ rs ++ rt ++ rd ++ 0b00000#5 ++ 0b101011#6 ∧
    ((s.readGpr rs).toInt < (s.readGpr rt).toInt → WritesGpr s (.slt rd rs rt) rd 1#32) ∧
    (¬(s.readGpr rs).toInt < (s.readGpr rt).toInt → WritesGpr s (.slt rd rs rt) rd 0#32) ∧
    ((s.readGpr rs).toNat < (s.readGpr rt).toNat → WritesGpr s (.sltu rd rs rt) rd 1#32) ∧
    (¬(s.readGpr rs).toNat < (s.readGpr rt).toNat → WritesGpr s (.sltu rd rs rt) rd 0#32)

/-- 40_integer_alu.md R154, R155: both immediates are sign-extended; `slti` then compares signed, `sltiu` unsigned. -/
def Obligations.SetOnLessThanImmediate : Prop :=
  ∀ (s : State) (rt rs : RegIdx) (imm : Imm16),
    ((s.readGpr rs).toInt < imm.toInt → WritesGpr s (.slti rt rs imm) rt 1#32) ∧
    (¬(s.readGpr rs).toInt < imm.toInt → WritesGpr s (.slti rt rs imm) rt 0#32) ∧
    (∀ n : Int, n = imm.toInt % 2 ^ 32 →
      ((s.readGpr rs).toNat < n → WritesGpr s (.sltiu rt rs imm) rt 1#32) ∧
      (¬(s.readGpr rs).toNat < n → WritesGpr s (.sltiu rt rs imm) rt 0#32))

/-- 40_integer_alu.md R159, R161: `sll` multiplies by a power of two modulo 2^32; `sra` is the floor of the signed quotient
by one. -/
def Obligations.ShiftLeftAndArithmeticRight : Prop :=
  ∀ (s : State) (rd rt : RegIdx) (shamt : BitVec 5),
    encode (.sll rd rt shamt) = 0b000000#6 ++ 0b00000#5 ++ rt ++ rd ++ shamt ++ 0b000000#6 ∧
    encode (.sra rd rt shamt) = 0b000000#6 ++ 0b00000#5 ++ rt ++ rd ++ shamt ++ 0b000011#6 ∧
    (∃ v : Word, v.toNat = (s.readGpr rt).toNat * 2 ^ shamt.toNat % 2 ^ 32 ∧ WritesGpr s (.sll rd rt shamt) rd v) ∧
    (∃ v : Word, v.toInt = (s.readGpr rt).toInt / 2 ^ shamt.toNat ∧ WritesGpr s (.sra rd rt shamt) rd v)

/-- 40_integer_alu.md R160, R162 to R164: `srl` is the unsigned quotient by a power of two; the variable shifts take their
amount from the low five bits of `x[rs]`, that is from `x[rs]` modulo 32. -/
def Obligations.LogicalRightAndVariableShifts : Prop :=
  ∀ (s : State) (rd rt rs : RegIdx) (shamt : BitVec 5),
    (∃ v : Word, v.toNat = (s.readGpr rt).toNat / 2 ^ shamt.toNat ∧ WritesGpr s (.srl rd rt shamt) rd v) ∧
    (∃ v : Word, v.toNat = (s.readGpr rt).toNat * 2 ^ ((s.readGpr rs).toNat % 32) % 2 ^ 32 ∧
      WritesGpr s (.sllv rd rt rs) rd v) ∧
    (∃ v : Word, v.toNat = (s.readGpr rt).toNat / 2 ^ ((s.readGpr rs).toNat % 32) ∧
      WritesGpr s (.srlv rd rt rs) rd v) ∧
    (∃ v : Word, v.toInt = (s.readGpr rt).toInt / 2 ^ ((s.readGpr rs).toNat % 32) ∧
      WritesGpr s (.srav rd rt rs) rd v)

/-! Multiply and divide. -/

/-- 41_muldiv.md R181, R182: the 64-bit product is exact, HI its upper and LO its lower half. -/
def Obligations.Multiply : Prop :=
  ∀ (s : State) (rs rt : RegIdx),
    encode (.mult rs rt) = 0b000000#6 ++ rs ++ rt ++ 0b00000#5 ++ 0b00000#5 ++ 0b011000#6 ∧
    encode (.multu rs rt) = 0b000000#6 ++ rs ++ rt ++ 0b00000#5 ++ 0b00000#5 ++ 0b011001#6 ∧
    (∃ h l : Word, (h ++ l : BitVec 64).toInt = (s.readGpr rs).toInt * (s.readGpr rt).toInt ∧
      WritesHiLo s (.mult rs rt) h l) ∧
    (∃ h l : Word, (h ++ l : BitVec 64).toNat = (s.readGpr rs).toNat * (s.readGpr rt).toNat ∧
      WritesHiLo s (.multu rs rt) h l)

/-- 41_muldiv.md R183, R184: with a divisor that is not 0 and no quotient overflow, LO is the quotient truncated toward
zero and HI the remainder with the sign of the dividend; `divu` likewise unsigned. -/
def Obligations.Divide : Prop :=
  ∀ (s : State) (rs rt : RegIdx),
    ((s.readGpr rt).toInt ≠ 0 → ¬((s.readGpr rs).toInt = -2 ^ 31 ∧ (s.readGpr rt).toInt = -1) →
      ∃ h l : Word, (s.readGpr rs).toInt = l.toInt * (s.readGpr rt).toInt + h.toInt ∧
        h.toInt.natAbs < (s.readGpr rt).toInt.natAbs ∧
        (h.toInt = 0 ∨ (h.toInt < 0 ↔ (s.readGpr rs).toInt < 0)) ∧ WritesHiLo s (.div rs rt) h l) ∧
    ((s.readGpr rt).toNat ≠ 0 →
      ∃ h l : Word, (s.readGpr rs).toNat = l.toNat * (s.readGpr rt).toNat + h.toNat ∧
        h.toNat < (s.readGpr rt).toNat ∧ WritesHiLo s (.divu rs rt) h l)

/-- 41_muldiv.md R183, R184, 60_exceptions.md R497: a zero divisor raises DivisionByZero whatever the dividend; everything
but the status, HI and LO is unchanged, and HI and LO are free. `0x80000000 / -1` raises no fault and completes, with some
HI and LO of which nothing is said (DIV_OVF, notes/assumptions/10.md), everything else unchanged. -/
def Obligations.DivisionCorners : Prop :=
  ∀ (s : State) (rs rt : RegIdx),
    (s.readGpr rt = 0#32 → Faults s (.div rs rt) .divisionByZero ∧ Faults s (.divu rs rt) .divisionByZero) ∧
    (s.readGpr rs = 0x80000000#32 → s.readGpr rt = 0xFFFFFFFF#32 → ∃ h l : Word, WritesHiLo s (.div rs rt) h l)

/-- 41_muldiv.md R185 to R188: the moves between HI, LO and the general registers. -/
def Obligations.HiLoMoves : Prop :=
  ∀ (s : State) (r : RegIdx),
    encode (.mfhi r) = 0b000000#6 ++ 0b00000#5 ++ 0b00000#5 ++ r ++ 0b00000#5 ++ 0b010000#6 ∧
    encode (.mflo r) = 0b000000#6 ++ 0b00000#5 ++ 0b00000#5 ++ r ++ 0b00000#5 ++ 0b010010#6 ∧
    encode (.mthi r) = 0b000000#6 ++ r ++ 0b00000#5 ++ 0b00000#5 ++ 0b00000#5 ++ 0b010001#6 ∧
    encode (.mtlo r) = 0b000000#6 ++ r ++ 0b00000#5 ++ 0b00000#5 ++ 0b00000#5 ++ 0b010011#6 ∧
    WritesGpr s (.mfhi r) r s.hi ∧ WritesGpr s (.mflo r) r s.lo ∧
    WritesHiLo s (.mthi r) (s.readGpr r) s.lo ∧ WritesHiLo s (.mtlo r) s.hi (s.readGpr r)

/-! Loads and stores. -/

/-- 20_memory.md R65: the effective address is the exact sum of the unsigned base and the signed offset; there is none when
that sum is negative or at least 2^32. -/
def Obligations.EffectiveAddress : Prop :=
  ∀ (base : Word) (imm : Imm16),
    (∀ a : Nat, effAddr base imm = some a ↔ (a : Int) = base.toNat + imm.toInt ∧ a < 2 ^ 32) ∧
    (effAddr base imm = none ↔ base.toNat + imm.toInt < 0 ∨ 2 ^ 32 ≤ base.toNat + imm.toInt)

/-- 42_loadstore.md R201: `lw` reads the four bytes at its address, the lowest least significant, or faults. -/
def Obligations.LoadWord : Prop :=
  ∀ (s : State) (rt b : RegIdx) (imm : Imm16),
    encode (.lw rt b imm) = 0b100011#6 ++ b ++ rt ++ imm ∧
    (∀ a, effAddr (s.readGpr b) imm = some a → s.loadable a 4 →
      ∃ v : Word, v.toNat = Memory.littleEndian s.mem a 4 ∧ WritesGpr s (.lw rt b imm) rt v) ∧
    AccessFaults s (.lw rt b imm) (s.readGpr b) imm 4

/-- 42_loadstore.md R202, R203: `lh` sign-extends and `lhu` zero-extends the halfword at their address, or they fault. -/
def Obligations.LoadHalfword : Prop :=
  ∀ (s : State) (rt b : RegIdx) (imm : Imm16),
    encode (.lh rt b imm) = 0b100001#6 ++ b ++ rt ++ imm ∧
    encode (.lhu rt b imm) = 0b100101#6 ++ b ++ rt ++ imm ∧
    (∀ a, effAddr (s.readGpr b) imm = some a → s.loadable a 2 →
      (∃ v : Word, v.toInt = (BitVec.ofNat 16 (Memory.littleEndian s.mem a 2)).toInt ∧ WritesGpr s (.lh rt b imm) rt v) ∧
      (∃ v : Word, v.toNat = Memory.littleEndian s.mem a 2 ∧ WritesGpr s (.lhu rt b imm) rt v)) ∧
    AccessFaults s (.lh rt b imm) (s.readGpr b) imm 2 ∧ AccessFaults s (.lhu rt b imm) (s.readGpr b) imm 2

/-- 42_loadstore.md R204, R205: `lb` sign-extends and `lbu` zero-extends the byte at their address, or they fault; they are
never misaligned, every address being a multiple of 1. -/
def Obligations.LoadByte : Prop :=
  ∀ (s : State) (rt b : RegIdx) (imm : Imm16),
    encode (.lb rt b imm) = 0b100000#6 ++ b ++ rt ++ imm ∧
    encode (.lbu rt b imm) = 0b100100#6 ++ b ++ rt ++ imm ∧
    (∀ a, effAddr (s.readGpr b) imm = some a → a < s.cfg.memSize →
      (∃ v : Word, v.toInt = (Memory.read s.mem a).toInt ∧ WritesGpr s (.lb rt b imm) rt v) ∧
      (∃ v : Word, v.toNat = (Memory.read s.mem a).toNat ∧ WritesGpr s (.lbu rt b imm) rt v)) ∧
    AccessFaults s (.lb rt b imm) (s.readGpr b) imm 1 ∧ AccessFaults s (.lbu rt b imm) (s.readGpr b) imm 1

/-- 42_loadstore.md R210: `lwc1` copies the word at its address into an FPR unchanged, or faults as `lw`. -/
def Obligations.LoadFloat : Prop :=
  ∀ (s : State) (ft b : RegIdx) (imm : Imm16),
    (∀ a, effAddr (s.readGpr b) imm = some a → s.loadable a 4 →
      ∃ v : Word, v.toNat = Memory.littleEndian s.mem a 4 ∧ WritesFpr s (.lwc1 ft b imm) ft v) ∧
    AccessFaults s (.lwc1 ft b imm) (s.readGpr b) imm 4

/-- 42_loadstore.md R206 to R208, R211, 20_memory.md R61, R67: a store of an address that may be stored to writes the low
bytes of its register there, the least significant first, and no other byte. Memory in canonical form is
`StepKeepsInvariant`'s invariant. -/
def Obligations.StoresWriteTheirBytes : Prop :=
  ∀ (s : State) (rt b : RegIdx) (imm : Imm16) (a : Nat), Memory.wf s.mem = true →
    effAddr (s.readGpr b) imm = some a →
    (∀ v : Word, v = s.readGpr rt →
      (s.storable a 4 → Stores s (.sw rt b imm) a
        [v.extractLsb' 0 8, v.extractLsb' 8 8, v.extractLsb' 16 8, v.extractLsb' 24 8]) ∧
      (s.storable a 2 → Stores s (.sh rt b imm) a [v.extractLsb' 0 8, v.extractLsb' 8 8]) ∧
      (s.storable a 1 → Stores s (.sb rt b imm) a [v.extractLsb' 0 8])) ∧
    (∀ v : Word, v = s.readFpr rt → s.storable a 4 → Stores s (.swc1 rt b imm) a
      [v.extractLsb' 0 8, v.extractLsb' 8 8, v.extractLsb' 16 8, v.extractLsb' 24 8])

/-- 42_loadstore.md R200, R206 to R208, R211, 20_memory.md R63, R67: the faults of the stores in the order of their tests,
the write protection of the armed read-only range last; on each no byte is written. -/
def Obligations.StoreFaults : Prop :=
  ∀ (s : State) (rt b : RegIdx) (imm : Imm16),
    AccessFaults s (.sw rt b imm) (s.readGpr b) imm 4 ∧ AccessFaults s (.sh rt b imm) (s.readGpr b) imm 2 ∧
    AccessFaults s (.sb rt b imm) (s.readGpr b) imm 1 ∧ AccessFaults s (.swc1 rt b imm) (s.readGpr b) imm 4 ∧
    (∀ a k : Nat, effAddr (s.readGpr b) imm = some a → s.roArmed = true → s.cfg.roBase ≤ k → k < s.cfg.roEnd → a ≤ k →
      (s.loadable a 4 → k < a + 4 → Faults s (.sw rt b imm) (.memoryWriteProtected a) ∧
        Faults s (.swc1 rt b imm) (.memoryWriteProtected a)) ∧
      (s.loadable a 2 → k < a + 2 → Faults s (.sh rt b imm) (.memoryWriteProtected a)) ∧
      (s.loadable a 1 → k < a + 1 → Faults s (.sb rt b imm) (.memoryWriteProtected a)))

/-- 20_memory.md R61, R76: a word stored by `sw` is what `lw`, `lwc1` and, byte by byte, `lbu` then read at its address. -/
def Obligations.StoreThenLoadReturnsValue : Prop :=
  ∀ (s : State) (rt b q : RegIdx) (imm : Imm16) (a : Nat), Memory.wf s.mem = true →
    effAddr (s.readGpr b) imm = some a → s.storable a 4 →
    ∃ t, exec (.sw rt b imm) s = .next t ∧
      WritesGpr t (.lw q b imm) q (s.readGpr rt) ∧ WritesFpr t (.lwc1 q b imm) q (s.readGpr rt) ∧
      (∀ k < 4, Memory.read t.mem (a + k) = (s.readGpr rt).extractLsb' (8 * k) 8)

/-! Control transfer. -/

/-- 43_control.md R236 to R241, with R232 and R233: the six integer branches. -/
def Obligations.IntegerBranches : Prop :=
  ∀ (s : State) (rs rt : RegIdx) (imm : Imm16),
    encode (.beq rs rt imm) = 0b000100#6 ++ rs ++ rt ++ imm ∧
    encode (.bne rs rt imm) = 0b000101#6 ++ rs ++ rt ++ imm ∧
    encode (.bgtz rs imm) = 0b000111#6 ++ rs ++ 0b00000#5 ++ imm ∧
    encode (.bgez rs imm) = 0b000001#6 ++ rs ++ 0b00001#5 ++ imm ∧
    encode (.bltz rs imm) = 0b000001#6 ++ rs ++ 0b00000#5 ++ imm ∧
    encode (.blez rs imm) = 0b000110#6 ++ rs ++ 0b00000#5 ++ imm ∧
    ∃ t : Word, (t.toNat : Int) = (s.pc.toNat + 4 + 4 * imm.toInt) % 2 ^ 32 ∧
      Branches s (.beq rs rt imm) (s.readGpr rs = s.readGpr rt) t ∧
      Branches s (.bne rs rt imm) (s.readGpr rs ≠ s.readGpr rt) t ∧
      Branches s (.bgtz rs imm) ((s.readGpr rs).toInt > 0) t ∧
      Branches s (.bgez rs imm) ((s.readGpr rs).toInt ≥ 0) t ∧
      Branches s (.bltz rs imm) ((s.readGpr rs).toInt < 0) t ∧
      Branches s (.blez rs imm) ((s.readGpr rs).toInt ≤ 0) t

/-- 43_control.md R246, R247, with R232 and R233: the two branches on FCC. -/
def Obligations.ConditionCodeBranches : Prop :=
  ∀ (s : State) (imm : Imm16),
    ∃ t : Word, (t.toNat : Int) = (s.pc.toNat + 4 + 4 * imm.toInt) % 2 ^ 32 ∧
      Branches s (.bc1t imm) (s.fcc = true) t ∧ Branches s (.bc1f imm) (s.fcc = false) t

/-- 43_control.md R234, R242 to R244: `j` and `jal` go to the 26-bit field between the top four bits of the following
address and two zeros, `jr` to the register's value; `jal` links `pc + 8` in register 31. -/
def Obligations.Jumps : Prop :=
  ∀ (s : State) (target : BitVec 26) (rs : RegIdx),
    encode (.j target) = 0b000010#6 ++ target ∧ encode (.jal target) = 0b000011#6 ++ target ∧
    encode (.jr rs) = 0b000000#6 ++ rs ++ 0b00000#5 ++ 0b00000#5 ++ 0b00000#5 ++ 0b001000#6 ∧
    Branches s (.j target) True ((s.pc + 4#32).extractLsb' 28 4 ++ target ++ 0b00#2) ∧
    Links s (.jal target) 31#5 ((s.pc + 4#32).extractLsb' 28 4 ++ target ++ 0b00#2) ∧
    Branches s (.jr rs) True (s.readGpr rs)

/-- 43_control.md R245: `jalr` goes to the old value of `x[rs]`, also when `rd = rs`, and links in `rd`; with `rd = 0` the
link is dropped. -/
def Obligations.JumpAndLinkRegister : Prop :=
  ∀ (s : State) (rd rs : RegIdx), Links s (.jalr rd rs) rd (s.readGpr rs)

/-! Floating point. -/

/-- 44_float.md R261 to R263: `add.s` and `sub.s` complete, with the exact sum rounded to nearest, ties to even, or the
special value; a NaN result is some NaN pattern. -/
def Obligations.FloatAddAndSubtract : Prop :=
  ∀ (s : State) (fd fs ft : RegIdx),
    (∃ v, IsSum (s.readFpr fs) (s.readFpr ft) v ∧ WritesFpr s (.addS fd fs ft) fd v) ∧
    (∃ v, IsSum (s.readFpr fs) (s.readFpr ft ^^^ 0x80000000#32) v ∧ WritesFpr s (.subS fd fs ft) fd v)

/-- 44_float.md R261, R264, R265: `mul.s` and `div.s` complete, with the exact product or quotient rounded to nearest, ties
to even, or the special value; a NaN result is some NaN pattern. -/
def Obligations.FloatMultiplyAndDivide : Prop :=
  ∀ (s : State) (fd fs ft : RegIdx),
    (∃ v, IsProduct (s.readFpr fs) (s.readFpr ft) v ∧ WritesFpr s (.mulS fd fs ft) fd v) ∧
    (∃ v, IsQuotient (s.readFpr fs) (s.readFpr ft) v ∧ WritesFpr s (.divS fd fs ft) fd v)

/-- 44_float.md R266 to R268: `abs.s` clears bit 31, `neg.s` inverts it, `mov.s` copies; every other bit is copied, in a NaN
too. -/
def Obligations.FloatSignOperations : Prop :=
  ∀ (s : State) (fd fs : RegIdx),
    (∃ v : Word, (∀ k < 31, v.getLsbD k = (s.readFpr fs).getLsbD k) ∧ v.getLsbD 31 = false ∧
      WritesFpr s (.absS fd fs) fd v) ∧
    (∃ v : Word, (∀ k < 31, v.getLsbD k = (s.readFpr fs).getLsbD k) ∧ v.getLsbD 31 = !(s.readFpr fs).getLsbD 31 ∧
      WritesFpr s (.negS fd fs) fd v) ∧
    WritesFpr s (.movS fd fs) fd (s.readFpr fs)

/-- 44_float.md R261, R269, R270: `cvt.s.w` rounds the signed integer to nearest, ties to even; `cvt.w.s` of a pattern whose
value is an integer of 32 bits gives that integer, and completes with some value of which nothing is said on every other
operand (notes/assumptions/11.md). -/
def Obligations.FloatConversions : Prop :=
  ∀ (s : State) (fd fs : RegIdx),
    (∃ v, signOf v = decide ((s.readFpr fs).toInt < 0) ∧ Nearest ((s.readFpr fs).toInt.natAbs * 2 ^ 149) 1 v ∧
      WritesFpr s (.cvtSW fd fs) fd v) ∧
    (∀ k : Int, isFinite (s.readFpr fs) = true → signedUnits (s.readFpr fs) = k * 2 ^ 149 → -2 ^ 31 ≤ k →
      k ≤ 2 ^ 31 - 1 → WritesFpr s (.cvtWS fd fs) fd (BitVec.ofInt 32 k)) ∧
    (∃ v, WritesFpr s (.cvtWS fd fs) fd v)

/-- 44_float.md R271 to R274: the compares write FCC and no register. A NaN operand gives false; finite numbers compare by
value, both zeros equal; an infinity is equal to itself alone and outside every other number. -/
def Obligations.FloatCompares : Prop :=
  ∀ (s : State) (fs ft : RegIdx) (a b : Word), a = s.readFpr fs → b = s.readFpr ft →
    ∃ eq lt le : Bool,
      WritesFcc s (.cEqS fs ft) eq ∧ WritesFcc s (.cLtS fs ft) lt ∧ WritesFcc s (.cLeS fs ft) le ∧
      (isNaN a = true ∨ isNaN b = true → eq = false ∧ lt = false ∧ le = false) ∧
      (isFinite a = true → isFinite b = true → eq = decide (signedUnits a = signedUnits b) ∧
        lt = decide (signedUnits a < signedUnits b) ∧ le = decide (signedUnits a ≤ signedUnits b)) ∧
      (isInf a = true → isNaN b = false → a ≠ b → eq = false ∧ lt = signOf a ∧ le = signOf a) ∧
      (isInf b = true → isNaN a = false → a ≠ b → eq = false ∧ lt = !signOf b ∧ le = !signOf b) ∧
      (isInf a = true → a = b → eq = true ∧ lt = false ∧ le = true)

/-! System. -/

/-- 45_system.md R291, R292, R294, R298: the print calls append their event and change nothing else; print-string sends the
bytes up to the first zero byte, and faults with nothing appended when there is none below `MEM_SIZE`. -/
def Obligations.PrintCalls : Prop :=
  ∀ (s : State) (code : BitVec 20),
    (s.readGpr 2#5 = 1#32 → Prints s (.syscall code) (.printInt (s.readGpr 4#5))) ∧
    (s.readGpr 2#5 = 11#32 → Prints s (.syscall code) (.printChar ((s.readGpr 4#5).extractLsb' 0 8))) ∧
    (∀ bs : List Byte, s.readGpr 2#5 = 4#32 → (∀ b ∈ bs, b ≠ 0#8) →
      Memory.readBytes s.mem (s.readGpr 4#5).toNat bs.length = bs →
      Memory.read s.mem ((s.readGpr 4#5).toNat + bs.length) = 0#8 →
      (s.readGpr 4#5).toNat + bs.length < s.cfg.memSize → Prints s (.syscall code) (.printString bs)) ∧
    (s.readGpr 2#5 = 4#32 →
      (∀ a, (s.readGpr 4#5).toNat ≤ a → a < s.cfg.memSize → Memory.read s.mem a ≠ 0#8) →
      Faults s (.syscall code) (.memoryOutOfBounds (max (s.readGpr 4#5).toNat s.cfg.memSize)))

/-- 45_system.md R291, R295, R299: read-int and read-char put the console's answer in register 2 and change nothing else.
When an answer of the right kind is ready (the model's list of ready answers, notes/assumptions/5.md) it is that answer; else
it is some value, at most 255 for read-char. -/
def Obligations.ReadNumberCalls : Prop :=
  ∀ (s : State) (code : BitVec 20),
    (s.readGpr 2#5 = 5#32 →
      (∀ v rest, s.inp = .int v :: rest → Answers s (.syscall code) v rest) ∧
      (∃ v inp, Answers s (.syscall code) v inp)) ∧
    (s.readGpr 2#5 = 12#32 →
      (∀ b rest, s.inp = .char b :: rest → Answers s (.syscall code) (b.zeroExtend 32) rest) ∧
      (∃ v inp, v.toNat ≤ 255 ∧ Answers s (.syscall code) v inp))

/-- 45_system.md R291, R296: read-string of `n` bytes at `buf`. With `n = 0` it does nothing. It faults before the console
is asked when the buffer leaves memory or meets the armed read-only range. Else it stores some string of at most `n - 1`
bytes, none zero, and a zero byte, and no register, and leaves every other byte; a ready answer of that kind (the model's,
notes/assumptions/5.md) is the string. -/
def Obligations.ReadStringCall : Prop :=
  ∀ (s : State) (code : BitVec 20) (buf n : Nat), Memory.wf s.mem = true → s.readGpr 2#5 = 8#32 →
    buf = (s.readGpr 4#5).toNat → n = (s.readGpr 5#5).toNat →
    (n = 0 → GoesTo s (.syscall code) (s.pc + 4#32)) ∧
    (n ≠ 0 → s.cfg.memSize < buf + n → Faults s (.syscall code) (.memoryOutOfBounds (max buf s.cfg.memSize))) ∧
    (n ≠ 0 → buf + n ≤ s.cfg.memSize → s.protects buf n = true →
      Faults s (.syscall code) (.memoryWriteProtected (max buf s.cfg.roBase))) ∧
    (n ≠ 0 → buf + n ≤ s.cfg.memSize → s.protects buf n = false →
      ∃ (t : State) (str : List Byte), exec (.syscall code) s = .next t ∧ str.length ≤ n - 1 ∧ (∀ b ∈ str, b ≠ 0#8) ∧
        Memory.readBytes t.mem buf (str.length + 1) = str ++ [0#8] ∧ t.pc = s.pc + 4#32 ∧
        OnlyMemory buf (str.length + 1) s { t with inp := s.inp } ∧
        (∀ given rest, s.inp = .string given :: rest → given.length ≤ n - 1 → (∀ b ∈ given, b ≠ 0#8) → str = given))

/-- 45_system.md R291, R297: exit ends the run with `Exited`, `pc` at the syscall, and nothing else changed. -/
def Obligations.ExitCall : Prop :=
  ∀ (s : State) (code : BitVec 20), s.readGpr 2#5 = 10#32 →
    ∃ t, exec (.syscall code) s = .next t ∧ t.status = .exited ∧ t.pc = s.pc ∧
      OnlyPc s { t with status := s.status }

/-- 45_system.md R293, 60_exceptions.md R498: every other call number raises InvalidSyscall with that number, and nothing is
written. -/
def Obligations.InvalidSyscallFaults : Prop :=
  ∀ (s : State) (code : BitVec 20), (s.readGpr 2#5).toNat ∉ [1, 4, 5, 8, 10, 11, 12] →
    Faults s (.syscall code) (.invalidSyscall (s.readGpr 2#5))

/-- 45_system.md R302, R303: `break` pauses the run at its own address and changes nothing else, whatever its code; `nop`
changes nothing but `pc`, and two of them advance it by 8. -/
def Obligations.BreakAndNop : Prop :=
  ∀ (s : State) (code : BitVec 20),
    Faults s (.brk code) (.breakpoint s.pc) ∧ GoesTo s .nop (s.pc + 4#32) ∧
    (∃ t u, exec .nop s = .next t ∧ exec .nop t = .next u ∧ u.pc = s.pc + 8#32 ∧ OnlyPc s u)

/-! The timing engines. -/

/-- 47_branch_predictor.md R361, R363, R364: a resolution steps the one counter of its `pc`, saturating at 0 and 3, and no
other; the direction predicted is taken iff that counter is at least 2. -/
def Obligations.CountersSaturate : Prop :=
  ∀ (p : Predictor) (cfg : Config) (pc target : Word) (taken : Bool) (k : Nat) (c : Counter),
    cfg.predictor = .twoBit → k = pc.toNat / 4 % cfg.predEntries → p.table[k]? = some c →
    ∃ d, (p.resolve cfg pc taken target).table[k]? = some d ∧
      d.number = (if taken then min (c.number + 1) 3 else c.number - 1) ∧
      (∀ j, j ≠ k → (p.resolve cfg pc taken target).table[j]? = p.table[j]?) ∧
      (p.direction cfg.predEntries pc = true ↔ 2 ≤ c.number)

/-- 47_branch_predictor.md R365 to R367, R369: after a taken resolution of `pc` with target `t` the BTB holds `(pc, t)` and
at most `BTB_ENTRIES` pairs, no other `pc` gains a target or changes its own, and a taken prediction of `pc` is `t`; a
not-taken one leaves the BTB; in static mode nothing changes and the prediction is `pc + 4`. -/
def Obligations.TargetBufferLearns : Prop :=
  ∀ (p : Predictor) (cfg : Config) (pc t : Word), 1 ≤ cfg.btbEntries →
    (cfg.predictor = .twoBit → ∀ q, q = p.resolve cfg pc true t →
      btbLookup q.btb pc = some t ∧ q.btb.length ≤ cfg.btbEntries ∧
      (∀ a, a ≠ pc → btbLookup q.btb a = btbLookup p.btb a ∨ btbLookup q.btb a = none) ∧
      (q.direction cfg.predEntries pc = true → q.predict cfg pc = t) ∧
      (q.direction cfg.predEntries pc = false → q.predict cfg pc = pc + 4#32)) ∧
    (cfg.predictor = .twoBit → (p.resolve cfg pc false t).btb = p.btb) ∧
    (cfg.predictor = .staticNotTaken → ∀ b, p.resolve cfg pc b t = p ∧ p.predict cfg pc = pc + 4#32)

/-- 46_cache.md R324, R326, R327, R335: once a read has brought in a block, the next access to any address of that block
hits. The premise on the set's shape is that of a cache built for its geometry. -/
def Obligations.ReadBringsBlockIn : Prop :=
  ∀ (k : Cache) (c : CacheCfg) (a b : Nat) (kind : AccessKind) (d e : List Byte) (f g : Nat),
    1 ≤ c.assoc → (∃ ways, k.sets[c.indexOf a]? = some ways ∧ ways.length = c.assoc) →
    c.blockOf b = c.blockOf a →
    ((k.access c a .read d f).cache.access c b kind e g).hit = true

/-- 46_cache.md R328 to R331, R335: a store miss of a write-through cache without write-allocate changes no line and passes
the store on. With write-allocate, and in a write-back cache, the set then holds the block with the store's bytes put in,
found where a lookup of its tag finds it, and dirty in the write-back cache alone; a write-through cache passes the store
on, a write-back cache does not. The premise on the set's shape is that of a cache built for its geometry. -/
def Obligations.StoreMissAllocation : Prop :=
  ∀ (k : Cache) (c : CacheCfg) (a : Nat) (bs d : List Byte) (f : Nat) (r : Access),
    1 ≤ c.assoc → (∃ ways, k.sets[c.indexOf a]? = some ways ∧ ways.length = c.assoc) →
    lookupWay (c.tagOf a) (k.sets.getD (c.indexOf a) []) = none → r = k.access c a (.write bs) d f →
    r.hit = false ∧ r.passDown = (if c.writePolicy = .writeThrough then some (a, bs) else none) ∧
    (c.writePolicy = .writeThrough → c.writeAllocate = false → r.cache.sets = k.sets ∧ r.fill = none) ∧
    (c.writePolicy = .writeBack ∨ c.writeAllocate = true →
      r.fill = some (c.baseOf a) ∧
      ∃ (ways : List Way) (way : Nat) (l : Line), r.cache.sets[c.indexOf a]? = some ways ∧
        lookupWay (c.tagOf a) ways = some way ∧ ways[way]? = some (.valid l) ∧ l.tag = c.tagOf a ∧
        l.data = patch d (c.offsetOf a) bs ∧ l.dirty = decide (c.writePolicy = .writeBack))

/-- 48_pipeline_inorder.md R389, R399: in the in-order pipeline the architectural state changes in WB alone. A cycle in
which WB holds no instruction changes none of it, the run status at the end of a run apart, and commits nothing; no cycle
commits more than one instruction. -/
def Obligations.PipelineWritesOnlyInWriteback : Prop :=
  ∀ s t : State, s.cfg.engine = .inOrder → step s = .next t →
    (s.micro.pipe.wbs = none → SameArch s { t with status := s.status } ∧ t.micro.committed = s.micro.committed) ∧
    t.micro.committed ≤ s.micro.committed + 1

/-- 49_ooo_engine.md R470, invariant (a): "Architectural register values are updated only at commit". In the out-of-order
engine a cycle whose head entry is absent or not ready changes no architectural state, the run status at the end of a run
apart, and commits nothing; no cycle commits more than `COMMIT_WIDTH` instructions. -/
def Obligations.OutOfOrderWritesOnlyAtCommit : Prop :=
  ∀ s t : State, s.cfg.engine = .outOfOrder → step s = .next t →
    ((s.micro.ooo.count = 0 ∨ ∃ h, s.micro.ooo.entry s.micro.ooo.head = some h ∧ h.ready = false) →
      SameArch s { t with status := s.status } ∧ t.micro.committed = s.micro.committed) ∧
    t.micro.committed ≤ s.micro.committed + s.cfg.commitWidth

/-- 49_ooo_engine.md R431, R482 (property 5): "ROB never exceeds capacity". -/
def Obligations.ReorderBufferWithinCapacity : Prop :=
  (∀ c : Config, (State.construct c).micro.ooo.count ≤ c.robCapacity) ∧
  (∀ s t : State, s.micro.ooo.count ≤ s.cfg.robCapacity → step s = .next t → t.micro.ooo.count ≤ t.cfg.robCapacity)

/-- 48_pipeline_inorder.md R395, R396: with forwarding, an instruction in ID that is not serialising stalls exactly when the
instruction in EX is a load that writes one of its sources; the stall is counted, and every other instruction leaves with
its operands read. -/
def Obligations.LoadUseStall : Prop :=
  ∀ (s : State) (d e : Slot) (i j : Instr) (wb : Option Slot),
    s.cfg.forwarding = true → s.micro.pipe.ids = some d → d.fault = none → d.instr = none → decode d.word = .ok i →
    isSerialising i = false → s.micro.pipe.exs = some e → e.fault = none → e.instr = some j →
    e.producerTag = destNames j →
    ((s.idPhase wb).2 = true ↔ isLoad j = true ∧ ∃ n, n ∈ sourceNames i ∧ n ∈ destNames j) ∧
    ((s.idPhase wb).1.micro.pipe.stallData =
      s.micro.pipe.stallData + (if (s.idPhase wb).2 = true then 1 else 0)) ∧
    ((s.idPhase wb).2 = false →
      ∃ d', (s.idPhase wb).1.micro.pipe.ids = some d' ∧ d'.instr = some i ∧
        d'.ops = (sourceNames i).map (fun n => (n, s.readName n)))

/-- 49_ooo_engine.md R457: dispatch takes nothing while the fetch buffer is empty or waiting, while the reorder buffer is
full, and while every station of the instruction's class is busy; else it takes the front record. -/
def Obligations.DispatchStalls : Prop :=
  ∀ s : State,
    (s.micro.ooo.fq = [] ∨ s.micro.ooo.fqWait ≠ 0 ∨ s.cfg.robCapacity ≤ s.micro.ooo.count → s.dispatchOne = none) ∧
    (∀ (r : FetchRec) (rest : List FetchRec) (w : Word) (i : Instr), s.micro.ooo.fq = r :: rest → r.content = .ok w →
      decode w = .ok i → s.micro.ooo.fqWait = 0 → s.micro.ooo.count < s.cfg.robCapacity →
      (s.dispatchOne = none ↔ ∀ x ∈ (s.micro.ooo.fu (fuOf i)).stations, x.isSome = true) ∧
      (∀ t, s.dispatchOne = some t → t.micro.ooo.count = s.micro.ooo.count + 1 ∧
        (isSerialising i = false → t.micro.ooo.fq = rest)))
end

