-- ==== Sys2Proof/Laws/Decode.lean ====
section
/-!
SUPPORT. The fields of an encoded word: each accessor of Decode.lean undoes each builder of the encoder, and each
builder puts the fields of a word back. Proofs about decode and encode cite these and never look at bits.
-/

namespace Sys2Proof.Laws

theorem toNat_append {n m : Nat} (x : BitVec n) (y : BitVec m) : (x ++ y).toNat = x.toNat * 2 ^ m + y.toNat := by
  rw [BitVec.toNat_append, ← Nat.shiftLeft_add_eq_or_of_lt y.isLt, Nat.shiftLeft_eq]

theorem toNat_extract {n : Nat} (w : BitVec n) (s k : Nat) : (w.extractLsb' s k).toNat = w.toNat / 2 ^ s % 2 ^ k := by
  rw [BitVec.extractLsb'_toNat, Nat.shiftRight_eq_div_pow]

@[simp] theorem opcode_encR (rs rt rd sh : BitVec 5) (fn : BitVec 6) : opcodeOf (encR rs rt rd sh fn) = 0#6 := by
  apply BitVec.eq_of_toNat_eq
  simp only [opcodeOf, encR, toNat_extract, toNat_append, BitVec.toNat_ofNat]
  have := rs.isLt; have := rt.isLt; have := rd.isLt; have := sh.isLt; have := fn.isLt
  omega

@[simp] theorem rs_encR (rs rt rd sh : BitVec 5) (fn : BitVec 6) : rsOf (encR rs rt rd sh fn) = rs := by
  apply BitVec.eq_of_toNat_eq
  simp only [rsOf, encR, toNat_extract, toNat_append, BitVec.toNat_ofNat]
  have := rs.isLt; have := rt.isLt; have := rd.isLt; have := sh.isLt; have := fn.isLt
  omega

@[simp] theorem rt_encR (rs rt rd sh : BitVec 5) (fn : BitVec 6) : rtOf (encR rs rt rd sh fn) = rt := by
  apply BitVec.eq_of_toNat_eq
  simp only [rtOf, encR, toNat_extract, toNat_append, BitVec.toNat_ofNat]
  have := rs.isLt; have := rt.isLt; have := rd.isLt; have := sh.isLt; have := fn.isLt
  omega

@[simp] theorem rd_encR (rs rt rd sh : BitVec 5) (fn : BitVec 6) : rdOf (encR rs rt rd sh fn) = rd := by
  apply BitVec.eq_of_toNat_eq
  simp only [rdOf, encR, toNat_extract, toNat_append, BitVec.toNat_ofNat]
  have := rs.isLt; have := rt.isLt; have := rd.isLt; have := sh.isLt; have := fn.isLt
  omega

@[simp] theorem shamt_encR (rs rt rd sh : BitVec 5) (fn : BitVec 6) : shamtOf (encR rs rt rd sh fn) = sh := by
  apply BitVec.eq_of_toNat_eq
  simp only [shamtOf, encR, toNat_extract, toNat_append, BitVec.toNat_ofNat]
  have := rs.isLt; have := rt.isLt; have := rd.isLt; have := sh.isLt; have := fn.isLt
  omega

@[simp] theorem funct_encR (rs rt rd sh : BitVec 5) (fn : BitVec 6) : functOf (encR rs rt rd sh fn) = fn := by
  apply BitVec.eq_of_toNat_eq
  simp only [functOf, encR, toNat_extract, toNat_append, BitVec.toNat_ofNat]
  have := rs.isLt; have := rt.isLt; have := rd.isLt; have := sh.isLt; have := fn.isLt
  omega

@[simp] theorem opcode_encI (op : BitVec 6) (rs rt : BitVec 5) (imm : Imm16) : opcodeOf (encI op rs rt imm) = op := by
  apply BitVec.eq_of_toNat_eq
  simp only [opcodeOf, encI, toNat_extract, toNat_append]
  have := op.isLt; have := rs.isLt; have := rt.isLt; have := imm.isLt
  omega

@[simp] theorem rs_encI (op : BitVec 6) (rs rt : BitVec 5) (imm : Imm16) : rsOf (encI op rs rt imm) = rs := by
  apply BitVec.eq_of_toNat_eq
  simp only [rsOf, encI, toNat_extract, toNat_append]
  have := op.isLt; have := rs.isLt; have := rt.isLt; have := imm.isLt
  omega

@[simp] theorem rt_encI (op : BitVec 6) (rs rt : BitVec 5) (imm : Imm16) : rtOf (encI op rs rt imm) = rt := by
  apply BitVec.eq_of_toNat_eq
  simp only [rtOf, encI, toNat_extract, toNat_append]
  have := op.isLt; have := rs.isLt; have := rt.isLt; have := imm.isLt
  omega

@[simp] theorem imm16_encI (op : BitVec 6) (rs rt : BitVec 5) (imm : Imm16) : imm16Of (encI op rs rt imm) = imm := by
  apply BitVec.eq_of_toNat_eq
  simp only [imm16Of, encI, toNat_extract, toNat_append]
  have := op.isLt; have := rs.isLt; have := rt.isLt; have := imm.isLt
  omega

@[simp] theorem opcode_encJ (op : BitVec 6) (t : BitVec 26) : opcodeOf (encJ op t) = op := by
  apply BitVec.eq_of_toNat_eq
  simp only [opcodeOf, encJ, toNat_extract, toNat_append]
  have := op.isLt; have := t.isLt
  omega

@[simp] theorem target26_encJ (op : BitVec 6) (t : BitVec 26) : target26Of (encJ op t) = t := by
  apply BitVec.eq_of_toNat_eq
  simp only [target26Of, encJ, toNat_extract, toNat_append]
  have := op.isLt; have := t.isLt
  omega

@[simp] theorem opcode_encFR (fmt ft fs fd : BitVec 5) (fn : BitVec 6) : opcodeOf (encFR fmt ft fs fd fn) = 0x11#6 := by
  apply BitVec.eq_of_toNat_eq
  simp only [opcodeOf, encFR, toNat_extract, toNat_append, BitVec.toNat_ofNat]
  have := fmt.isLt; have := ft.isLt; have := fs.isLt; have := fd.isLt; have := fn.isLt
  omega

@[simp] theorem rs_encFR (fmt ft fs fd : BitVec 5) (fn : BitVec 6) : rsOf (encFR fmt ft fs fd fn) = fmt := by
  apply BitVec.eq_of_toNat_eq
  simp only [rsOf, encFR, toNat_extract, toNat_append, BitVec.toNat_ofNat]
  have := fmt.isLt; have := ft.isLt; have := fs.isLt; have := fd.isLt; have := fn.isLt
  omega

@[simp] theorem rt_encFR (fmt ft fs fd : BitVec 5) (fn : BitVec 6) : rtOf (encFR fmt ft fs fd fn) = ft := by
  apply BitVec.eq_of_toNat_eq
  simp only [rtOf, encFR, toNat_extract, toNat_append, BitVec.toNat_ofNat]
  have := fmt.isLt; have := ft.isLt; have := fs.isLt; have := fd.isLt; have := fn.isLt
  omega

@[simp] theorem rd_encFR (fmt ft fs fd : BitVec 5) (fn : BitVec 6) : rdOf (encFR fmt ft fs fd fn) = fs := by
  apply BitVec.eq_of_toNat_eq
  simp only [rdOf, encFR, toNat_extract, toNat_append, BitVec.toNat_ofNat]
  have := fmt.isLt; have := ft.isLt; have := fs.isLt; have := fd.isLt; have := fn.isLt
  omega

@[simp] theorem shamt_encFR (fmt ft fs fd : BitVec 5) (fn : BitVec 6) : shamtOf (encFR fmt ft fs fd fn) = fd := by
  apply BitVec.eq_of_toNat_eq
  simp only [shamtOf, encFR, toNat_extract, toNat_append, BitVec.toNat_ofNat]
  have := fmt.isLt; have := ft.isLt; have := fs.isLt; have := fd.isLt; have := fn.isLt
  omega

@[simp] theorem funct_encFR (fmt ft fs fd : BitVec 5) (fn : BitVec 6) : functOf (encFR fmt ft fs fd fn) = fn := by
  apply BitVec.eq_of_toNat_eq
  simp only [functOf, encFR, toNat_extract, toNat_append, BitVec.toNat_ofNat]
  have := fmt.isLt; have := ft.isLt; have := fs.isLt; have := fd.isLt; have := fn.isLt
  omega

@[simp] theorem opcode_encCode (code : BitVec 20) (fn : BitVec 6) : opcodeOf (encCode code fn) = 0#6 := by
  apply BitVec.eq_of_toNat_eq
  simp only [opcodeOf, encCode, toNat_extract, toNat_append, BitVec.toNat_ofNat]
  have := code.isLt; have := fn.isLt
  omega

@[simp] theorem code_encCode (code : BitVec 20) (fn : BitVec 6) : codeOf (encCode code fn) = code := by
  apply BitVec.eq_of_toNat_eq
  simp only [codeOf, encCode, toNat_extract, toNat_append, BitVec.toNat_ofNat]
  have := code.isLt; have := fn.isLt
  omega

@[simp] theorem funct_encCode (code : BitVec 20) (fn : BitVec 6) : functOf (encCode code fn) = fn := by
  apply BitVec.eq_of_toNat_eq
  simp only [functOf, encCode, toNat_extract, toNat_append, BitVec.toNat_ofNat]
  have := code.isLt; have := fn.isLt
  omega

/-- The fields of a word, put back by `encR`. -/
theorem encR_fields (w : Word) (h : opcodeOf w = 0#6) : encR (rsOf w) (rtOf w) (rdOf w) (shamtOf w) (functOf w) = w := by
  apply BitVec.eq_of_toNat_eq
  have h := congrArg BitVec.toNat h
  simp only [encR, opcodeOf, rsOf, rtOf, rdOf, shamtOf, functOf, toNat_extract, toNat_append, BitVec.toNat_ofNat] at *
  have := w.isLt
  omega

/-- The fields of a word, put back by `encI`. -/
theorem encI_fields (w : Word) : encI (opcodeOf w) (rsOf w) (rtOf w) (imm16Of w) = w := by
  apply BitVec.eq_of_toNat_eq
  simp only [encI, opcodeOf, rsOf, rtOf, imm16Of, toNat_extract, toNat_append]
  have := w.isLt
  omega

/-- The fields of a word, put back by `encJ`. -/
theorem encJ_fields (w : Word) : encJ (opcodeOf w) (target26Of w) = w := by
  apply BitVec.eq_of_toNat_eq
  simp only [encJ, opcodeOf, target26Of, toNat_extract, toNat_append]
  have := w.isLt
  omega

/-- The fields of a word, put back by `encFR`. -/
theorem encFR_fields (w : Word) (h : opcodeOf w = 0x11#6) : encFR (rsOf w) (rtOf w) (rdOf w) (shamtOf w) (functOf w) = w := by
  apply BitVec.eq_of_toNat_eq
  have h := congrArg BitVec.toNat h
  simp only [encFR, opcodeOf, rsOf, rtOf, rdOf, shamtOf, functOf, toNat_extract, toNat_append, BitVec.toNat_ofNat] at *
  have := w.isLt
  omega

/-- The fields of a word, put back by `encCode`. -/
theorem encCode_fields (w : Word) (h : opcodeOf w = 0#6) : encCode (codeOf w) (functOf w) = w := by
  apply BitVec.eq_of_toNat_eq
  have h := congrArg BitVec.toNat h
  simp only [encCode, opcodeOf, codeOf, functOf, toNat_extract, toNat_append, BitVec.toNat_ofNat] at *
  have := w.isLt
  omega

theorem whenZero_some {z : Bool} {i j : Instr} : whenZero z i = some j ↔ z = true ∧ i = j := by
  cases z <;> simp [whenZero]

theorem decode_ok {w : Word} {i : Instr} : decode w = .ok i ↔ decodeOpcode w = some i := by
  unfold decode; split <;> simp_all

theorem wordOfBytes_bytesOfWord (w : Word) :
    wordOfBytes (w.extractLsb' 0 8) (w.extractLsb' 8 8) (w.extractLsb' 16 8) (w.extractLsb' 24 8) = w := by
  apply BitVec.eq_of_toNat_eq
  simp only [wordOfBytes, toNat_extract, toNat_append]
  have := w.isLt
  omega

/-- Decoding the bytes of a word is decoding the word. -/
theorem decodeBytes_bytesOfWord (w : Word) (rest : List Byte) :
    decodeBytes (bytesOfWord w ++ rest) = (decode w).map (fun i => (i, rest)) := by
  simp only [decodeBytes, bytesOfWord, List.cons_append, List.nil_append, wordOfBytes_bytesOfWord]
  cases decode w <;> rfl

end Sys2Proof.Laws
end

