-- ==== Sys2Proof/Laws/Memory.lean ====
section
/-!
SUPPORT. The laws of the memory: a read after a write, and that every operation keeps the canonical form.
-/

namespace Sys2Proof.Machine

theorem Memory.wfFrom_mono {lo hi : Nat} {m : List Host.Cell} (h : lo ≤ hi) (w : Memory.wfFrom hi m = true) :
    Memory.wfFrom lo m = true := by
  cases m with
  | nil => rfl
  | cons c rest =>
    simp only [Memory.wfFrom, Bool.and_eq_true, decide_eq_true_eq] at w ⊢
    exact ⟨⟨h.trans w.1.1, w.1.2⟩, w.2⟩

/-- Below the lowest listed address every byte reads 0. -/
theorem Memory.read_below {lo : Nat} {m : List Host.Cell} (w : Memory.wfFrom lo m = true) {a : Nat} (h : a < lo) :
    Memory.read m a = 0#8 := by
  cases m with
  | nil => rfl
  | cons c rest =>
    simp only [Memory.wfFrom, Bool.and_eq_true, decide_eq_true_eq] at w
    unfold Memory.read
    rw [if_neg (by omega), if_pos (by omega)]

theorem Memory.wfFrom_write {lo a : Nat} {m : List Host.Cell} (h : lo ≤ a) (w : Memory.wfFrom lo m = true) (v : Byte) :
    Memory.wfFrom lo (Memory.write m a v) = true := by
  induction m generalizing lo with
  | nil =>
    unfold Memory.write
    split
    · rfl
    · simp_all [Memory.wfFrom]
  | cons c rest ih =>
    obtain ⟨b, u⟩ := c
    simp only [Memory.wfFrom, Bool.and_eq_true, decide_eq_true_eq, bne_iff_ne, ne_eq] at w
    obtain ⟨⟨hb, hu⟩, hr⟩ := w
    unfold Memory.write
    split
    · subst_vars
      split
      · exact Memory.wfFrom_mono (by omega) hr
      · simp_all [Memory.wfFrom]
    · split
      · split
        · simp_all [Memory.wfFrom]
        · simp_all [Memory.wfFrom]
      · simp only [Memory.wfFrom, Bool.and_eq_true, decide_eq_true_eq, bne_iff_ne, ne_eq]
        exact ⟨⟨hb, hu⟩, ih (by omega) hr⟩

/-- A write of one byte keeps the canonical form. -/
theorem Memory.wf_write {m : List Host.Cell} (w : Memory.wf m = true) (a : Nat) (v : Byte) :
    Memory.wf (Memory.write m a v) = true :=
  Memory.wfFrom_write (Nat.zero_le a) w v

/-- A write of bytes keeps the canonical form. -/
theorem Memory.wf_writeBytes {m : List Host.Cell} (w : Memory.wf m = true) (a : Nat) (bs : List Byte) :
    Memory.wf (Memory.writeBytes m a bs) = true := by
  induction bs generalizing m a with
  | nil => exact w
  | cons b rest ih => exact ih (Memory.wf_write w a b) (a + 1)

/-- A byte just written reads as written, in a memory of the canonical form. -/
theorem Memory.read_write_same {lo : Nat} {m : List Host.Cell} (w : Memory.wfFrom lo m = true) (a : Nat) (v : Byte) :
    Memory.read (Memory.write m a v) a = v := by
  induction m generalizing lo with
  | nil =>
    unfold Memory.write
    split
    · subst_vars; rfl
    · simp [Memory.read]
  | cons c rest ih =>
    obtain ⟨b, u⟩ := c
    simp only [Memory.wfFrom, Bool.and_eq_true, decide_eq_true_eq, bne_iff_ne, ne_eq] at w
    obtain ⟨⟨hb, hu⟩, hr⟩ := w
    unfold Memory.write
    split
    · subst_vars
      split
      · subst_vars; exact Memory.read_below hr (by omega)
      · simp [Memory.read]
    · split
      · split
        · subst_vars; unfold Memory.read; rw [if_neg (by omega), if_pos (by omega)]
        · simp [Memory.read]
      · unfold Memory.read
        rw [if_neg (by omega), if_neg (by omega)]
        exact ih hr

/-- A byte that is not written reads as before, in a memory of the canonical form. -/
theorem Memory.read_write_other {lo : Nat} {m : List Host.Cell} (w : Memory.wfFrom lo m = true) {a c : Nat} (h : c ≠ a)
    (v : Byte) : Memory.read (Memory.write m a v) c = Memory.read m c := by
  induction m generalizing lo with
  | nil =>
    unfold Memory.write
    split
    · rfl
    · unfold Memory.read; rw [if_neg h]; split <;> rfl
  | cons d rest ih =>
    obtain ⟨b, u⟩ := d
    simp only [Memory.wfFrom, Bool.and_eq_true, decide_eq_true_eq, bne_iff_ne, ne_eq] at w
    obtain ⟨⟨hb, hu⟩, hr⟩ := w
    have low : c < b + 1 → Memory.read rest c = 0#8 := fun hc => Memory.read_below hr hc
    unfold Memory.write
    split
    · rename_i e; subst e
      split
      · by_cases hc : c < a
        · rw [low (by omega)]; unfold Memory.read; rw [if_neg h, if_pos hc]
        · conv => rhs; unfold Memory.read
          rw [if_neg h, if_neg hc]
      · unfold Memory.read; rw [if_neg h, if_neg h]
    · split
      · split
        · rfl
        · by_cases hc : c < a
          · unfold Memory.read; rw [if_neg h, if_pos hc, if_neg (by omega), if_pos (by omega)]
          · conv => lhs; unfold Memory.read
            rw [if_neg h, if_neg hc]
      · unfold Memory.read
        split
        · rfl
        · split
          · rfl
          · exact ih hr

/-- Bytes outside a write of bytes read as before. -/
theorem Memory.read_writeBytes_outside {m : List Host.Cell} (w : Memory.wf m = true) (bs : List Byte) {a c : Nat}
    (h : c < a ∨ a + bs.length ≤ c) : Memory.read (Memory.writeBytes m a bs) c = Memory.read m c := by
  induction bs generalizing m a with
  | nil => rfl
  | cons b rest ih =>
    simp only [List.length_cons] at h
    rw [Memory.writeBytes, ih (Memory.wf_write w a b) (by omega), Memory.read_write_other w (by omega)]

/-- The bytes of a write read back as written. -/
theorem Memory.readBytes_writeBytes {m : List Host.Cell} (w : Memory.wf m = true) (bs : List Byte) (a : Nat) :
    Memory.readBytes (Memory.writeBytes m a bs) a bs.length = bs := by
  induction bs generalizing m a with
  | nil => rfl
  | cons b rest ih =>
    have w' := Memory.wf_write w a b
    rw [List.length_cons, Memory.readBytes, Memory.writeBytes, ih w' (a + 1),
      Memory.read_writeBytes_outside w' rest (by omega), Memory.read_write_same w]

/-- The k-th byte of a write reads back as written. -/
theorem Memory.read_writeBytes_inside {m : List Host.Cell} (w : Memory.wf m = true) (bs : List Byte) (a k : Nat)
    (h : k < bs.length) : Memory.read (Memory.writeBytes m a bs) (a + k) = bs[k] := by
  induction bs generalizing m a k with
  | nil => simp at h
  | cons b rest ih =>
    have w' := Memory.wf_write w a b
    cases k with
    | zero =>
      rw [Memory.writeBytes, Memory.read_writeBytes_outside w' rest (by omega), Nat.add_zero,
        Memory.read_write_same w, List.getElem_cons_zero]
    | succ k =>
      simp only [List.length_cons] at h
      rw [Memory.writeBytes, show a + (k + 1) = a + 1 + k from by omega, ih w' (a + 1) k (by omega),
        List.getElem_cons_succ]

@[simp] theorem Memory.length_readBytes (m : List Host.Cell) (a n : Nat) : (Memory.readBytes m a n).length = n := by
  induction n generalizing a with
  | zero => rfl
  | succ k ih => rw [Memory.readBytes, List.length_cons, ih]

/-- The memory after construction has the canonical form. -/
theorem State.construct_mem_wf (c : Config) : Memory.wf (State.construct c).mem = true := rfl

@[simp] theorem Width.length_bytesOf (w : Width) (v : Word) : (w.bytesOf v).length = w.bytes := by
  cases w <;> rfl

end Sys2Proof.Machine
end

