-- ==== Sys2Proof/Laws/State.lean ====
section
/-!
SUPPORT. What each update of the state does to each field, so that no later proof unfolds a record update.
-/

namespace Sys2Proof.Machine

/-! `setGpr` changes `gpr` alone. -/

@[simp] theorem State.setGpr_cfg (s : State) (r : RegIdx) (v : Word) : (s.setGpr r v).cfg = s.cfg := by
  unfold State.setGpr; split <;> rfl
@[simp] theorem State.setGpr_hi (s : State) (r : RegIdx) (v : Word) : (s.setGpr r v).hi = s.hi := by
  unfold State.setGpr; split <;> rfl
@[simp] theorem State.setGpr_lo (s : State) (r : RegIdx) (v : Word) : (s.setGpr r v).lo = s.lo := by
  unfold State.setGpr; split <;> rfl
@[simp] theorem State.setGpr_pc (s : State) (r : RegIdx) (v : Word) : (s.setGpr r v).pc = s.pc := by
  unfold State.setGpr; split <;> rfl
@[simp] theorem State.setGpr_fpr (s : State) (r : RegIdx) (v : Word) : (s.setGpr r v).fpr = s.fpr := by
  unfold State.setGpr; split <;> rfl
@[simp] theorem State.setGpr_fcc (s : State) (r : RegIdx) (v : Word) : (s.setGpr r v).fcc = s.fcc := by
  unfold State.setGpr; split <;> rfl
@[simp] theorem State.setGpr_mem (s : State) (r : RegIdx) (v : Word) : (s.setGpr r v).mem = s.mem := by
  unfold State.setGpr; split <;> rfl
@[simp] theorem State.setGpr_roArmed (s : State) (r : RegIdx) (v : Word) : (s.setGpr r v).roArmed = s.roArmed := by
  unfold State.setGpr; split <;> rfl
@[simp] theorem State.setGpr_out (s : State) (r : RegIdx) (v : Word) : (s.setGpr r v).out = s.out := by
  unfold State.setGpr; split <;> rfl
@[simp] theorem State.setGpr_inp (s : State) (r : RegIdx) (v : Word) : (s.setGpr r v).inp = s.inp := by
  unfold State.setGpr; split <;> rfl
@[simp] theorem State.setGpr_status (s : State) (r : RegIdx) (v : Word) : (s.setGpr r v).status = s.status := by
  unfold State.setGpr; split <;> rfl
@[simp] theorem State.setGpr_steps (s : State) (r : RegIdx) (v : Word) : (s.setGpr r v).steps = s.steps := by
  unfold State.setGpr; split <;> rfl
@[simp] theorem State.setGpr_draws (s : State) (r : RegIdx) (v : Word) : (s.setGpr r v).draws = s.draws := by
  unfold State.setGpr; split <;> rfl
@[simp] theorem State.setGpr_micro (s : State) (r : RegIdx) (v : Word) : (s.setGpr r v).micro = s.micro := by
  unfold State.setGpr; split <;> rfl

@[simp] theorem State.setHi_cfg (s : State) (v : Word) : (s.setHi v).cfg = s.cfg := rfl
@[simp] theorem State.setHi_gpr (s : State) (v : Word) : (s.setHi v).gpr = s.gpr := rfl
@[simp] theorem State.setHi_hi (s : State) (v : Word) : (s.setHi v).hi = v := rfl
@[simp] theorem State.setHi_lo (s : State) (v : Word) : (s.setHi v).lo = s.lo := rfl
@[simp] theorem State.setHi_pc (s : State) (v : Word) : (s.setHi v).pc = s.pc := rfl
@[simp] theorem State.setHi_fpr (s : State) (v : Word) : (s.setHi v).fpr = s.fpr := rfl
@[simp] theorem State.setHi_fcc (s : State) (v : Word) : (s.setHi v).fcc = s.fcc := rfl
@[simp] theorem State.setHi_mem (s : State) (v : Word) : (s.setHi v).mem = s.mem := rfl
@[simp] theorem State.setHi_roArmed (s : State) (v : Word) : (s.setHi v).roArmed = s.roArmed := rfl
@[simp] theorem State.setHi_out (s : State) (v : Word) : (s.setHi v).out = s.out := rfl
@[simp] theorem State.setHi_inp (s : State) (v : Word) : (s.setHi v).inp = s.inp := rfl
@[simp] theorem State.setHi_status (s : State) (v : Word) : (s.setHi v).status = s.status := rfl
@[simp] theorem State.setHi_steps (s : State) (v : Word) : (s.setHi v).steps = s.steps := rfl
@[simp] theorem State.setHi_draws (s : State) (v : Word) : (s.setHi v).draws = s.draws := rfl
@[simp] theorem State.setHi_micro (s : State) (v : Word) : (s.setHi v).micro = s.micro := rfl

@[simp] theorem State.setLo_cfg (s : State) (v : Word) : (s.setLo v).cfg = s.cfg := rfl
@[simp] theorem State.setLo_gpr (s : State) (v : Word) : (s.setLo v).gpr = s.gpr := rfl
@[simp] theorem State.setLo_hi (s : State) (v : Word) : (s.setLo v).hi = s.hi := rfl
@[simp] theorem State.setLo_lo (s : State) (v : Word) : (s.setLo v).lo = v := rfl
@[simp] theorem State.setLo_pc (s : State) (v : Word) : (s.setLo v).pc = s.pc := rfl
@[simp] theorem State.setLo_fpr (s : State) (v : Word) : (s.setLo v).fpr = s.fpr := rfl
@[simp] theorem State.setLo_fcc (s : State) (v : Word) : (s.setLo v).fcc = s.fcc := rfl
@[simp] theorem State.setLo_mem (s : State) (v : Word) : (s.setLo v).mem = s.mem := rfl
@[simp] theorem State.setLo_roArmed (s : State) (v : Word) : (s.setLo v).roArmed = s.roArmed := rfl
@[simp] theorem State.setLo_out (s : State) (v : Word) : (s.setLo v).out = s.out := rfl
@[simp] theorem State.setLo_inp (s : State) (v : Word) : (s.setLo v).inp = s.inp := rfl
@[simp] theorem State.setLo_status (s : State) (v : Word) : (s.setLo v).status = s.status := rfl
@[simp] theorem State.setLo_steps (s : State) (v : Word) : (s.setLo v).steps = s.steps := rfl
@[simp] theorem State.setLo_draws (s : State) (v : Word) : (s.setLo v).draws = s.draws := rfl
@[simp] theorem State.setLo_micro (s : State) (v : Word) : (s.setLo v).micro = s.micro := rfl

@[simp] theorem State.setFcc_cfg (s : State) (b : Bool) : (s.setFcc b).cfg = s.cfg := rfl
@[simp] theorem State.setFcc_gpr (s : State) (b : Bool) : (s.setFcc b).gpr = s.gpr := rfl
@[simp] theorem State.setFcc_hi (s : State) (b : Bool) : (s.setFcc b).hi = s.hi := rfl
@[simp] theorem State.setFcc_lo (s : State) (b : Bool) : (s.setFcc b).lo = s.lo := rfl
@[simp] theorem State.setFcc_pc (s : State) (b : Bool) : (s.setFcc b).pc = s.pc := rfl
@[simp] theorem State.setFcc_fpr (s : State) (b : Bool) : (s.setFcc b).fpr = s.fpr := rfl
@[simp] theorem State.setFcc_fcc (s : State) (b : Bool) : (s.setFcc b).fcc = b := rfl
@[simp] theorem State.setFcc_mem (s : State) (b : Bool) : (s.setFcc b).mem = s.mem := rfl
@[simp] theorem State.setFcc_roArmed (s : State) (b : Bool) : (s.setFcc b).roArmed = s.roArmed := rfl
@[simp] theorem State.setFcc_out (s : State) (b : Bool) : (s.setFcc b).out = s.out := rfl
@[simp] theorem State.setFcc_inp (s : State) (b : Bool) : (s.setFcc b).inp = s.inp := rfl
@[simp] theorem State.setFcc_status (s : State) (b : Bool) : (s.setFcc b).status = s.status := rfl
@[simp] theorem State.setFcc_steps (s : State) (b : Bool) : (s.setFcc b).steps = s.steps := rfl
@[simp] theorem State.setFcc_draws (s : State) (b : Bool) : (s.setFcc b).draws = s.draws := rfl
@[simp] theorem State.setFcc_micro (s : State) (b : Bool) : (s.setFcc b).micro = s.micro := rfl

@[simp] theorem State.setPc_cfg (s : State) (a : Word) : (s.setPc a).cfg = s.cfg := rfl
@[simp] theorem State.setPc_gpr (s : State) (a : Word) : (s.setPc a).gpr = s.gpr := rfl
@[simp] theorem State.setPc_hi (s : State) (a : Word) : (s.setPc a).hi = s.hi := rfl
@[simp] theorem State.setPc_lo (s : State) (a : Word) : (s.setPc a).lo = s.lo := rfl
@[simp] theorem State.setPc_pc (s : State) (a : Word) : (s.setPc a).pc = a := rfl
@[simp] theorem State.setPc_fpr (s : State) (a : Word) : (s.setPc a).fpr = s.fpr := rfl
@[simp] theorem State.setPc_fcc (s : State) (a : Word) : (s.setPc a).fcc = s.fcc := rfl
@[simp] theorem State.setPc_mem (s : State) (a : Word) : (s.setPc a).mem = s.mem := rfl
@[simp] theorem State.setPc_roArmed (s : State) (a : Word) : (s.setPc a).roArmed = s.roArmed := rfl
@[simp] theorem State.setPc_out (s : State) (a : Word) : (s.setPc a).out = s.out := rfl
@[simp] theorem State.setPc_inp (s : State) (a : Word) : (s.setPc a).inp = s.inp := rfl
@[simp] theorem State.setPc_status (s : State) (a : Word) : (s.setPc a).status = s.status := rfl
@[simp] theorem State.setPc_steps (s : State) (a : Word) : (s.setPc a).steps = s.steps := rfl
@[simp] theorem State.setPc_draws (s : State) (a : Word) : (s.setPc a).draws = s.draws := rfl
@[simp] theorem State.setPc_micro (s : State) (a : Word) : (s.setPc a).micro = s.micro := rfl

@[simp] theorem State.advance_cfg (s : State) : (s.advance).cfg = s.cfg := rfl
@[simp] theorem State.advance_gpr (s : State) : (s.advance).gpr = s.gpr := rfl
@[simp] theorem State.advance_hi (s : State) : (s.advance).hi = s.hi := rfl
@[simp] theorem State.advance_lo (s : State) : (s.advance).lo = s.lo := rfl
@[simp] theorem State.advance_pc (s : State) : (s.advance).pc = s.pc + 4#32 := rfl
@[simp] theorem State.advance_fpr (s : State) : (s.advance).fpr = s.fpr := rfl
@[simp] theorem State.advance_fcc (s : State) : (s.advance).fcc = s.fcc := rfl
@[simp] theorem State.advance_mem (s : State) : (s.advance).mem = s.mem := rfl
@[simp] theorem State.advance_roArmed (s : State) : (s.advance).roArmed = s.roArmed := rfl
@[simp] theorem State.advance_out (s : State) : (s.advance).out = s.out := rfl
@[simp] theorem State.advance_inp (s : State) : (s.advance).inp = s.inp := rfl
@[simp] theorem State.advance_status (s : State) : (s.advance).status = s.status := rfl
@[simp] theorem State.advance_steps (s : State) : (s.advance).steps = s.steps := rfl
@[simp] theorem State.advance_draws (s : State) : (s.advance).draws = s.draws := rfl
@[simp] theorem State.advance_micro (s : State) : (s.advance).micro = s.micro := rfl

@[simp] theorem State.setStatus_cfg (s : State) (r : RunStatus) : (s.setStatus r).cfg = s.cfg := rfl
@[simp] theorem State.setStatus_gpr (s : State) (r : RunStatus) : (s.setStatus r).gpr = s.gpr := rfl
@[simp] theorem State.setStatus_hi (s : State) (r : RunStatus) : (s.setStatus r).hi = s.hi := rfl
@[simp] theorem State.setStatus_lo (s : State) (r : RunStatus) : (s.setStatus r).lo = s.lo := rfl
@[simp] theorem State.setStatus_pc (s : State) (r : RunStatus) : (s.setStatus r).pc = s.pc := rfl
@[simp] theorem State.setStatus_fpr (s : State) (r : RunStatus) : (s.setStatus r).fpr = s.fpr := rfl
@[simp] theorem State.setStatus_fcc (s : State) (r : RunStatus) : (s.setStatus r).fcc = s.fcc := rfl
@[simp] theorem State.setStatus_mem (s : State) (r : RunStatus) : (s.setStatus r).mem = s.mem := rfl
@[simp] theorem State.setStatus_roArmed (s : State) (r : RunStatus) : (s.setStatus r).roArmed = s.roArmed := rfl
@[simp] theorem State.setStatus_out (s : State) (r : RunStatus) : (s.setStatus r).out = s.out := rfl
@[simp] theorem State.setStatus_inp (s : State) (r : RunStatus) : (s.setStatus r).inp = s.inp := rfl
@[simp] theorem State.setStatus_status (s : State) (r : RunStatus) : (s.setStatus r).status = r := rfl
@[simp] theorem State.setStatus_steps (s : State) (r : RunStatus) : (s.setStatus r).steps = s.steps := rfl
@[simp] theorem State.setStatus_draws (s : State) (r : RunStatus) : (s.setStatus r).draws = s.draws := rfl
@[simp] theorem State.setStatus_micro (s : State) (r : RunStatus) : (s.setStatus r).micro = s.micro := rfl

@[simp] theorem State.storeBytes_cfg (s : State) (a : Nat) (bs : List Byte) : (s.storeBytes a bs).cfg = s.cfg := rfl
@[simp] theorem State.storeBytes_gpr (s : State) (a : Nat) (bs : List Byte) : (s.storeBytes a bs).gpr = s.gpr := rfl
@[simp] theorem State.storeBytes_hi (s : State) (a : Nat) (bs : List Byte) : (s.storeBytes a bs).hi = s.hi := rfl
@[simp] theorem State.storeBytes_lo (s : State) (a : Nat) (bs : List Byte) : (s.storeBytes a bs).lo = s.lo := rfl
@[simp] theorem State.storeBytes_pc (s : State) (a : Nat) (bs : List Byte) : (s.storeBytes a bs).pc = s.pc := rfl
@[simp] theorem State.storeBytes_fpr (s : State) (a : Nat) (bs : List Byte) : (s.storeBytes a bs).fpr = s.fpr := rfl
@[simp] theorem State.storeBytes_fcc (s : State) (a : Nat) (bs : List Byte) : (s.storeBytes a bs).fcc = s.fcc := rfl
@[simp] theorem State.storeBytes_mem (s : State) (a : Nat) (bs : List Byte) : (s.storeBytes a bs).mem = Memory.writeBytes s.mem a bs := rfl
@[simp] theorem State.storeBytes_roArmed (s : State) (a : Nat) (bs : List Byte) : (s.storeBytes a bs).roArmed = s.roArmed := rfl
@[simp] theorem State.storeBytes_out (s : State) (a : Nat) (bs : List Byte) : (s.storeBytes a bs).out = s.out := rfl
@[simp] theorem State.storeBytes_inp (s : State) (a : Nat) (bs : List Byte) : (s.storeBytes a bs).inp = s.inp := rfl
@[simp] theorem State.storeBytes_status (s : State) (a : Nat) (bs : List Byte) : (s.storeBytes a bs).status = s.status := rfl
@[simp] theorem State.storeBytes_steps (s : State) (a : Nat) (bs : List Byte) : (s.storeBytes a bs).steps = s.steps := rfl
@[simp] theorem State.storeBytes_draws (s : State) (a : Nat) (bs : List Byte) : (s.storeBytes a bs).draws = s.draws := rfl
@[simp] theorem State.storeBytes_micro (s : State) (a : Nat) (bs : List Byte) : (s.storeBytes a bs).micro = s.micro := rfl

@[simp] theorem State.countStep_cfg (s : State) : (s.countStep).cfg = s.cfg := rfl
@[simp] theorem State.countStep_gpr (s : State) : (s.countStep).gpr = s.gpr := rfl
@[simp] theorem State.countStep_hi (s : State) : (s.countStep).hi = s.hi := rfl
@[simp] theorem State.countStep_lo (s : State) : (s.countStep).lo = s.lo := rfl
@[simp] theorem State.countStep_pc (s : State) : (s.countStep).pc = s.pc := rfl
@[simp] theorem State.countStep_fpr (s : State) : (s.countStep).fpr = s.fpr := rfl
@[simp] theorem State.countStep_fcc (s : State) : (s.countStep).fcc = s.fcc := rfl
@[simp] theorem State.countStep_mem (s : State) : (s.countStep).mem = s.mem := rfl
@[simp] theorem State.countStep_roArmed (s : State) : (s.countStep).roArmed = s.roArmed := rfl
@[simp] theorem State.countStep_out (s : State) : (s.countStep).out = s.out := rfl
@[simp] theorem State.countStep_inp (s : State) : (s.countStep).inp = s.inp := rfl
@[simp] theorem State.countStep_status (s : State) : (s.countStep).status = s.status := rfl
@[simp] theorem State.countStep_steps (s : State) : (s.countStep).steps = s.steps + 1 := rfl
@[simp] theorem State.countStep_draws (s : State) : (s.countStep).draws = s.draws := rfl
@[simp] theorem State.countStep_micro (s : State) : (s.countStep).micro = s.micro := rfl

@[simp] theorem State.drawn_cfg (s : State) : (s.drawn).cfg = s.cfg := rfl
@[simp] theorem State.drawn_gpr (s : State) : (s.drawn).gpr = s.gpr := rfl
@[simp] theorem State.drawn_hi (s : State) : (s.drawn).hi = s.hi := rfl
@[simp] theorem State.drawn_lo (s : State) : (s.drawn).lo = s.lo := rfl
@[simp] theorem State.drawn_pc (s : State) : (s.drawn).pc = s.pc := rfl
@[simp] theorem State.drawn_fpr (s : State) : (s.drawn).fpr = s.fpr := rfl
@[simp] theorem State.drawn_fcc (s : State) : (s.drawn).fcc = s.fcc := rfl
@[simp] theorem State.drawn_mem (s : State) : (s.drawn).mem = s.mem := rfl
@[simp] theorem State.drawn_roArmed (s : State) : (s.drawn).roArmed = s.roArmed := rfl
@[simp] theorem State.drawn_out (s : State) : (s.drawn).out = s.out := rfl
@[simp] theorem State.drawn_inp (s : State) : (s.drawn).inp = s.inp := rfl
@[simp] theorem State.drawn_status (s : State) : (s.drawn).status = s.status := rfl
@[simp] theorem State.drawn_steps (s : State) : (s.drawn).steps = s.steps := rfl
@[simp] theorem State.drawn_draws (s : State) : (s.drawn).draws = s.draws + 1 := rfl
@[simp] theorem State.drawn_micro (s : State) : (s.drawn).micro = s.micro := rfl

@[simp] theorem State.emit_cfg (s : State) (e : OutEvent) : (s.emit e).cfg = s.cfg := rfl
@[simp] theorem State.emit_gpr (s : State) (e : OutEvent) : (s.emit e).gpr = s.gpr := rfl
@[simp] theorem State.emit_hi (s : State) (e : OutEvent) : (s.emit e).hi = s.hi := rfl
@[simp] theorem State.emit_lo (s : State) (e : OutEvent) : (s.emit e).lo = s.lo := rfl
@[simp] theorem State.emit_pc (s : State) (e : OutEvent) : (s.emit e).pc = s.pc := rfl
@[simp] theorem State.emit_fpr (s : State) (e : OutEvent) : (s.emit e).fpr = s.fpr := rfl
@[simp] theorem State.emit_fcc (s : State) (e : OutEvent) : (s.emit e).fcc = s.fcc := rfl
@[simp] theorem State.emit_mem (s : State) (e : OutEvent) : (s.emit e).mem = s.mem := rfl
@[simp] theorem State.emit_roArmed (s : State) (e : OutEvent) : (s.emit e).roArmed = s.roArmed := rfl
@[simp] theorem State.emit_out (s : State) (e : OutEvent) : (s.emit e).out = s.out ++ [e] := rfl
@[simp] theorem State.emit_inp (s : State) (e : OutEvent) : (s.emit e).inp = s.inp := rfl
@[simp] theorem State.emit_status (s : State) (e : OutEvent) : (s.emit e).status = s.status := rfl
@[simp] theorem State.emit_steps (s : State) (e : OutEvent) : (s.emit e).steps = s.steps := rfl
@[simp] theorem State.emit_draws (s : State) (e : OutEvent) : (s.emit e).draws = s.draws := rfl
@[simp] theorem State.emit_micro (s : State) (e : OutEvent) : (s.emit e).micro = s.micro := rfl

@[simp] theorem State.setFpr_cfg (s : State) (r : RegIdx) (v : Word) : (s.setFpr r v).cfg = s.cfg := rfl
@[simp] theorem State.setFpr_gpr (s : State) (r : RegIdx) (v : Word) : (s.setFpr r v).gpr = s.gpr := rfl
@[simp] theorem State.setFpr_hi (s : State) (r : RegIdx) (v : Word) : (s.setFpr r v).hi = s.hi := rfl
@[simp] theorem State.setFpr_lo (s : State) (r : RegIdx) (v : Word) : (s.setFpr r v).lo = s.lo := rfl
@[simp] theorem State.setFpr_pc (s : State) (r : RegIdx) (v : Word) : (s.setFpr r v).pc = s.pc := rfl
@[simp] theorem State.setFpr_fpr (s : State) (r : RegIdx) (v : Word) : (s.setFpr r v).fpr = s.fpr.set r.toNat v r.isLt := rfl
@[simp] theorem State.setFpr_fcc (s : State) (r : RegIdx) (v : Word) : (s.setFpr r v).fcc = s.fcc := rfl
@[simp] theorem State.setFpr_mem (s : State) (r : RegIdx) (v : Word) : (s.setFpr r v).mem = s.mem := rfl
@[simp] theorem State.setFpr_roArmed (s : State) (r : RegIdx) (v : Word) : (s.setFpr r v).roArmed = s.roArmed := rfl
@[simp] theorem State.setFpr_out (s : State) (r : RegIdx) (v : Word) : (s.setFpr r v).out = s.out := rfl
@[simp] theorem State.setFpr_inp (s : State) (r : RegIdx) (v : Word) : (s.setFpr r v).inp = s.inp := rfl
@[simp] theorem State.setFpr_status (s : State) (r : RegIdx) (v : Word) : (s.setFpr r v).status = s.status := rfl
@[simp] theorem State.setFpr_steps (s : State) (r : RegIdx) (v : Word) : (s.setFpr r v).steps = s.steps := rfl
@[simp] theorem State.setFpr_draws (s : State) (r : RegIdx) (v : Word) : (s.setFpr r v).draws = s.draws := rfl
@[simp] theorem State.setFpr_micro (s : State) (r : RegIdx) (v : Word) : (s.setFpr r v).micro = s.micro := rfl

@[simp] theorem State.drawHiLo_cfg (s : State) : (s.drawHiLo).cfg = s.cfg := rfl
@[simp] theorem State.drawHiLo_gpr (s : State) : (s.drawHiLo).gpr = s.gpr := rfl
@[simp] theorem State.drawHiLo_hi (s : State) : (s.drawHiLo).hi = s.draw := rfl
@[simp] theorem State.drawHiLo_lo (s : State) : (s.drawHiLo).lo = s.drawn.draw := rfl
@[simp] theorem State.drawHiLo_pc (s : State) : (s.drawHiLo).pc = s.pc := rfl
@[simp] theorem State.drawHiLo_fpr (s : State) : (s.drawHiLo).fpr = s.fpr := rfl
@[simp] theorem State.drawHiLo_fcc (s : State) : (s.drawHiLo).fcc = s.fcc := rfl
@[simp] theorem State.drawHiLo_mem (s : State) : (s.drawHiLo).mem = s.mem := rfl
@[simp] theorem State.drawHiLo_roArmed (s : State) : (s.drawHiLo).roArmed = s.roArmed := rfl
@[simp] theorem State.drawHiLo_out (s : State) : (s.drawHiLo).out = s.out := rfl
@[simp] theorem State.drawHiLo_inp (s : State) : (s.drawHiLo).inp = s.inp := rfl
@[simp] theorem State.drawHiLo_status (s : State) : (s.drawHiLo).status = s.status := rfl
@[simp] theorem State.drawHiLo_steps (s : State) : (s.drawHiLo).steps = s.steps := rfl
@[simp] theorem State.drawHiLo_draws (s : State) : (s.drawHiLo).draws = s.draws + 1 + 1 := rfl
@[simp] theorem State.drawHiLo_micro (s : State) : (s.drawHiLo).micro = s.micro := rfl

@[simp] theorem State.setDraws_cfg (s : State) (n : Nat) : (s.setDraws n).cfg = s.cfg := rfl
@[simp] theorem State.setDraws_gpr (s : State) (n : Nat) : (s.setDraws n).gpr = s.gpr := rfl
@[simp] theorem State.setDraws_hi (s : State) (n : Nat) : (s.setDraws n).hi = s.hi := rfl
@[simp] theorem State.setDraws_lo (s : State) (n : Nat) : (s.setDraws n).lo = s.lo := rfl
@[simp] theorem State.setDraws_pc (s : State) (n : Nat) : (s.setDraws n).pc = s.pc := rfl
@[simp] theorem State.setDraws_fpr (s : State) (n : Nat) : (s.setDraws n).fpr = s.fpr := rfl
@[simp] theorem State.setDraws_fcc (s : State) (n : Nat) : (s.setDraws n).fcc = s.fcc := rfl
@[simp] theorem State.setDraws_mem (s : State) (n : Nat) : (s.setDraws n).mem = s.mem := rfl
@[simp] theorem State.setDraws_roArmed (s : State) (n : Nat) : (s.setDraws n).roArmed = s.roArmed := rfl
@[simp] theorem State.setDraws_out (s : State) (n : Nat) : (s.setDraws n).out = s.out := rfl
@[simp] theorem State.setDraws_inp (s : State) (n : Nat) : (s.setDraws n).inp = s.inp := rfl
@[simp] theorem State.setDraws_status (s : State) (n : Nat) : (s.setDraws n).status = s.status := rfl
@[simp] theorem State.setDraws_steps (s : State) (n : Nat) : (s.setDraws n).steps = s.steps := rfl
@[simp] theorem State.setDraws_draws (s : State) (n : Nat) : (s.setDraws n).draws = n := rfl
@[simp] theorem State.setDraws_micro (s : State) (n : Nat) : (s.setDraws n).micro = s.micro := rfl

/-! Updates of the timing engines' state. -/

@[simp] theorem State.setPipe_cfg (s : State) (p : Pipe) : (s.setPipe p).cfg = s.cfg := rfl
@[simp] theorem State.setPipe_gpr (s : State) (p : Pipe) : (s.setPipe p).gpr = s.gpr := rfl
@[simp] theorem State.setPipe_hi (s : State) (p : Pipe) : (s.setPipe p).hi = s.hi := rfl
@[simp] theorem State.setPipe_lo (s : State) (p : Pipe) : (s.setPipe p).lo = s.lo := rfl
@[simp] theorem State.setPipe_pc (s : State) (p : Pipe) : (s.setPipe p).pc = s.pc := rfl
@[simp] theorem State.setPipe_fpr (s : State) (p : Pipe) : (s.setPipe p).fpr = s.fpr := rfl
@[simp] theorem State.setPipe_fcc (s : State) (p : Pipe) : (s.setPipe p).fcc = s.fcc := rfl
@[simp] theorem State.setPipe_mem (s : State) (p : Pipe) : (s.setPipe p).mem = s.mem := rfl
@[simp] theorem State.setPipe_roArmed (s : State) (p : Pipe) : (s.setPipe p).roArmed = s.roArmed := rfl
@[simp] theorem State.setPipe_out (s : State) (p : Pipe) : (s.setPipe p).out = s.out := rfl
@[simp] theorem State.setPipe_inp (s : State) (p : Pipe) : (s.setPipe p).inp = s.inp := rfl
@[simp] theorem State.setPipe_status (s : State) (p : Pipe) : (s.setPipe p).status = s.status := rfl
@[simp] theorem State.setPipe_steps (s : State) (p : Pipe) : (s.setPipe p).steps = s.steps := rfl
@[simp] theorem State.setPipe_draws (s : State) (p : Pipe) : (s.setPipe p).draws = s.draws := rfl

@[simp] theorem State.setOoo_cfg (s : State) (o : Ooo) : (s.setOoo o).cfg = s.cfg := rfl
@[simp] theorem State.setOoo_gpr (s : State) (o : Ooo) : (s.setOoo o).gpr = s.gpr := rfl
@[simp] theorem State.setOoo_hi (s : State) (o : Ooo) : (s.setOoo o).hi = s.hi := rfl
@[simp] theorem State.setOoo_lo (s : State) (o : Ooo) : (s.setOoo o).lo = s.lo := rfl
@[simp] theorem State.setOoo_pc (s : State) (o : Ooo) : (s.setOoo o).pc = s.pc := rfl
@[simp] theorem State.setOoo_fpr (s : State) (o : Ooo) : (s.setOoo o).fpr = s.fpr := rfl
@[simp] theorem State.setOoo_fcc (s : State) (o : Ooo) : (s.setOoo o).fcc = s.fcc := rfl
@[simp] theorem State.setOoo_mem (s : State) (o : Ooo) : (s.setOoo o).mem = s.mem := rfl
@[simp] theorem State.setOoo_roArmed (s : State) (o : Ooo) : (s.setOoo o).roArmed = s.roArmed := rfl
@[simp] theorem State.setOoo_out (s : State) (o : Ooo) : (s.setOoo o).out = s.out := rfl
@[simp] theorem State.setOoo_inp (s : State) (o : Ooo) : (s.setOoo o).inp = s.inp := rfl
@[simp] theorem State.setOoo_status (s : State) (o : Ooo) : (s.setOoo o).status = s.status := rfl
@[simp] theorem State.setOoo_steps (s : State) (o : Ooo) : (s.setOoo o).steps = s.steps := rfl
@[simp] theorem State.setOoo_draws (s : State) (o : Ooo) : (s.setOoo o).draws = s.draws := rfl

@[simp] theorem State.countCycle_cfg (s : State) : (s.countCycle).cfg = s.cfg := rfl
@[simp] theorem State.countCycle_gpr (s : State) : (s.countCycle).gpr = s.gpr := rfl
@[simp] theorem State.countCycle_hi (s : State) : (s.countCycle).hi = s.hi := rfl
@[simp] theorem State.countCycle_lo (s : State) : (s.countCycle).lo = s.lo := rfl
@[simp] theorem State.countCycle_pc (s : State) : (s.countCycle).pc = s.pc := rfl
@[simp] theorem State.countCycle_fpr (s : State) : (s.countCycle).fpr = s.fpr := rfl
@[simp] theorem State.countCycle_fcc (s : State) : (s.countCycle).fcc = s.fcc := rfl
@[simp] theorem State.countCycle_mem (s : State) : (s.countCycle).mem = s.mem := rfl
@[simp] theorem State.countCycle_roArmed (s : State) : (s.countCycle).roArmed = s.roArmed := rfl
@[simp] theorem State.countCycle_out (s : State) : (s.countCycle).out = s.out := rfl
@[simp] theorem State.countCycle_inp (s : State) : (s.countCycle).inp = s.inp := rfl
@[simp] theorem State.countCycle_status (s : State) : (s.countCycle).status = s.status := rfl
@[simp] theorem State.countCycle_steps (s : State) : (s.countCycle).steps = s.steps := rfl
@[simp] theorem State.countCycle_draws (s : State) : (s.countCycle).draws = s.draws := rfl

@[simp] theorem State.countCommitted_cfg (s : State) : (s.countCommitted).cfg = s.cfg := rfl
@[simp] theorem State.countCommitted_gpr (s : State) : (s.countCommitted).gpr = s.gpr := rfl
@[simp] theorem State.countCommitted_hi (s : State) : (s.countCommitted).hi = s.hi := rfl
@[simp] theorem State.countCommitted_lo (s : State) : (s.countCommitted).lo = s.lo := rfl
@[simp] theorem State.countCommitted_pc (s : State) : (s.countCommitted).pc = s.pc := rfl
@[simp] theorem State.countCommitted_fpr (s : State) : (s.countCommitted).fpr = s.fpr := rfl
@[simp] theorem State.countCommitted_fcc (s : State) : (s.countCommitted).fcc = s.fcc := rfl
@[simp] theorem State.countCommitted_mem (s : State) : (s.countCommitted).mem = s.mem := rfl
@[simp] theorem State.countCommitted_roArmed (s : State) : (s.countCommitted).roArmed = s.roArmed := rfl
@[simp] theorem State.countCommitted_out (s : State) : (s.countCommitted).out = s.out := rfl
@[simp] theorem State.countCommitted_inp (s : State) : (s.countCommitted).inp = s.inp := rfl
@[simp] theorem State.countCommitted_status (s : State) : (s.countCommitted).status = s.status := rfl
@[simp] theorem State.countCommitted_steps (s : State) : (s.countCommitted).steps = s.steps := rfl
@[simp] theorem State.countCommitted_draws (s : State) : (s.countCommitted).draws = s.draws := rfl

@[simp] theorem State.restartFetch_cfg (s : State) (a : Word) : (s.restartFetch a).cfg = s.cfg := rfl
@[simp] theorem State.restartFetch_gpr (s : State) (a : Word) : (s.restartFetch a).gpr = s.gpr := rfl
@[simp] theorem State.restartFetch_hi (s : State) (a : Word) : (s.restartFetch a).hi = s.hi := rfl
@[simp] theorem State.restartFetch_lo (s : State) (a : Word) : (s.restartFetch a).lo = s.lo := rfl
@[simp] theorem State.restartFetch_pc (s : State) (a : Word) : (s.restartFetch a).pc = s.pc := rfl
@[simp] theorem State.restartFetch_fpr (s : State) (a : Word) : (s.restartFetch a).fpr = s.fpr := rfl
@[simp] theorem State.restartFetch_fcc (s : State) (a : Word) : (s.restartFetch a).fcc = s.fcc := rfl
@[simp] theorem State.restartFetch_mem (s : State) (a : Word) : (s.restartFetch a).mem = s.mem := rfl
@[simp] theorem State.restartFetch_roArmed (s : State) (a : Word) : (s.restartFetch a).roArmed = s.roArmed := rfl
@[simp] theorem State.restartFetch_out (s : State) (a : Word) : (s.restartFetch a).out = s.out := rfl
@[simp] theorem State.restartFetch_inp (s : State) (a : Word) : (s.restartFetch a).inp = s.inp := rfl
@[simp] theorem State.restartFetch_status (s : State) (a : Word) : (s.restartFetch a).status = s.status := rfl
@[simp] theorem State.restartFetch_steps (s : State) (a : Word) : (s.restartFetch a).steps = s.steps := rfl
@[simp] theorem State.restartFetch_draws (s : State) (a : Word) : (s.restartFetch a).draws = s.draws := rfl

@[simp] theorem State.stopFetch_cfg (s : State) : (s.stopFetch).cfg = s.cfg := rfl
@[simp] theorem State.stopFetch_gpr (s : State) : (s.stopFetch).gpr = s.gpr := rfl
@[simp] theorem State.stopFetch_hi (s : State) : (s.stopFetch).hi = s.hi := rfl
@[simp] theorem State.stopFetch_lo (s : State) : (s.stopFetch).lo = s.lo := rfl
@[simp] theorem State.stopFetch_pc (s : State) : (s.stopFetch).pc = s.pc := rfl
@[simp] theorem State.stopFetch_fpr (s : State) : (s.stopFetch).fpr = s.fpr := rfl
@[simp] theorem State.stopFetch_fcc (s : State) : (s.stopFetch).fcc = s.fcc := rfl
@[simp] theorem State.stopFetch_mem (s : State) : (s.stopFetch).mem = s.mem := rfl
@[simp] theorem State.stopFetch_roArmed (s : State) : (s.stopFetch).roArmed = s.roArmed := rfl
@[simp] theorem State.stopFetch_out (s : State) : (s.stopFetch).out = s.out := rfl
@[simp] theorem State.stopFetch_inp (s : State) : (s.stopFetch).inp = s.inp := rfl
@[simp] theorem State.stopFetch_status (s : State) : (s.stopFetch).status = s.status := rfl
@[simp] theorem State.stopFetch_steps (s : State) : (s.stopFetch).steps = s.steps := rfl
@[simp] theorem State.stopFetch_draws (s : State) : (s.stopFetch).draws = s.draws := rfl

@[simp] theorem State.setFetchPc_cfg (s : State) (a : Word) : (s.setFetchPc a).cfg = s.cfg := rfl
@[simp] theorem State.setFetchPc_gpr (s : State) (a : Word) : (s.setFetchPc a).gpr = s.gpr := rfl
@[simp] theorem State.setFetchPc_hi (s : State) (a : Word) : (s.setFetchPc a).hi = s.hi := rfl
@[simp] theorem State.setFetchPc_lo (s : State) (a : Word) : (s.setFetchPc a).lo = s.lo := rfl
@[simp] theorem State.setFetchPc_pc (s : State) (a : Word) : (s.setFetchPc a).pc = s.pc := rfl
@[simp] theorem State.setFetchPc_fpr (s : State) (a : Word) : (s.setFetchPc a).fpr = s.fpr := rfl
@[simp] theorem State.setFetchPc_fcc (s : State) (a : Word) : (s.setFetchPc a).fcc = s.fcc := rfl
@[simp] theorem State.setFetchPc_mem (s : State) (a : Word) : (s.setFetchPc a).mem = s.mem := rfl
@[simp] theorem State.setFetchPc_roArmed (s : State) (a : Word) : (s.setFetchPc a).roArmed = s.roArmed := rfl
@[simp] theorem State.setFetchPc_out (s : State) (a : Word) : (s.setFetchPc a).out = s.out := rfl
@[simp] theorem State.setFetchPc_inp (s : State) (a : Word) : (s.setFetchPc a).inp = s.inp := rfl
@[simp] theorem State.setFetchPc_status (s : State) (a : Word) : (s.setFetchPc a).status = s.status := rfl
@[simp] theorem State.setFetchPc_steps (s : State) (a : Word) : (s.setFetchPc a).steps = s.steps := rfl
@[simp] theorem State.setFetchPc_draws (s : State) (a : Word) : (s.setFetchPc a).draws = s.draws := rfl

@[simp] theorem State.setL2_cfg (s : State) (k : Cache) : (s.setL2 k).cfg = s.cfg := rfl
@[simp] theorem State.setL2_gpr (s : State) (k : Cache) : (s.setL2 k).gpr = s.gpr := rfl
@[simp] theorem State.setL2_hi (s : State) (k : Cache) : (s.setL2 k).hi = s.hi := rfl
@[simp] theorem State.setL2_lo (s : State) (k : Cache) : (s.setL2 k).lo = s.lo := rfl
@[simp] theorem State.setL2_pc (s : State) (k : Cache) : (s.setL2 k).pc = s.pc := rfl
@[simp] theorem State.setL2_fpr (s : State) (k : Cache) : (s.setL2 k).fpr = s.fpr := rfl
@[simp] theorem State.setL2_fcc (s : State) (k : Cache) : (s.setL2 k).fcc = s.fcc := rfl
@[simp] theorem State.setL2_mem (s : State) (k : Cache) : (s.setL2 k).mem = s.mem := rfl
@[simp] theorem State.setL2_roArmed (s : State) (k : Cache) : (s.setL2 k).roArmed = s.roArmed := rfl
@[simp] theorem State.setL2_out (s : State) (k : Cache) : (s.setL2 k).out = s.out := rfl
@[simp] theorem State.setL2_inp (s : State) (k : Cache) : (s.setL2 k).inp = s.inp := rfl
@[simp] theorem State.setL2_status (s : State) (k : Cache) : (s.setL2 k).status = s.status := rfl
@[simp] theorem State.setL2_steps (s : State) (k : Cache) : (s.setL2 k).steps = s.steps := rfl
@[simp] theorem State.setL2_draws (s : State) (k : Cache) : (s.setL2 k).draws = s.draws := rfl

@[simp] theorem State.stallStructural_cfg (s : State) : (s.stallStructural).cfg = s.cfg := rfl
@[simp] theorem State.stallStructural_gpr (s : State) : (s.stallStructural).gpr = s.gpr := rfl
@[simp] theorem State.stallStructural_hi (s : State) : (s.stallStructural).hi = s.hi := rfl
@[simp] theorem State.stallStructural_lo (s : State) : (s.stallStructural).lo = s.lo := rfl
@[simp] theorem State.stallStructural_pc (s : State) : (s.stallStructural).pc = s.pc := rfl
@[simp] theorem State.stallStructural_fpr (s : State) : (s.stallStructural).fpr = s.fpr := rfl
@[simp] theorem State.stallStructural_fcc (s : State) : (s.stallStructural).fcc = s.fcc := rfl
@[simp] theorem State.stallStructural_mem (s : State) : (s.stallStructural).mem = s.mem := rfl
@[simp] theorem State.stallStructural_roArmed (s : State) : (s.stallStructural).roArmed = s.roArmed := rfl
@[simp] theorem State.stallStructural_out (s : State) : (s.stallStructural).out = s.out := rfl
@[simp] theorem State.stallStructural_inp (s : State) : (s.stallStructural).inp = s.inp := rfl
@[simp] theorem State.stallStructural_status (s : State) : (s.stallStructural).status = s.status := rfl
@[simp] theorem State.stallStructural_steps (s : State) : (s.stallStructural).steps = s.steps := rfl
@[simp] theorem State.stallStructural_draws (s : State) : (s.stallStructural).draws = s.draws := rfl

@[simp] theorem State.resolve_cfg (s : State) (pc : Word) (taken : Bool) (predNext nextPc : Word) : (s.resolve pc taken predNext nextPc).cfg = s.cfg := rfl
@[simp] theorem State.resolve_gpr (s : State) (pc : Word) (taken : Bool) (predNext nextPc : Word) : (s.resolve pc taken predNext nextPc).gpr = s.gpr := rfl
@[simp] theorem State.resolve_hi (s : State) (pc : Word) (taken : Bool) (predNext nextPc : Word) : (s.resolve pc taken predNext nextPc).hi = s.hi := rfl
@[simp] theorem State.resolve_lo (s : State) (pc : Word) (taken : Bool) (predNext nextPc : Word) : (s.resolve pc taken predNext nextPc).lo = s.lo := rfl
@[simp] theorem State.resolve_pc (s : State) (pc : Word) (taken : Bool) (predNext nextPc : Word) : (s.resolve pc taken predNext nextPc).pc = s.pc := rfl
@[simp] theorem State.resolve_fpr (s : State) (pc : Word) (taken : Bool) (predNext nextPc : Word) : (s.resolve pc taken predNext nextPc).fpr = s.fpr := rfl
@[simp] theorem State.resolve_fcc (s : State) (pc : Word) (taken : Bool) (predNext nextPc : Word) : (s.resolve pc taken predNext nextPc).fcc = s.fcc := rfl
@[simp] theorem State.resolve_mem (s : State) (pc : Word) (taken : Bool) (predNext nextPc : Word) : (s.resolve pc taken predNext nextPc).mem = s.mem := rfl
@[simp] theorem State.resolve_roArmed (s : State) (pc : Word) (taken : Bool) (predNext nextPc : Word) : (s.resolve pc taken predNext nextPc).roArmed = s.roArmed := rfl
@[simp] theorem State.resolve_out (s : State) (pc : Word) (taken : Bool) (predNext nextPc : Word) : (s.resolve pc taken predNext nextPc).out = s.out := rfl
@[simp] theorem State.resolve_inp (s : State) (pc : Word) (taken : Bool) (predNext nextPc : Word) : (s.resolve pc taken predNext nextPc).inp = s.inp := rfl
@[simp] theorem State.resolve_status (s : State) (pc : Word) (taken : Bool) (predNext nextPc : Word) : (s.resolve pc taken predNext nextPc).status = s.status := rfl
@[simp] theorem State.resolve_steps (s : State) (pc : Word) (taken : Bool) (predNext nextPc : Word) : (s.resolve pc taken predNext nextPc).steps = s.steps := rfl
@[simp] theorem State.resolve_draws (s : State) (pc : Word) (taken : Bool) (predNext nextPc : Word) : (s.resolve pc taken predNext nextPc).draws = s.draws := rfl

end Sys2Proof.Machine
end

