-- ==== Sys2Proof/Laws/Ops.lean ====
section
/-!
SUPPORT. One lemma per shared operation, saying everything it can do: register reads after writes, the endings, raising a
fault, loads, stores and transfers of control. Proofs about instructions cite these and unfold nothing.
-/

namespace Sys2Proof.Machine

/-! Register reads after updates. -/

theorem State.readGpr_zero (s : State) : s.readGpr 0#5 = 0#32 := by simp [State.readGpr]

theorem State.readGpr_setGpr (s : State) (r q : RegIdx) (v : Word) :
    (s.setGpr r v).readGpr q = if q = r then (if r = 0#5 then 0#32 else v) else s.readGpr q := by
  unfold State.setGpr State.readGpr
  by_cases hr : r = 0#5
  · subst hr; by_cases hq : q = 0#5 <;> simp [hq]
  · by_cases hq : q = r
    · subst hq; simp [hr]
    · have : r.toNat ≠ q.toNat := fun h => hq (BitVec.eq_of_toNat_eq h.symm)
      by_cases hz : q = 0#5
      · subst hz; simp [hq]
      · simp [hr, hq, hz, Vector.getElem_set_ne _ _ this]

@[simp] theorem State.readGpr_setGpr_same (s : State) (r : RegIdx) (v : Word) :
    (s.setGpr r v).readGpr r = if r = 0#5 then 0#32 else v := by simp [State.readGpr_setGpr]

@[simp] theorem State.readGpr_setGpr_other (s : State) {r q : RegIdx} (h : q ≠ r) (v : Word) :
    (s.setGpr r v).readGpr q = s.readGpr q := by simp [State.readGpr_setGpr, h]

@[simp] theorem State.readFpr_setGpr (s : State) (r q : RegIdx) (v : Word) :
    (s.setGpr r v).readFpr q = s.readFpr q := by simp [State.readFpr]

@[simp] theorem State.readFpr_setFpr_same (s : State) (r : RegIdx) (v : Word) : (s.setFpr r v).readFpr r = v := by
  simp [State.readFpr]

@[simp] theorem State.readFpr_setFpr_other (s : State) {r q : RegIdx} (h : q ≠ r) (v : Word) :
    (s.setFpr r v).readFpr q = s.readFpr q := by
  have : r.toNat ≠ q.toNat := fun e => h (BitVec.eq_of_toNat_eq e.symm)
  simp [State.readFpr, Vector.getElem_set_ne _ _ this]

@[simp] theorem State.readGpr_setFpr (s : State) (r : RegIdx) (v : Word) (q : RegIdx) : (s.setFpr r v).readGpr q = s.readGpr q := rfl
@[simp] theorem State.readGpr_setHi (s : State) (v : Word) (q : RegIdx) : (s.setHi v).readGpr q = s.readGpr q := rfl
@[simp] theorem State.readFpr_setHi (s : State) (v : Word) (q : RegIdx) : (s.setHi v).readFpr q = s.readFpr q := rfl
@[simp] theorem State.readGpr_setLo (s : State) (v : Word) (q : RegIdx) : (s.setLo v).readGpr q = s.readGpr q := rfl
@[simp] theorem State.readFpr_setLo (s : State) (v : Word) (q : RegIdx) : (s.setLo v).readFpr q = s.readFpr q := rfl
@[simp] theorem State.readGpr_setFcc (s : State) (b : Bool) (q : RegIdx) : (s.setFcc b).readGpr q = s.readGpr q := rfl
@[simp] theorem State.readFpr_setFcc (s : State) (b : Bool) (q : RegIdx) : (s.setFcc b).readFpr q = s.readFpr q := rfl
@[simp] theorem State.readGpr_setPc (s : State) (a : Word) (q : RegIdx) : (s.setPc a).readGpr q = s.readGpr q := rfl
@[simp] theorem State.readFpr_setPc (s : State) (a : Word) (q : RegIdx) : (s.setPc a).readFpr q = s.readFpr q := rfl
@[simp] theorem State.readGpr_advance (s : State) (q : RegIdx) : (s.advance).readGpr q = s.readGpr q := rfl
@[simp] theorem State.readFpr_advance (s : State) (q : RegIdx) : (s.advance).readFpr q = s.readFpr q := rfl
@[simp] theorem State.readGpr_setStatus (s : State) (r : RunStatus) (q : RegIdx) : (s.setStatus r).readGpr q = s.readGpr q := rfl
@[simp] theorem State.readFpr_setStatus (s : State) (r : RunStatus) (q : RegIdx) : (s.setStatus r).readFpr q = s.readFpr q := rfl
@[simp] theorem State.readGpr_storeBytes (s : State) (a : Nat) (bs : List Byte) (q : RegIdx) : (s.storeBytes a bs).readGpr q = s.readGpr q := rfl
@[simp] theorem State.readFpr_storeBytes (s : State) (a : Nat) (bs : List Byte) (q : RegIdx) : (s.storeBytes a bs).readFpr q = s.readFpr q := rfl
@[simp] theorem State.readGpr_countStep (s : State) (q : RegIdx) : (s.countStep).readGpr q = s.readGpr q := rfl
@[simp] theorem State.readFpr_countStep (s : State) (q : RegIdx) : (s.countStep).readFpr q = s.readFpr q := rfl
@[simp] theorem State.readGpr_drawn (s : State) (q : RegIdx) : (s.drawn).readGpr q = s.readGpr q := rfl
@[simp] theorem State.readFpr_drawn (s : State) (q : RegIdx) : (s.drawn).readFpr q = s.readFpr q := rfl
@[simp] theorem State.readGpr_drawHiLo (s : State) (q : RegIdx) : (s.drawHiLo).readGpr q = s.readGpr q := rfl
@[simp] theorem State.readFpr_drawHiLo (s : State) (q : RegIdx) : (s.drawHiLo).readFpr q = s.readFpr q := rfl
@[simp] theorem State.readGpr_emit (s : State) (e : OutEvent) (q : RegIdx) : (s.emit e).readGpr q = s.readGpr q := rfl
@[simp] theorem State.readFpr_emit (s : State) (e : OutEvent) (q : RegIdx) : (s.emit e).readFpr q = s.readFpr q := rfl
@[simp] theorem State.readGpr_setDraws (s : State) (n : Nat) (q : RegIdx) : (s.setDraws n).readGpr q = s.readGpr q := rfl
@[simp] theorem State.readFpr_setDraws (s : State) (n : Nat) (q : RegIdx) : (s.setDraws n).readFpr q = s.readFpr q := rfl

/-! Endings. -/

theorem writesGpr_of {s : State} {i : Instr} {r : RegIdx} {v : Word} (h : exec i s = s.finishGpr r v) :
    WritesGpr s i r v :=
  ⟨_, h, by simp, by simp,
    { gprs := fun q hq => by simp [hq], fprs := fun q => by simp, hiLo := ⟨by simp, by simp⟩, fcc := by simp,
      memory := fun a => by simp,
      rest := { cfg := by simp, roArmed := by simp, out := by simp, inp := by simp, status := by simp,
                steps := by simp, micro := by simp } }⟩

theorem writesFpr_of {s u : State} {i : Instr} {r : RegIdx} {v : Word} (hu : u = s ∨ u = s.drawn)
    (h : exec i s = u.finishFpr r v) : WritesFpr s i r v := by
  refine ⟨_, h, by simp, ?_, ?_⟩
  · rcases hu with rfl | rfl <;> rfl
  · rcases hu with rfl | rfl <;>
      exact { gprs := fun q => by simp, fprs := fun q hq => by simp [hq], hiLo := ⟨by simp, by simp⟩, fcc := by simp,
              memory := fun a => by simp,
              rest := { cfg := by simp, roArmed := by simp, out := by simp, inp := by simp, status := by simp,
                        steps := by simp, micro := by simp } }

theorem writesHiLo_of {s : State} {i : Instr} {h l : Word} (e : exec i s = s.finishHiLo h l) : WritesHiLo s i h l :=
  ⟨_, e, rfl, rfl, rfl,
    { gprs := fun _ => rfl, fprs := fun _ => rfl, fcc := rfl, memory := fun _ => rfl,
      rest := ⟨rfl, rfl, rfl, rfl, rfl, rfl, rfl⟩ }⟩

theorem writesFcc_of {s : State} {i : Instr} {b : Bool} (e : exec i s = s.finishFcc b) : WritesFcc s i b :=
  ⟨_, e, rfl, rfl,
    { gprs := fun _ => rfl, fprs := fun _ => rfl, hiLo := ⟨rfl, rfl⟩, memory := fun _ => rfl,
      rest := ⟨rfl, rfl, rfl, rfl, rfl, rfl, rfl⟩ }⟩

theorem goesTo_of {s : State} {i : Instr} {a : Word} (e : exec i s = .next (s.setPc a)) : GoesTo s i a :=
  ⟨_, e, rfl,
    { gprs := fun _ => rfl, fprs := fun _ => rfl, hiLo := ⟨rfl, rfl⟩, fcc := rfl, memory := fun _ => rfl,
      rest := ⟨rfl, rfl, rfl, rfl, rfl, rfl, rfl⟩ }⟩

theorem stores_of {s : State} {i : Instr} {a : Nat} {bs : List Byte} (w : Memory.wf s.mem = true)
    (e : exec i s = .next (s.storeBytes a bs).advance) : Stores s i a bs :=
  ⟨_, e, Memory.readBytes_writeBytes w bs a, rfl,
    { gprs := fun _ => rfl, fprs := fun _ => rfl, hiLo := ⟨rfl, rfl⟩, fcc := rfl,
      memory := fun _ hb => Memory.read_writeBytes_outside w bs hb,
      rest := ⟨rfl, rfl, rfl, rfl, rfl, rfl, rfl⟩ }⟩

/-- Raising a fault leaves the state that 60_exceptions.md R500 describes. -/
theorem State.raise_faulted (s : State) (k : FaultKind) : Faulted s k (s.raise k) := by
  cases k <;>
    exact { status := rfl, pc := rfl, gprs := fun _ => rfl, fprs := fun _ => rfl,
            hiLo := fun h => by first | exact ⟨rfl, rfl⟩ | exact absurd rfl h,
            fcc := rfl, memory := fun _ => rfl, cfg := rfl, roArmed := rfl, out := rfl, inp := rfl, steps := rfl,
            micro := rfl }

theorem faults_of {s : State} {i : Instr} {k : FaultKind} (e : exec i s = .next (s.raise k)) : Faults s i k :=
  ⟨_, e, s.raise_faulted k⟩

/-- A raise changes none of these fields. -/
theorem State.raise_same (s : State) (k : FaultKind) :
    (s.raise k).cfg = s.cfg ∧ (s.raise k).gpr = s.gpr ∧ (s.raise k).fpr = s.fpr ∧ (s.raise k).fcc = s.fcc ∧
      (s.raise k).mem = s.mem ∧ (s.raise k).pc = s.pc ∧ (s.raise k).roArmed = s.roArmed ∧ (s.raise k).out = s.out ∧
      (s.raise k).inp = s.inp ∧ (s.raise k).steps = s.steps ∧ (s.raise k).micro = s.micro := by
  cases k <;> exact ⟨rfl, rfl, rfl, rfl, rfl, rfl, rfl, rfl, rfl, rfl, rfl⟩

/-- A raise ends the run on its fault. -/
theorem State.raise_status (s : State) (k : FaultKind) : (s.raise k).status = endStatus k := by cases k <;> rfl

/-! Trapping arithmetic (40_integer_alu.md R141). -/

theorem State.finishTrapping_fits (s : State) (r : RegIdx) {e : Int} (h : -2 ^ 31 ≤ e ∧ e ≤ 2 ^ 31 - 1) :
    s.finishTrapping r e = s.finishGpr r (BitVec.ofInt 32 e) := by
  have : signedOverflow e = false := by simp only [signedOverflow, decide_eq_false_iff_not]; omega
  simp [State.finishTrapping, this]

theorem State.finishTrapping_overflows (s : State) (r : RegIdx) {e : Int} (h : e < -2 ^ 31 ∨ 2 ^ 31 - 1 < e) :
    s.finishTrapping r e = .next (s.raise .arithmeticOverflow) := by
  have : signedOverflow e = true := by simp only [signedOverflow, decide_eq_true_eq]; exact h
  simp [State.finishTrapping, this]

/-! Accesses (20_memory.md R65 to R67). -/

theorem State.readFault_none {s : State} {a n : Nat} (h : s.loadable a n) : s.readFault a n = none := by
  unfold State.readFault; rw [if_neg (by have := h.1; omega), if_neg (by simp [h.2])]

theorem State.readFault_bounds {s : State} {a n : Nat} (h : s.cfg.memSize < a + n) :
    s.readFault a n = some (.memoryOutOfBounds a) := by unfold State.readFault; rw [if_pos h]

theorem State.readFault_misaligned {s : State} {a n : Nat} (h : a + n ≤ s.cfg.memSize) (m : a % n ≠ 0) :
    s.readFault a n = some (.memoryMisaligned a n) := by
  unfold State.readFault; rw [if_neg (by omega), if_pos m]

theorem State.writeFault_none {s : State} {a n : Nat} (h : s.storable a n) : s.writeFault a n = none := by
  unfold State.writeFault; rw [State.readFault_none h.1]; simp [h.2]

theorem State.writeFault_protected {s : State} {a n : Nat} (h : s.loadable a n) (p : s.protects a n = true) :
    s.writeFault a n = some (.memoryWriteProtected a) := by
  unfold State.writeFault; rw [State.readFault_none h]; simp [p]

theorem State.writeFault_of_read {s : State} {a n : Nat} {k : FaultKind} (h : s.readFault a n = some k) :
    s.writeFault a n = some k := by unfold State.writeFault; rw [h]

theorem State.loadAt_ok {s : State} {b : RegIdx} {imm : Imm16} {w : Width} {a : Nat} {f : Word → Result}
    (e : effAddr (s.readGpr b) imm = some a) (h : s.loadable a w.bytes) :
    s.loadAt b imm w f = f (Memory.load s.mem a w) := by
  unfold State.loadAt; rw [e]; simp [State.readFault_none h]

theorem State.loadAt_fault {s : State} {b : RegIdx} {imm : Imm16} {w : Width} {a : Nat} {f : Word → Result}
    {k : FaultKind} (e : effAddr (s.readGpr b) imm = some a) (h : s.readFault a w.bytes = some k) :
    s.loadAt b imm w f = .next (s.raise k) := by unfold State.loadAt; rw [e]; simp [h]

theorem State.loadAt_overflow {s : State} {b : RegIdx} {imm : Imm16} {w : Width} {f : Word → Result}
    (e : effAddr (s.readGpr b) imm = none) : s.loadAt b imm w f = .next (s.raise .addressOverflow) := by
  unfold State.loadAt; rw [e]

theorem State.storeAt_ok {s : State} {b : RegIdx} {imm : Imm16} {w : Width} {a : Nat} {v : Word}
    (e : effAddr (s.readGpr b) imm = some a) (h : s.storable a w.bytes) :
    s.storeAt b imm w v = .next (s.storeBytes a (w.bytesOf v)).advance := by
  unfold State.storeAt; rw [e]; simp [State.writeFault_none h]

theorem State.storeAt_fault {s : State} {b : RegIdx} {imm : Imm16} {w : Width} {a : Nat} {v : Word} {k : FaultKind}
    (e : effAddr (s.readGpr b) imm = some a) (h : s.writeFault a w.bytes = some k) :
    s.storeAt b imm w v = .next (s.raise k) := by unfold State.storeAt; rw [e]; simp [h]

theorem State.storeAt_overflow {s : State} {b : RegIdx} {imm : Imm16} {w : Width} {v : Word}
    (e : effAddr (s.readGpr b) imm = none) : s.storeAt b imm w v = .next (s.raise .addressOverflow) := by
  unfold State.storeAt; rw [e]

/-! Transfers of control (43_control.md R230 to R232). -/

theorem State.targetOk_iff (s : State) (t : Word) :
    s.targetOk t = true ↔ t.toNat % 4 = 0 ∧ t.toNat + 4 ≤ s.cfg.memSize := by
  simp [State.targetOk]

theorem State.transfer_ok {s : State} {t : Word} {l : State → State} (h : s.targetOk t = true) :
    s.transfer t l = .next ((l s).setPc t) := by simp [State.transfer, h]

theorem State.transfer_fault {s : State} {t : Word} {l : State → State} (h : s.targetOk t = false) :
    s.transfer t l = .next (s.raise (.invalidBranchTarget t)) := by simp [State.transfer, h]

theorem State.branch_taken {s : State} {c : Bool} {imm : Imm16} (h : c = true) :
    s.branch c imm = s.transfer (branchTarget s.pc imm) id := by simp [State.branch, h]

theorem State.branch_notTaken {s : State} {c : Bool} {imm : Imm16} (h : c = false) :
    s.branch c imm = .next (s.setPc (s.pc + 4#32)) := by simp [State.branch, h, State.advance]

end Sys2Proof.Machine
end

