-- ==== Sys2Proof/Laws/Exec.lean ====
section
/-!
SUPPORT. What no instruction can do: change the configuration, the read-only flag, the step counter or the timing engines'
state, break the canonical form of memory, or write the storage of register 0.
-/

namespace Sys2Proof.Machine

/-- What every instruction keeps. -/
structure Keeps (s t : State) : Prop where
  cfg : t.cfg = s.cfg
  roArmed : t.roArmed = s.roArmed
  steps : t.steps = s.steps
  micro : t.micro = s.micro
  inv : s.Inv → t.Inv

theorem Keeps.refl (s : State) : Keeps s s := ⟨rfl, rfl, rfl, rfl, id⟩

theorem Keeps.trans {s t u : State} (a : Keeps s t) (b : Keeps t u) : Keeps s u :=
  ⟨b.cfg.trans a.cfg, b.roArmed.trans a.roArmed, b.steps.trans a.steps, b.micro.trans a.micro, b.inv ∘ a.inv⟩

theorem Keeps.setGpr (s : State) (r : RegIdx) (v : Word) : Keeps s (s.setGpr r v) := by
  refine ⟨by simp, by simp, by simp, by simp, fun h => ⟨by simpa using h.1, ?_⟩⟩
  unfold State.setGpr
  split
  · exact h.2
  · rename_i hr
    have : r.toNat ≠ 0 := fun e => hr (BitVec.eq_of_toNat_eq e)
    show (s.gpr.set r.toNat v r.isLt)[0] = 0#32
    rw [Vector.getElem_set_ne _ _ this]
    exact h.2

theorem Keeps.setFpr (s : State) (r : RegIdx) (v : Word) : Keeps s (s.setFpr r v) := ⟨rfl, rfl, rfl, rfl, id⟩
theorem Keeps.setHi (s : State) (v : Word) : Keeps s (s.setHi v) := ⟨rfl, rfl, rfl, rfl, id⟩
theorem Keeps.setLo (s : State) (v : Word) : Keeps s (s.setLo v) := ⟨rfl, rfl, rfl, rfl, id⟩
theorem Keeps.setFcc (s : State) (b : Bool) : Keeps s (s.setFcc b) := ⟨rfl, rfl, rfl, rfl, id⟩
theorem Keeps.setPc (s : State) (a : Word) : Keeps s (s.setPc a) := ⟨rfl, rfl, rfl, rfl, id⟩
theorem Keeps.advance (s : State) : Keeps s s.advance := ⟨rfl, rfl, rfl, rfl, id⟩
theorem Keeps.setStatus (s : State) (r : RunStatus) : Keeps s (s.setStatus r) := ⟨rfl, rfl, rfl, rfl, id⟩
theorem Keeps.drawn (s : State) : Keeps s s.drawn := ⟨rfl, rfl, rfl, rfl, id⟩
theorem Keeps.drawHiLo (s : State) : Keeps s s.drawHiLo := ⟨rfl, rfl, rfl, rfl, id⟩
theorem Keeps.emit (s : State) (e : OutEvent) : Keeps s (s.emit e) := ⟨rfl, rfl, rfl, rfl, id⟩
theorem Keeps.storeBytes (s : State) (a : Nat) (bs : List Byte) : Keeps s (s.storeBytes a bs) :=
  ⟨rfl, rfl, rfl, rfl, fun h => ⟨Memory.wf_writeBytes h.1 a bs, h.2⟩⟩

theorem Keeps.raise (s : State) (k : FaultKind) : Keeps s (s.raise k) := by
  cases k <;> exact ⟨rfl, rfl, rfl, rfl, id⟩

theorem Keeps.askInt (s : State) : Keeps s s.askInt.2 := by
  unfold State.askInt; split <;> exact ⟨rfl, rfl, rfl, rfl, id⟩

theorem Keeps.askChar (s : State) : Keeps s s.askChar.2 := by
  unfold State.askChar; split <;> exact ⟨rfl, rfl, rfl, rfl, id⟩

theorem Keeps.askString (s : State) (n : Nat) : Keeps s (s.askString n).2 := by
  unfold State.askString; split <;> exact ⟨rfl, rfl, rfl, rfl, id⟩

/-! Shared endings. -/

theorem Keeps.finishGpr {s t : State} {r : RegIdx} {v : Word} (h : s.finishGpr r v = .next t) : Keeps s t := by
  cases h; exact (Keeps.setGpr s r v).trans (Keeps.advance _)

theorem Keeps.finishFpr {s t : State} {r : RegIdx} {v : Word} (h : s.finishFpr r v = .next t) : Keeps s t := by
  cases h; exact (Keeps.setFpr s r v).trans (Keeps.advance _)

theorem Keeps.finishHiLo {s t : State} {a b : Word} (h : s.finishHiLo a b = .next t) : Keeps s t := by
  cases h; exact ((Keeps.setHi s a).trans (Keeps.setLo _ b)).trans (Keeps.advance _)

theorem Keeps.finishFcc {s t : State} {b : Bool} (h : s.finishFcc b = .next t) : Keeps s t := by
  cases h; exact (Keeps.setFcc s b).trans (Keeps.advance _)

theorem Keeps.finishTrapping {s t : State} {r : RegIdx} {e : Int} (h : s.finishTrapping r e = .next t) :
    Keeps s t := by
  unfold State.finishTrapping at h
  split at h
  · cases h; exact Keeps.raise s _
  · exact Keeps.finishGpr h

theorem Keeps.finishNumber {s t : State} {r : RegIdx} {v : Option Word} (h : s.finishNumber r v = .next t) :
    Keeps s t := by
  unfold State.finishNumber at h
  split at h
  · exact Keeps.finishFpr h
  · exact (Keeps.drawn s).trans (Keeps.finishFpr h)

theorem Keeps.loadAt {s t : State} {b : RegIdx} {imm : Imm16} {w : Width} {f : Word → Result}
    (h : s.loadAt b imm w f = .next t) (hf : ∀ v u, f v = .next u → Keeps s u) : Keeps s t := by
  unfold State.loadAt at h
  split at h
  · cases h; exact Keeps.raise s _
  · split at h
    · cases h; exact Keeps.raise s _
    · exact hf _ _ h

theorem Keeps.storeAt {s t : State} {b : RegIdx} {imm : Imm16} {w : Width} {v : Word}
    (h : s.storeAt b imm w v = .next t) : Keeps s t := by
  unfold State.storeAt at h
  split at h
  · cases h; exact Keeps.raise s _
  · split at h
    · cases h; exact Keeps.raise s _
    · cases h; exact (Keeps.storeBytes s _ _).trans (Keeps.advance _)

theorem Keeps.transfer {s t : State} {a : Word} {l : State → State}
    (h : s.transfer a l = .next t) (hl : Keeps s (l s)) : Keeps s t := by
  unfold State.transfer at h
  split at h
  · cases h; exact hl.trans (Keeps.setPc _ a)
  · cases h; exact Keeps.raise s _

theorem Keeps.branch {s t : State} {c : Bool} {imm : Imm16} (h : s.branch c imm = .next t) : Keeps s t := by
  unfold State.branch at h
  split at h
  · exact Keeps.transfer h (Keeps.refl s)
  · cases h; exact Keeps.advance s

/-! The system instructions. -/

theorem Keeps.callPrintString (s : State) : Keeps s s.callPrintString := by
  unfold State.callPrintString
  simp only
  split
  · exact (Keeps.emit s _).trans (Keeps.advance _)
  · exact Keeps.raise s _

theorem Keeps.callReadString (s : State) : Keeps s s.callReadString := by
  unfold State.callReadString
  simp only
  split
  · exact Keeps.advance s
  · split
    · exact Keeps.raise s _
    · exact ((Keeps.askString s _).trans (Keeps.storeBytes _ _ _)).trans (Keeps.advance _)

theorem Keeps.execSyscall {s t : State} {code : BitVec 20} (h : execSyscall code s = .next t) : Keeps s t := by
  unfold Machine.execSyscall at h
  simp only at h
  split at h
  · cases h; exact (Keeps.emit s _).trans (Keeps.advance _)
  split at h
  · cases h; exact Keeps.callPrintString s
  split at h
  · cases h; exact ((Keeps.askInt s).trans (Keeps.setGpr _ _ _)).trans (Keeps.advance _)
  split at h
  · cases h; exact Keeps.callReadString s
  split at h
  · cases h; exact Keeps.setStatus s _
  split at h
  · cases h; exact (Keeps.emit s _).trans (Keeps.advance _)
  split at h
  · cases h; exact ((Keeps.askChar s).trans (Keeps.setGpr _ _ _)).trans (Keeps.advance _)
  · cases h; exact Keeps.raise s _

/-! Every instruction. -/

theorem Keeps.execDiv {s t : State} {rs rt : RegIdx} (h : execDiv rs rt s = .next t) : Keeps s t := by
  unfold Machine.execDiv at h
  simp only at h
  split at h
  · cases h; exact Keeps.raise s _
  · split at h
    · cases h; exact (Keeps.drawHiLo s).trans (Keeps.advance _)
    · exact Keeps.finishHiLo h

theorem Keeps.execDivu {s t : State} {rs rt : RegIdx} (h : execDivu rs rt s = .next t) : Keeps s t := by
  unfold Machine.execDivu at h
  simp only at h
  split at h
  · cases h; exact Keeps.raise s _
  · exact Keeps.finishHiLo h

theorem Keeps.execCvtWS {s t : State} {fd fs : RegIdx} (h : execCvtWS fd fs s = .next t) : Keeps s t := by
  unfold Machine.execCvtWS at h
  split at h
  · exact Keeps.finishFpr h
  · exact (Keeps.drawn s).trans (Keeps.finishFpr h)

/-- No instruction changes what `Keeps` names. -/
theorem exec_keeps {i : Instr} {s t : State} (h : exec i s = .next t) : Keeps s t := by
  have gpr : ∀ {u : State} {r : RegIdx} {v : Word}, s.finishGpr r v = .next u → Keeps s u := Keeps.finishGpr
  cases i
  case add => exact Keeps.finishTrapping h
  case addu => exact gpr h
  case sub => exact Keeps.finishTrapping h
  case subu => exact gpr h
  case and => exact gpr h
  case or => exact gpr h
  case xor => exact gpr h
  case nor => exact gpr h
  case slt => exact gpr h
  case sltu => exact gpr h
  case addi => exact Keeps.finishTrapping h
  case addiu => exact gpr h
  case slti => exact gpr h
  case sltiu => exact gpr h
  case andi => exact gpr h
  case ori => exact gpr h
  case xori => exact gpr h
  case sll => exact gpr h
  case srl => exact gpr h
  case sra => exact gpr h
  case sllv => exact gpr h
  case srlv => exact gpr h
  case srav => exact gpr h
  case mult => exact Keeps.finishHiLo h
  case multu => exact Keeps.finishHiLo h
  case div => exact Keeps.execDiv h
  case divu => exact Keeps.execDivu h
  case mfhi => exact gpr h
  case mflo => exact gpr h
  case mthi => exact Keeps.finishHiLo h
  case mtlo => exact Keeps.finishHiLo h
  case lw => exact Keeps.loadAt h (fun _ _ e => gpr e)
  case lh => simp only [exec, execLh] at h; exact Keeps.loadAt h (fun _ _ e => gpr e)
  case lhu => exact Keeps.loadAt h (fun _ _ e => gpr e)
  case lb => simp only [exec, execLb] at h; exact Keeps.loadAt h (fun _ _ e => gpr e)
  case lbu => exact Keeps.loadAt h (fun _ _ e => gpr e)
  case sw => exact Keeps.storeAt h
  case sh => exact Keeps.storeAt h
  case sb => exact Keeps.storeAt h
  case lui => exact gpr h
  case lwc1 => exact Keeps.loadAt h (fun _ _ e => Keeps.finishFpr e)
  case swc1 => exact Keeps.storeAt h
  case beq => exact Keeps.branch h
  case bne => exact Keeps.branch h
  case bgtz => exact Keeps.branch h
  case bgez => exact Keeps.branch h
  case bltz => exact Keeps.branch h
  case blez => exact Keeps.branch h
  case j => exact Keeps.transfer h (Keeps.refl s)
  case jal => simp only [exec, execJal] at h; exact Keeps.transfer h (Keeps.setGpr s _ _)
  case jr => exact Keeps.transfer h (Keeps.refl s)
  case jalr => simp only [exec, execJalr] at h; exact Keeps.transfer h (Keeps.setGpr s _ _)
  case bc1t => exact Keeps.branch h
  case bc1f => exact Keeps.branch h
  case addS => exact Keeps.finishNumber h
  case subS => exact Keeps.finishNumber h
  case mulS => exact Keeps.finishNumber h
  case divS => exact Keeps.finishNumber h
  case absS => exact Keeps.finishFpr h
  case negS => exact Keeps.finishFpr h
  case movS => exact Keeps.finishFpr h
  case cvtSW => exact Keeps.finishFpr h
  case cvtWS => exact Keeps.execCvtWS h
  case cEqS => exact Keeps.finishFcc h
  case cLtS => exact Keeps.finishFcc h
  case cLeS => exact Keeps.finishFcc h
  case syscall code => exact Keeps.execSyscall (code := code) h
  case brk => cases h; exact Keeps.raise s _
  case nop => cases h; exact Keeps.advance s

/-- No instruction stops: `exec` always answers a next state (60_exceptions.md R500: a fault is a next state). -/
theorem exec_next (i : Instr) (s : State) : ∃ t, exec i s = .next t := by
  have trap : ∀ r e, ∃ t, s.finishTrapping r e = .next t := by
    intro r e; unfold State.finishTrapping; split <;> exact ⟨_, rfl⟩
  have load : ∀ b imm w (f : Word → Result), (∀ v, ∃ t, f v = .next t) → ∃ t, s.loadAt b imm w f = .next t := by
    intro b imm w f hf
    unfold State.loadAt
    split
    · exact ⟨_, rfl⟩
    · split
      · exact ⟨_, rfl⟩
      · exact hf _
  have store : ∀ b imm w v, ∃ t, s.storeAt b imm w v = .next t := by
    intro b imm w v
    unfold State.storeAt
    split
    · exact ⟨_, rfl⟩
    · split <;> exact ⟨_, rfl⟩
  have trans : ∀ a l, ∃ t, s.transfer a l = .next t := by
    intro a l; unfold State.transfer; split <;> exact ⟨_, rfl⟩
  have branch : ∀ c imm, ∃ t, s.branch c imm = .next t := by
    intro c imm
    unfold State.branch
    split
    · exact trans _ _
    · exact ⟨_, rfl⟩
  have number : ∀ r v, ∃ t, s.finishNumber r v = .next t := by
    intro r v; unfold State.finishNumber; split <;> exact ⟨_, rfl⟩
  cases i
  case add => exact trap _ _
  case sub => exact trap _ _
  case addi => exact trap _ _
  case div => simp only [exec, execDiv]; split; exact ⟨_, rfl⟩; split <;> exact ⟨_, rfl⟩
  case divu => simp only [exec, execDivu]; split <;> exact ⟨_, rfl⟩
  case lw => apply load; exact fun _ => ⟨_, rfl⟩
  case lh => simp only [exec, execLh]; apply load; exact fun _ => ⟨_, rfl⟩
  case lhu => apply load; exact fun _ => ⟨_, rfl⟩
  case lb => simp only [exec, execLb]; apply load; exact fun _ => ⟨_, rfl⟩
  case lbu => apply load; exact fun _ => ⟨_, rfl⟩
  case lwc1 => apply load; exact fun _ => ⟨_, rfl⟩
  case sw => exact store _ _ _ _
  case sh => exact store _ _ _ _
  case sb => exact store _ _ _ _
  case swc1 => exact store _ _ _ _
  case beq => exact branch _ _
  case bne => exact branch _ _
  case bgtz => exact branch _ _
  case bgez => exact branch _ _
  case bltz => exact branch _ _
  case blez => exact branch _ _
  case bc1t => exact branch _ _
  case bc1f => exact branch _ _
  case j => exact trans _ _
  case jal => simp only [exec, execJal]; apply trans
  case jr => exact trans _ _
  case jalr => simp only [exec, execJalr]; apply trans
  case addS => exact number _ _
  case subS => exact number _ _
  case mulS => exact number _ _
  case divS => exact number _ _
  case cvtWS => simp only [exec, execCvtWS]; split <;> exact ⟨_, rfl⟩
  case syscall =>
    simp only [exec, execSyscall]
    split; exact ⟨_, rfl⟩
    split; exact ⟨_, rfl⟩
    split; exact ⟨_, rfl⟩
    split; exact ⟨_, rfl⟩
    split; exact ⟨_, rfl⟩
    split; exact ⟨_, rfl⟩
    split <;> exact ⟨_, rfl⟩
  all_goals exact ⟨_, rfl⟩

end Sys2Proof.Machine
end

