-- ==== Sys2Proof/Laws/Float.lean ====
section
/-!
SUPPORT. What the rounding of 44_float.md R261(a) delivers: the fields of a packed number, the magnitude of a rounded one,
and that it is the nearest binary32 number, ties to even.
-/

namespace Sys2Proof.Machine

/-! Fields of a packed number. -/

theorem packFloat_toNat (neg : Bool) {mag : Nat} (h : mag < 2 ^ 31) :
    (packFloat neg mag).toNat = (if neg then 2 ^ 31 else 0) + mag := by
  unfold packFloat; rw [BitVec.toNat_ofNat]; cases neg <;> simp <;> omega

theorem expOf_toNat (v : Word) : expOf v = v.toNat / 2 ^ 23 % 2 ^ 8 := by
  unfold expOf; rw [BitVec.extractLsb'_toNat, Nat.shiftRight_eq_div_pow]

theorem fracOf_toNat (v : Word) : fracOf v = v.toNat % 2 ^ 23 := by
  unfold fracOf; rw [BitVec.extractLsb'_toNat]; simp

theorem signOf_toNat (v : Word) : signOf v = decide (2 ^ 31 ≤ v.toNat) := by
  have h := v.isLt
  unfold signOf BitVec.getLsbD
  rw [Nat.testBit_eq_decide_div_mod_eq]
  congr 1
  apply propext
  omega

theorem expOf_pack (neg : Bool) {mag : Nat} (h : mag < 2 ^ 31) : expOf (packFloat neg mag) = mag / 2 ^ 23 := by
  rw [expOf_toNat, packFloat_toNat neg h]; cases neg <;> (simp; omega)

theorem fracOf_pack (neg : Bool) {mag : Nat} (h : mag < 2 ^ 31) : fracOf (packFloat neg mag) = mag % 2 ^ 23 := by
  rw [fracOf_toNat, packFloat_toNat neg h]; cases neg <;> (simp; try omega)

theorem signOf_pack (neg : Bool) {mag : Nat} (h : mag < 2 ^ 31) : signOf (packFloat neg mag) = neg := by
  rw [signOf_toNat, packFloat_toNat neg h]; cases neg <;> (simp; try omega)

/-- The magnitude of `R` units of `2^k`, for `R` in the range a rounding to spacing `2^k` delivers. -/
theorem unitsOf_pack (neg : Bool) {k R : Nat} (hR : R ≤ 2 ^ 24) (hk : k = 0 ∨ 2 ^ 23 ≤ R)
    (h : k * 2 ^ 23 + R < 2 ^ 31) : unitsOf (packFloat neg (k * 2 ^ 23 + R)) = R * 2 ^ k := by
  unfold unitsOf
  rw [expOf_pack neg h, fracOf_pack neg h]
  by_cases h1 : R < 2 ^ 23
  · obtain rfl : k = 0 := by omega
    rw [if_pos (by omega)]; omega
  · by_cases h2 : R = 2 ^ 24
    · subst h2
      rw [if_neg (by omega), show (k * 2 ^ 23 + 2 ^ 24) / 2 ^ 23 - 1 = k + 1 from by omega,
        show (k * 2 ^ 23 + 2 ^ 24) % 2 ^ 23 = 0 from by omega, Nat.pow_succ]
      omega
    · rw [if_neg (by omega), show (k * 2 ^ 23 + R) / 2 ^ 23 - 1 = k from by omega,
        show 2 ^ 23 + (k * 2 ^ 23 + R) % 2 ^ 23 = R from by omega]

/-- A finite magnitude is a multiple of `2^k` units, or lies below the numbers of that spacing. -/
theorem unitsOf_spacing (w : Word) (k : Nat) : (∃ x, unitsOf w = x * 2 ^ k) ∨ unitsOf w < 2 ^ 23 * 2 ^ k := by
  have hf : fracOf w < 2 ^ 23 := by rw [fracOf_toNat]; omega
  have hp : 0 < 2 ^ k := Nat.pow_pos (by omega)
  unfold unitsOf
  split
  · right; nlinarith
  · rename_i he
    rcases Nat.lt_or_ge (expOf w) (k + 1) with h | h
    · right
      have h2 : 2 ^ (expOf w - 1) * 2 ≤ 2 ^ k := by
        rw [← Nat.pow_succ]; exact Nat.pow_le_pow_right (by omega) (by omega)
      nlinarith
    · left
      refine ⟨(2 ^ 23 + fracOf w) * 2 ^ (expOf w - 1 - k), ?_⟩
      rw [Nat.mul_assoc, ← Nat.pow_add]; congr 2; omega

/-! Rounding to a natural. -/

/-- `roundEven n d` is within half a unit of `n / d`, and even at exactly half. -/
theorem roundEven_spec (n : Nat) {d : Nat} (h : 0 < d) :
    2 * ((roundEven n d * d : Int) - n).natAbs ≤ d ∧
    (2 * ((roundEven n d * d : Int) - n).natAbs = d → roundEven n d % 2 = 0) ∧
    n / d ≤ roundEven n d ∧ roundEven n d ≤ n / d + 1 := by
  have e := Nat.div_add_mod' n d
  have r := Nat.mod_lt n h
  unfold roundEven
  simp only
  generalize n / d = q at *
  generalize n % d = m at *
  have up : ((q + 1 : Nat) * d : Int) = q * d + d := by push_cast; ring
  have e' : (q * d : Int) + m = n := by exact_mod_cast e
  split
  · exact ⟨by omega, by omega, by omega, by omega⟩
  · split
    · rw [up]; exact ⟨by omega, by omega, by omega, by omega⟩
    · rcases Nat.mod_two_eq_zero_or_one q with hq | hq
      · rw [hq, Nat.add_zero]; exact ⟨by omega, by omega, by omega, by omega⟩
      · rw [hq, up]; exact ⟨by omega, by omega, by omega, by omega⟩

/-- What the rounding to spacing `D` says of its result `R`: within half a spacing, and even at exactly half. -/
def RoundsTo (n D R : Nat) : Prop :=
  2 * ((R * D : Int) - n).natAbs ≤ D ∧ (2 * ((R * D : Int) - n).natAbs = D → R % 2 = 0)

/-- No other multiple of the spacing is nearer; one equally near makes the result even. -/
theorem RoundsTo.multiple {n D R : Nat} (h : RoundsTo n D R) {x : Nat} (hx : x ≠ R) :
    ((R * D : Int) - n).natAbs ≤ ((x * D : Int) - n).natAbs ∧
    (((R * D : Int) - n).natAbs = ((x * D : Int) - n).natAbs → R % 2 = 0) := by
  obtain ⟨near, even⟩ := h
  have hD : (0 : Int) ≤ D := Int.natCast_nonneg D
  have far : D ≤ 2 * ((x * D : Int) - n).natAbs := by
    rcases Nat.lt_or_ge x R with h | h
    · have : ((x + 1 : Int)) * D ≤ R * D := Int.mul_le_mul_of_nonneg_right (by omega) hD
      have : (x * D : Int) + D ≤ R * D := by linarith
      omega
    · have : ((R + 1 : Int)) * D ≤ x * D := Int.mul_le_mul_of_nonneg_right (by omega) hD
      have : (R * D : Int) + D ≤ x * D := by linarith
      omega
  exact ⟨by omega, fun e => even (by omega)⟩

/-- What lies below the numbers of the spacing is further away. -/
theorem RoundsTo.below {n D R : Nat} (h : RoundsTo n D R) (low : 2 ^ 23 * D ≤ n) {u : Int} (hu : u < (2 ^ 23 * D : Nat)) :
    ((R * D : Int) - n).natAbs < (u - n).natAbs := by
  have better : ((R * D : Int) - n).natAbs ≤ n - 2 ^ 23 * D := by
    by_cases hx : 2 ^ 23 = R
    · subst hx; push_cast at *; omega
    · have := (h.multiple hx).1; push_cast at *; omega
  omega

/-- The magnitude reaches that of infinity exactly from half a unit beyond the largest finite number on; `X` is `2^252`
units and `D` the spacing `2^k`, both times the denominator. -/
theorem RoundsTo.overflow {n D X k R : Nat} (h : RoundsTo n D R) (hX : 0 < X)
    (hk : (k < 253 ∧ D ≤ X) ∨ (k = 253 ∧ D = 2 * X) ∨ (253 < k ∧ 4 * X ≤ D)) (top : n < 2 ^ 24 * D)
    (low : k = 0 ∨ 2 ^ 23 * D ≤ n) (hR : R ≤ 2 ^ 24) (hR' : k = 0 ∨ 2 ^ 23 ≤ R) :
    255 * 2 ^ 23 ≤ k * 2 ^ 23 + R ↔ (2 ^ 25 - 1) * X ≤ n := by
  obtain ⟨near, even⟩ := h
  rcases hk with hk | ⟨rfl, rfl⟩ | hk
  · omega
  · rcases Nat.lt_trichotomy R (2 ^ 24 - 1) with h | h | h
    · have : (R * (2 * X : Nat) : Int) ≤ (2 ^ 24 - 2) * (2 * X : Nat) :=
        Int.mul_le_mul_of_nonneg_right (by omega) (by omega)
      omega
    · subst h; norm_num at near even ⊢; omega
    · obtain rfl : R = 2 ^ 24 := by omega
      norm_num at near ⊢; omega
  · omega

/-! Rounding to binary32. -/

/-- The spacing `2^k` of `roundUnits`, with what its choice says of `n / d`. -/
theorem spacing_spec (n d : Nat) :
    ∃ k, roundUnits n d = min (k * 2 ^ 23 + roundEven n (d * 2 ^ k)) 0x7F800000 ∧
      n / (d * 2 ^ k) < 2 ^ 24 ∧ (k = 0 ∨ 2 ^ 23 ≤ n / (d * 2 ^ k)) := by
  refine ⟨if n / d < 2 ^ 24 then 0 else Nat.log2 (n / d) - 23, rfl, ?_⟩
  split
  · simpa
  · rename_i hq
    have hne : n / d ≠ 0 := by omega
    have lo : 2 ^ Nat.log2 (n / d) ≤ n / d := Nat.log2_self_le hne
    have hi : n / d < 2 ^ (Nat.log2 (n / d) + 1) := Nat.lt_log2_self
    have big : 24 ≤ Nat.log2 (n / d) := by
      rw [Nat.le_log2 hne]; omega
    generalize Nat.log2 (n / d) = l at *
    rw [← Nat.div_div_eq_div_mul]
    constructor
    · rw [Nat.div_lt_iff_lt_mul (Nat.pow_pos (by omega)), ← Nat.pow_add]
      rwa [show 24 + (l - 23) = l + 1 from by omega]
    · right
      rw [Nat.le_div_iff_mul_le (Nat.pow_pos (by omega)), ← Nat.pow_add]
      rwa [show 23 + (l - 23) = l from by omega]

/-- A packed rounding is the nearest number to `n / d` units, with the sign it was packed with. -/
theorem roundUnits_nearest (neg : Bool) (n : Nat) {d : Nat} (h : 0 < d) :
    signOf (packFloat neg (roundUnits n d)) = neg ∧ Nearest n d (packFloat neg (roundUnits n d)) := by
  obtain ⟨k, e, top, low⟩ := spacing_spec n d
  have hD : 0 < d * 2 ^ k := Nat.mul_pos h (Nat.pow_pos (by omega))
  obtain ⟨near, even, ge, le⟩ := roundEven_spec n hD
  have rt : RoundsTo n (d * 2 ^ k) (roundEven n (d * 2 ^ k)) := ⟨near, even⟩
  have top' : n < 2 ^ 24 * (d * 2 ^ k) := (Nat.div_lt_iff_lt_mul hD).1 top
  have low' : k = 0 ∨ 2 ^ 23 * (d * 2 ^ k) ≤ n := low.imp id (Nat.le_div_iff_mul_le hD).1
  have hR : roundEven n (d * 2 ^ k) ≤ 2 ^ 24 := le.trans top
  have hR' : k = 0 ∨ 2 ^ 23 ≤ roundEven n (d * 2 ^ k) := low.imp id (fun l => l.trans ge)
  clear near even ge le top low
  revert rt e hR hR'
  generalize roundEven n (d * 2 ^ k) = R
  intro e rt hR hR'
  have small : roundUnits n d < 2 ^ 31 := by rw [e]; omega
  refine ⟨signOf_pack neg small, ?_, ?_, fun fin w _ => ?_⟩
  · have : ¬(roundUnits n d / 2 ^ 23 = 255 ∧ roundUnits n d % 2 ^ 23 ≠ 0) := by rw [e]; omega
    unfold isNaN; rw [expOf_pack neg small, fracOf_pack neg small, Bool.eq_false_iff]
    simpa using this
  · have hX : 0 < d * 2 ^ 252 := Nat.mul_pos h (Nat.pow_pos (by omega))
    have hk : (k < 253 ∧ d * 2 ^ k ≤ d * 2 ^ 252) ∨ (k = 253 ∧ d * 2 ^ k = 2 * (d * 2 ^ 252)) ∨
        (253 < k ∧ 4 * (d * 2 ^ 252) ≤ d * 2 ^ k) := by
      rcases Nat.lt_trichotomy k 253 with hk | hk | hk
      · exact Or.inl ⟨hk, Nat.mul_le_mul_left d (Nat.pow_le_pow_right (by omega) (by omega))⟩
      · subst hk; exact Or.inr (Or.inl ⟨rfl, by rw [Nat.pow_succ]; ring⟩)
      · refine Or.inr (Or.inr ⟨hk, ?_⟩)
        rw [show 4 * (d * 2 ^ 252) = d * 2 ^ 254 from by rw [Nat.pow_succ, Nat.pow_succ]; ring]
        exact Nat.mul_le_mul_left d (Nat.pow_le_pow_right (by omega) (by omega))
    rw [show (2 ^ 25 - 1) * 2 ^ 252 * d = (2 ^ 25 - 1) * (d * 2 ^ 252) from by ring,
      ← rt.overflow hX hk top' low' hR hR']
    unfold isInf; rw [expOf_pack neg small, fracOf_pack neg small, e]
    simp only [Bool.and_eq_true, beq_iff_eq]; omega
  · have nmin : roundUnits n d = k * 2 ^ 23 + R := by
      have : roundUnits n d / 2 ^ 23 ≠ 255 := by
        intro hh; unfold isFinite at fin; rw [expOf_pack neg small, hh] at fin; exact absurd fin (by decide)
      rw [e] at this ⊢; omega
    have fv : fracOf (packFloat neg (roundUnits n d)) = (k * 2 ^ 23 + R) % 2 ^ 23 := by
      rw [fracOf_pack neg small, nmin]
    have uv : unitsOf (packFloat neg (roundUnits n d)) = R * 2 ^ k := by
      rw [nmin]; exact unitsOf_pack neg hR hR' (nmin ▸ small)
    have cast : ∀ x : Nat, ((x * 2 ^ k : Nat) * d : Int) = x * (d * 2 ^ k : Nat) := by intro x; push_cast; ring
    have multiple : ∀ x : Nat, ((R * (d * 2 ^ k : Nat) : Int) - n).natAbs ≤ ((x * (d * 2 ^ k : Nat) : Int) - n).natAbs ∧
        (((R * (d * 2 ^ k : Nat) : Int) - n).natAbs = ((x * (d * 2 ^ k : Nat) : Int) - n).natAbs → x ≠ R →
          (k * 2 ^ 23 + R) % 2 ^ 23 % 2 = 0) := by
      intro x
      by_cases hx : x = R
      · subst hx; exact ⟨Nat.le_refl _, fun _ hne => absurd rfl hne⟩
      · have m := rt.multiple hx
        exact ⟨m.1, fun e _ => by have := m.2 e; omega⟩
    rw [uv, fv, cast]
    rcases unitsOf_spacing w k with ⟨x, hx⟩ | hlt
    · rw [hx, cast]
      exact ⟨(multiple x).1, fun e hne => (multiple x).2 e (fun hxr => hne (by rw [hxr]))⟩
    · rcases low' with rfl | low'
      · have cw : (unitsOf w * d : Int) = unitsOf w * (d * 2 ^ 0 : Nat) := by push_cast; ring
        rw [cw]
        exact ⟨(multiple _).1, fun e hne => (multiple _).2 e (fun hxr => hne (by rw [hxr, Nat.pow_zero, Nat.mul_one]))⟩
      · have hu : (unitsOf w * d : Int) < (2 ^ 23 * (d * 2 ^ k) : Nat) := by
          have h3 := Nat.mul_lt_mul_of_pos_right hlt h
          rw [show 2 ^ 23 * 2 ^ k * d = 2 ^ 23 * (d * 2 ^ k) from by ring] at h3
          exact_mod_cast h3
        have b := rt.below low' hu
        exact ⟨Nat.le_of_lt b, fun e => absurd e (Nat.ne_of_lt b)⟩

end Sys2Proof.Machine
end

