-- ==== Sys2Proof/Laws/PerInstr.lean ====
section
/-!
SUPPORT. Facts about each instruction as syntax, one lemma per constructor.
-/

namespace Sys2Proof.Laws.Operands

open Sys2Proof.Machine

/-- The operands of an instruction fit the machine: at most two sources, in the pipeline's names and renamed, so that they
fit the two operands of a station (49_ooo_engine.md R434); at most two destinations;
and the loads and stores are exactly the load/store class (R435). -/
def Statement (i : Instr) : Prop :=
  (sourceOperands i).length ≤ 2 ∧ (renamedSources i).length ≤ 2 ∧
    (destOperands i).length ≤ 2 ∧ (fuOf i == .loadStore) = (memOp i).isSome

theorem add (rd rs rt : RegIdx) : Statement (.add rd rs rt)
    := ⟨Nat.le_of_ble_eq_true rfl, Nat.le_of_ble_eq_true rfl, Nat.le_of_ble_eq_true rfl, rfl⟩
theorem addu (rd rs rt : RegIdx) : Statement (.addu rd rs rt)
    := ⟨Nat.le_of_ble_eq_true rfl, Nat.le_of_ble_eq_true rfl, Nat.le_of_ble_eq_true rfl, rfl⟩
theorem sub (rd rs rt : RegIdx) : Statement (.sub rd rs rt)
    := ⟨Nat.le_of_ble_eq_true rfl, Nat.le_of_ble_eq_true rfl, Nat.le_of_ble_eq_true rfl, rfl⟩
theorem subu (rd rs rt : RegIdx) : Statement (.subu rd rs rt)
    := ⟨Nat.le_of_ble_eq_true rfl, Nat.le_of_ble_eq_true rfl, Nat.le_of_ble_eq_true rfl, rfl⟩
theorem and (rd rs rt : RegIdx) : Statement (.and rd rs rt)
    := ⟨Nat.le_of_ble_eq_true rfl, Nat.le_of_ble_eq_true rfl, Nat.le_of_ble_eq_true rfl, rfl⟩
theorem or (rd rs rt : RegIdx) : Statement (.or rd rs rt)
    := ⟨Nat.le_of_ble_eq_true rfl, Nat.le_of_ble_eq_true rfl, Nat.le_of_ble_eq_true rfl, rfl⟩
theorem xor (rd rs rt : RegIdx) : Statement (.xor rd rs rt)
    := ⟨Nat.le_of_ble_eq_true rfl, Nat.le_of_ble_eq_true rfl, Nat.le_of_ble_eq_true rfl, rfl⟩
theorem nor (rd rs rt : RegIdx) : Statement (.nor rd rs rt)
    := ⟨Nat.le_of_ble_eq_true rfl, Nat.le_of_ble_eq_true rfl, Nat.le_of_ble_eq_true rfl, rfl⟩
theorem slt (rd rs rt : RegIdx) : Statement (.slt rd rs rt)
    := ⟨Nat.le_of_ble_eq_true rfl, Nat.le_of_ble_eq_true rfl, Nat.le_of_ble_eq_true rfl, rfl⟩
theorem sltu (rd rs rt : RegIdx) : Statement (.sltu rd rs rt)
    := ⟨Nat.le_of_ble_eq_true rfl, Nat.le_of_ble_eq_true rfl, Nat.le_of_ble_eq_true rfl, rfl⟩
theorem addi (rt rs : RegIdx) (imm : Imm16) : Statement (.addi rt rs imm)
    := ⟨Nat.le_of_ble_eq_true rfl, Nat.le_of_ble_eq_true rfl, Nat.le_of_ble_eq_true rfl, rfl⟩
theorem addiu (rt rs : RegIdx) (imm : Imm16) : Statement (.addiu rt rs imm)
    := ⟨Nat.le_of_ble_eq_true rfl, Nat.le_of_ble_eq_true rfl, Nat.le_of_ble_eq_true rfl, rfl⟩
theorem slti (rt rs : RegIdx) (imm : Imm16) : Statement (.slti rt rs imm)
    := ⟨Nat.le_of_ble_eq_true rfl, Nat.le_of_ble_eq_true rfl, Nat.le_of_ble_eq_true rfl, rfl⟩
theorem sltiu (rt rs : RegIdx) (imm : Imm16) : Statement (.sltiu rt rs imm)
    := ⟨Nat.le_of_ble_eq_true rfl, Nat.le_of_ble_eq_true rfl, Nat.le_of_ble_eq_true rfl, rfl⟩
theorem andi (rt rs : RegIdx) (imm : Imm16) : Statement (.andi rt rs imm)
    := ⟨Nat.le_of_ble_eq_true rfl, Nat.le_of_ble_eq_true rfl, Nat.le_of_ble_eq_true rfl, rfl⟩
theorem ori (rt rs : RegIdx) (imm : Imm16) : Statement (.ori rt rs imm)
    := ⟨Nat.le_of_ble_eq_true rfl, Nat.le_of_ble_eq_true rfl, Nat.le_of_ble_eq_true rfl, rfl⟩
theorem xori (rt rs : RegIdx) (imm : Imm16) : Statement (.xori rt rs imm)
    := ⟨Nat.le_of_ble_eq_true rfl, Nat.le_of_ble_eq_true rfl, Nat.le_of_ble_eq_true rfl, rfl⟩
theorem sll (rd rt : RegIdx) (shamt : BitVec 5) : Statement (.sll rd rt shamt)
    := ⟨Nat.le_of_ble_eq_true rfl, Nat.le_of_ble_eq_true rfl, Nat.le_of_ble_eq_true rfl, rfl⟩
theorem srl (rd rt : RegIdx) (shamt : BitVec 5) : Statement (.srl rd rt shamt)
    := ⟨Nat.le_of_ble_eq_true rfl, Nat.le_of_ble_eq_true rfl, Nat.le_of_ble_eq_true rfl, rfl⟩
theorem sra (rd rt : RegIdx) (shamt : BitVec 5) : Statement (.sra rd rt shamt)
    := ⟨Nat.le_of_ble_eq_true rfl, Nat.le_of_ble_eq_true rfl, Nat.le_of_ble_eq_true rfl, rfl⟩
theorem sllv (rd rt rs : RegIdx) : Statement (.sllv rd rt rs)
    := ⟨Nat.le_of_ble_eq_true rfl, Nat.le_of_ble_eq_true rfl, Nat.le_of_ble_eq_true rfl, rfl⟩
theorem srlv (rd rt rs : RegIdx) : Statement (.srlv rd rt rs)
    := ⟨Nat.le_of_ble_eq_true rfl, Nat.le_of_ble_eq_true rfl, Nat.le_of_ble_eq_true rfl, rfl⟩
theorem srav (rd rt rs : RegIdx) : Statement (.srav rd rt rs)
    := ⟨Nat.le_of_ble_eq_true rfl, Nat.le_of_ble_eq_true rfl, Nat.le_of_ble_eq_true rfl, rfl⟩
theorem mult (rs rt : RegIdx) : Statement (.mult rs rt)
    := ⟨Nat.le_of_ble_eq_true rfl, Nat.le_of_ble_eq_true rfl, Nat.le_of_ble_eq_true rfl, rfl⟩
theorem multu (rs rt : RegIdx) : Statement (.multu rs rt)
    := ⟨Nat.le_of_ble_eq_true rfl, Nat.le_of_ble_eq_true rfl, Nat.le_of_ble_eq_true rfl, rfl⟩
theorem div (rs rt : RegIdx) : Statement (.div rs rt)
    := ⟨Nat.le_of_ble_eq_true rfl, Nat.le_of_ble_eq_true rfl, Nat.le_of_ble_eq_true rfl, rfl⟩
theorem divu (rs rt : RegIdx) : Statement (.divu rs rt)
    := ⟨Nat.le_of_ble_eq_true rfl, Nat.le_of_ble_eq_true rfl, Nat.le_of_ble_eq_true rfl, rfl⟩
theorem mfhi (rd : RegIdx) : Statement (.mfhi rd)
    := ⟨Nat.le_of_ble_eq_true rfl, Nat.le_of_ble_eq_true rfl, Nat.le_of_ble_eq_true rfl, rfl⟩
theorem mflo (rd : RegIdx) : Statement (.mflo rd)
    := ⟨Nat.le_of_ble_eq_true rfl, Nat.le_of_ble_eq_true rfl, Nat.le_of_ble_eq_true rfl, rfl⟩
theorem mthi (rs : RegIdx) : Statement (.mthi rs)
    := ⟨Nat.le_of_ble_eq_true rfl, Nat.le_of_ble_eq_true rfl, Nat.le_of_ble_eq_true rfl, rfl⟩
theorem mtlo (rs : RegIdx) : Statement (.mtlo rs)
    := ⟨Nat.le_of_ble_eq_true rfl, Nat.le_of_ble_eq_true rfl, Nat.le_of_ble_eq_true rfl, rfl⟩
theorem lw (rt base : RegIdx) (imm : Imm16) : Statement (.lw rt base imm)
    := ⟨Nat.le_of_ble_eq_true rfl, Nat.le_of_ble_eq_true rfl, Nat.le_of_ble_eq_true rfl, rfl⟩
theorem lh (rt base : RegIdx) (imm : Imm16) : Statement (.lh rt base imm)
    := ⟨Nat.le_of_ble_eq_true rfl, Nat.le_of_ble_eq_true rfl, Nat.le_of_ble_eq_true rfl, rfl⟩
theorem lhu (rt base : RegIdx) (imm : Imm16) : Statement (.lhu rt base imm)
    := ⟨Nat.le_of_ble_eq_true rfl, Nat.le_of_ble_eq_true rfl, Nat.le_of_ble_eq_true rfl, rfl⟩
theorem lb (rt base : RegIdx) (imm : Imm16) : Statement (.lb rt base imm)
    := ⟨Nat.le_of_ble_eq_true rfl, Nat.le_of_ble_eq_true rfl, Nat.le_of_ble_eq_true rfl, rfl⟩
theorem lbu (rt base : RegIdx) (imm : Imm16) : Statement (.lbu rt base imm)
    := ⟨Nat.le_of_ble_eq_true rfl, Nat.le_of_ble_eq_true rfl, Nat.le_of_ble_eq_true rfl, rfl⟩
theorem sw (rt base : RegIdx) (imm : Imm16) : Statement (.sw rt base imm)
    := ⟨Nat.le_of_ble_eq_true rfl, Nat.le_of_ble_eq_true rfl, Nat.le_of_ble_eq_true rfl, rfl⟩
theorem sh (rt base : RegIdx) (imm : Imm16) : Statement (.sh rt base imm)
    := ⟨Nat.le_of_ble_eq_true rfl, Nat.le_of_ble_eq_true rfl, Nat.le_of_ble_eq_true rfl, rfl⟩
theorem sb (rt base : RegIdx) (imm : Imm16) : Statement (.sb rt base imm)
    := ⟨Nat.le_of_ble_eq_true rfl, Nat.le_of_ble_eq_true rfl, Nat.le_of_ble_eq_true rfl, rfl⟩
theorem lui (rt : RegIdx) (imm : Imm16) : Statement (.lui rt imm)
    := ⟨Nat.le_of_ble_eq_true rfl, Nat.le_of_ble_eq_true rfl, Nat.le_of_ble_eq_true rfl, rfl⟩
theorem lwc1 (ft base : RegIdx) (imm : Imm16) : Statement (.lwc1 ft base imm)
    := ⟨Nat.le_of_ble_eq_true rfl, Nat.le_of_ble_eq_true rfl, Nat.le_of_ble_eq_true rfl, rfl⟩
theorem swc1 (ft base : RegIdx) (imm : Imm16) : Statement (.swc1 ft base imm)
    := ⟨Nat.le_of_ble_eq_true rfl, Nat.le_of_ble_eq_true rfl, Nat.le_of_ble_eq_true rfl, rfl⟩
theorem beq (rs rt : RegIdx) (imm : Imm16) : Statement (.beq rs rt imm)
    := ⟨Nat.le_of_ble_eq_true rfl, Nat.le_of_ble_eq_true rfl, Nat.le_of_ble_eq_true rfl, rfl⟩
theorem bne (rs rt : RegIdx) (imm : Imm16) : Statement (.bne rs rt imm)
    := ⟨Nat.le_of_ble_eq_true rfl, Nat.le_of_ble_eq_true rfl, Nat.le_of_ble_eq_true rfl, rfl⟩
theorem bgtz (rs : RegIdx) (imm : Imm16) : Statement (.bgtz rs imm)
    := ⟨Nat.le_of_ble_eq_true rfl, Nat.le_of_ble_eq_true rfl, Nat.le_of_ble_eq_true rfl, rfl⟩
theorem bgez (rs : RegIdx) (imm : Imm16) : Statement (.bgez rs imm)
    := ⟨Nat.le_of_ble_eq_true rfl, Nat.le_of_ble_eq_true rfl, Nat.le_of_ble_eq_true rfl, rfl⟩
theorem bltz (rs : RegIdx) (imm : Imm16) : Statement (.bltz rs imm)
    := ⟨Nat.le_of_ble_eq_true rfl, Nat.le_of_ble_eq_true rfl, Nat.le_of_ble_eq_true rfl, rfl⟩
theorem blez (rs : RegIdx) (imm : Imm16) : Statement (.blez rs imm)
    := ⟨Nat.le_of_ble_eq_true rfl, Nat.le_of_ble_eq_true rfl, Nat.le_of_ble_eq_true rfl, rfl⟩
theorem j (target : BitVec 26) : Statement (.j target)
    := ⟨Nat.le_of_ble_eq_true rfl, Nat.le_of_ble_eq_true rfl, Nat.le_of_ble_eq_true rfl, rfl⟩
theorem jal (target : BitVec 26) : Statement (.jal target)
    := ⟨Nat.le_of_ble_eq_true rfl, Nat.le_of_ble_eq_true rfl, Nat.le_of_ble_eq_true rfl, rfl⟩
theorem jr (rs : RegIdx) : Statement (.jr rs)
    := ⟨Nat.le_of_ble_eq_true rfl, Nat.le_of_ble_eq_true rfl, Nat.le_of_ble_eq_true rfl, rfl⟩
theorem jalr (rd rs : RegIdx) : Statement (.jalr rd rs)
    := ⟨Nat.le_of_ble_eq_true rfl, Nat.le_of_ble_eq_true rfl, Nat.le_of_ble_eq_true rfl, rfl⟩
theorem bc1t (imm : Imm16) : Statement (.bc1t imm)
    := ⟨Nat.le_of_ble_eq_true rfl, Nat.le_of_ble_eq_true rfl, Nat.le_of_ble_eq_true rfl, rfl⟩
theorem bc1f (imm : Imm16) : Statement (.bc1f imm)
    := ⟨Nat.le_of_ble_eq_true rfl, Nat.le_of_ble_eq_true rfl, Nat.le_of_ble_eq_true rfl, rfl⟩
theorem addS (fd fs ft : RegIdx) : Statement (.addS fd fs ft)
    := ⟨Nat.le_of_ble_eq_true rfl, Nat.le_of_ble_eq_true rfl, Nat.le_of_ble_eq_true rfl, rfl⟩
theorem subS (fd fs ft : RegIdx) : Statement (.subS fd fs ft)
    := ⟨Nat.le_of_ble_eq_true rfl, Nat.le_of_ble_eq_true rfl, Nat.le_of_ble_eq_true rfl, rfl⟩
theorem mulS (fd fs ft : RegIdx) : Statement (.mulS fd fs ft)
    := ⟨Nat.le_of_ble_eq_true rfl, Nat.le_of_ble_eq_true rfl, Nat.le_of_ble_eq_true rfl, rfl⟩
theorem divS (fd fs ft : RegIdx) : Statement (.divS fd fs ft)
    := ⟨Nat.le_of_ble_eq_true rfl, Nat.le_of_ble_eq_true rfl, Nat.le_of_ble_eq_true rfl, rfl⟩
theorem absS (fd fs : RegIdx) : Statement (.absS fd fs)
    := ⟨Nat.le_of_ble_eq_true rfl, Nat.le_of_ble_eq_true rfl, Nat.le_of_ble_eq_true rfl, rfl⟩
theorem negS (fd fs : RegIdx) : Statement (.negS fd fs)
    := ⟨Nat.le_of_ble_eq_true rfl, Nat.le_of_ble_eq_true rfl, Nat.le_of_ble_eq_true rfl, rfl⟩
theorem movS (fd fs : RegIdx) : Statement (.movS fd fs)
    := ⟨Nat.le_of_ble_eq_true rfl, Nat.le_of_ble_eq_true rfl, Nat.le_of_ble_eq_true rfl, rfl⟩
theorem cvtSW (fd fs : RegIdx) : Statement (.cvtSW fd fs)
    := ⟨Nat.le_of_ble_eq_true rfl, Nat.le_of_ble_eq_true rfl, Nat.le_of_ble_eq_true rfl, rfl⟩
theorem cvtWS (fd fs : RegIdx) : Statement (.cvtWS fd fs)
    := ⟨Nat.le_of_ble_eq_true rfl, Nat.le_of_ble_eq_true rfl, Nat.le_of_ble_eq_true rfl, rfl⟩
theorem cEqS (fs ft : RegIdx) : Statement (.cEqS fs ft)
    := ⟨Nat.le_of_ble_eq_true rfl, Nat.le_of_ble_eq_true rfl, Nat.le_of_ble_eq_true rfl, rfl⟩
theorem cLtS (fs ft : RegIdx) : Statement (.cLtS fs ft)
    := ⟨Nat.le_of_ble_eq_true rfl, Nat.le_of_ble_eq_true rfl, Nat.le_of_ble_eq_true rfl, rfl⟩
theorem cLeS (fs ft : RegIdx) : Statement (.cLeS fs ft)
    := ⟨Nat.le_of_ble_eq_true rfl, Nat.le_of_ble_eq_true rfl, Nat.le_of_ble_eq_true rfl, rfl⟩
theorem syscall (code : BitVec 20) : Statement (.syscall code)
    := ⟨Nat.le_of_ble_eq_true rfl, Nat.le_of_ble_eq_true rfl, Nat.le_of_ble_eq_true rfl, rfl⟩
theorem brk (code : BitVec 20) : Statement (.brk code)
    := ⟨Nat.le_of_ble_eq_true rfl, Nat.le_of_ble_eq_true rfl, Nat.le_of_ble_eq_true rfl, rfl⟩
theorem nop : Statement (.nop)
    := ⟨Nat.le_of_ble_eq_true rfl, Nat.le_of_ble_eq_true rfl, Nat.le_of_ble_eq_true rfl, rfl⟩

end Sys2Proof.Laws.Operands
end

