-- ==== Sys2Proof/Laws/Timing.lean ====
section
/-!
SUPPORT. What the phases of the timing engines cannot do. Every phase but WB of the pipeline and commit of the out-of-order
engine is quiet: it leaves the architectural state alone, commits nothing and keeps the counter laws of the caches.
-/

namespace Sys2Proof.Machine

/-- A change of the timing engines' state that no program can see. -/
structure Quiet (s t : State) : Prop where
  arch : SameArch s t
  committed : t.micro.committed = s.micro.committed
  cycles : t.micro.cycles = s.micro.cycles
  caches : s.CachesLawful → t.CachesLawful

theorem SameArch.refl (s : State) : SameArch s s := ⟨rfl, rfl, rfl, rfl, rfl, rfl, rfl, rfl, rfl, rfl, rfl, rfl, rfl⟩

theorem SameArch.trans {s t u : State} (a : SameArch s t) (b : SameArch t u) : SameArch s u :=
  ⟨b.cfg.trans a.cfg, b.gpr.trans a.gpr, b.hi.trans a.hi, b.lo.trans a.lo, b.pc.trans a.pc, b.fpr.trans a.fpr,
    b.fcc.trans a.fcc, b.mem.trans a.mem, b.roArmed.trans a.roArmed, b.out.trans a.out, b.inp.trans a.inp,
    b.status.trans a.status, b.steps.trans a.steps⟩

theorem Quiet.refl (s : State) : Quiet s s := ⟨SameArch.refl s, rfl, rfl, id⟩

theorem Quiet.trans {s t u : State} (a : Quiet s t) (b : Quiet t u) : Quiet s u :=
  ⟨a.arch.trans b.arch, b.committed.trans a.committed, b.cycles.trans a.cycles, b.caches ∘ a.caches⟩

/-- A fold of quiet changes is quiet. -/
theorem Quiet.foldl {α : Type} {f : State → α → State} (h : ∀ s a, Quiet s (f s a)) (l : List α) (s : State) :
    Quiet s (l.foldl f s) := by
  induction l generalizing s with
  | nil => exact Quiet.refl s
  | cons a rest ih => exact (h s a).trans (ih (f s a))

/-! Single updates. -/

theorem Quiet.setPipe (s : State) (p : Pipe) : Quiet s (s.setPipe p) := ⟨⟨rfl, rfl, rfl, rfl, rfl, rfl, rfl, rfl, rfl, rfl, rfl, rfl, rfl⟩, rfl, rfl, id⟩
theorem Quiet.setOoo (s : State) (o : Ooo) : Quiet s (s.setOoo o) := ⟨⟨rfl, rfl, rfl, rfl, rfl, rfl, rfl, rfl, rfl, rfl, rfl, rfl, rfl⟩, rfl, rfl, id⟩
theorem Quiet.stopFetch (s : State) : Quiet s s.stopFetch := ⟨⟨rfl, rfl, rfl, rfl, rfl, rfl, rfl, rfl, rfl, rfl, rfl, rfl, rfl⟩, rfl, rfl, id⟩
theorem Quiet.restartFetch (s : State) (a : Word) : Quiet s (s.restartFetch a) := ⟨⟨rfl, rfl, rfl, rfl, rfl, rfl, rfl, rfl, rfl, rfl, rfl, rfl, rfl⟩, rfl, rfl, id⟩
theorem Quiet.setFetchPc (s : State) (a : Word) : Quiet s (s.setFetchPc a) := ⟨⟨rfl, rfl, rfl, rfl, rfl, rfl, rfl, rfl, rfl, rfl, rfl, rfl, rfl⟩, rfl, rfl, id⟩
theorem Quiet.setDraws (s : State) (n : Nat) : Quiet s (s.setDraws n) := ⟨⟨rfl, rfl, rfl, rfl, rfl, rfl, rfl, rfl, rfl, rfl, rfl, rfl, rfl⟩, rfl, rfl, id⟩
theorem Quiet.drawn (s : State) : Quiet s s.drawn := ⟨⟨rfl, rfl, rfl, rfl, rfl, rfl, rfl, rfl, rfl, rfl, rfl, rfl, rfl⟩, rfl, rfl, id⟩
theorem Quiet.drawnIf (s : State) (b : Bool) : Quiet s (s.drawnIf b) := by
  cases b
  · exact Quiet.refl s
  · exact Quiet.drawn s
theorem Quiet.stallStructural (s : State) : Quiet s s.stallStructural := Quiet.setPipe s _
theorem Quiet.resolve (s : State) (pc : Word) (b : Bool) (p n : Word) : Quiet s (s.resolve pc b p n) :=
  ⟨⟨rfl, rfl, rfl, rfl, rfl, rfl, rfl, rfl, rfl, rfl, rfl, rfl, rfl⟩, rfl, rfl, id⟩

/-! Caches (46_cache.md R345). -/

theorem Cache.empty_lawful (c : CacheCfg) (first : Nat) : (Cache.empty c first).Lawful := ⟨rfl, Nat.le_refl 0⟩

/-- A lookup that hits finds a valid line of the tag. -/
theorem lookupWay_some {tag way : Nat} {ways : List Way} (h : lookupWay tag ways = some way) :
    ∃ l, validLine ways way = some l ∧ l.tag = tag ∧ ways[way]? = some (.valid l) ∧ way < ways.length := by
  obtain ⟨lt, hits, -⟩ := List.findIdx?_eq_some_iff_getElem.1 h
  have at_ : ways[way]? = some ways[way] := List.getElem?_eq_getElem lt
  cases e : ways[way] with
  | invalid n => rw [e] at hits; cases hits
  | valid l =>
    rw [e] at hits at_
    exact ⟨l, by rw [validLine, at_], by simpa [wayHits] using hits, at_, lt⟩

/-- A set that holds a valid line of the tag is found by the lookup. -/
theorem lookupWay_isSome {tag : Nat} {ways : List Way} {l : Line} (h : .valid l ∈ ways) (t : l.tag = tag) :
    (lookupWay tag ways).isSome = true := by
  rw [lookupWay, List.findIdx?_isSome, List.any_eq_true]
  exact ⟨_, h, by simp [wayHits, t]⟩

/-- Every access keeps the counter laws, whatever lines it decides on. -/
theorem Cache.accessSeeing_lawful {k : Cache} (h : k.Lawful) (seen : Cache) (c : CacheCfg) (a : Nat) (kind : AccessKind)
    (block : List Byte) (free : Nat) : (k.accessSeeing seen c a kind block free).cache.Lawful := by
  obtain ⟨h1, h2⟩ := h
  have bypass : (k.tick.onBypass c a kind).cache.Lawful := by
    constructor
    · show k.accesses + 1 = k.hits + (k.misses + 1); omega
    · show k.writebacks ≤ k.misses + 1; omega
  have allocate : ∀ victim drew, (k.tick.onAllocate c a victim kind block drew).cache.Lawful := by
    intro victim drew
    constructor
    · show k.accesses + 1 = k.hits + (k.misses + 1); omega
    · show k.writebacks + (Option.toList _).length ≤ k.misses + 1
      have : ∀ o : Option (Nat × List Byte), o.toList.length ≤ 1 := by rintro (_ | _) <;> simp
      exact Nat.add_le_add h2 (this _)
  unfold Cache.accessSeeing
  simp only
  split
  · constructor
    · show k.accesses + 1 = (k.hits + 1) + k.misses; omega
    · exact h2
  · split
    · exact allocate _ _
    · exact bypass

theorem Cache.access_lawful {k : Cache} (h : k.Lawful) (c : CacheCfg) (a : Nat) (kind : AccessKind) (block : List Byte)
    (free : Nat) : (k.access c a kind block free).cache.Lawful := Cache.accessSeeing_lawful h k c a kind block free

/-- The fill of a set that does not hold the block is the victim's. -/
theorem fillWay_miss {tag : Nat} {ways : List Way} (h : lookupWay tag ways = none) (victim : Nat) :
    fillWay tag ways victim = victim := by rw [fillWay, h]; rfl

/-- A hit replaces the line that the lookup found. -/
theorem modify_touch {ways : List Way} {way : Nat} {l : Line} (h : ways[way]? = some (.valid l)) (c : CacheCfg)
    (clock : Nat) (kind : AccessKind) (offset : Nat) :
    ways.modify way (fun w => w.touch c l.tag clock kind offset) =
      ways.set way (.valid (l.touch c clock kind offset)) := by
  obtain ⟨lt, e⟩ := List.getElem?_eq_some_iff.1 h
  refine List.ext_getElem? fun j => ?_
  rw [List.getElem?_modify, List.getElem?_set]
  by_cases hj : way = j
  · subst hj; simp [lt, e, Way.touch]
  · simp [hj]

theorem Quiet.accessL2 (s : State) (a : Nat) (kind : AccessKind) : Quiet s (s.accessL2 a kind).2 := by
  unfold State.accessL2
  split
  · rename_i c k _ hk
    refine Quiet.trans ?_ (Quiet.drawnIf _ _)
    refine ⟨⟨rfl, rfl, rfl, rfl, rfl, rfl, rfl, rfl, rfl, rfl, rfl, rfl, rfl⟩, rfl, rfl, fun h => ⟨h.1, h.2.1, ?_⟩⟩
    intro k' e
    cases e
    exact Cache.access_lawful (h.2.2 k hk) c a kind _ _
  · exact Quiet.refl s

theorem Quiet.sendDown (s : State) (w : Option (Nat × List Byte)) : Quiet s (s.sendDown w) := by
  unfold State.sendDown; split
  · exact Quiet.accessL2 s _ _
  · exact Quiet.refl s

theorem Quiet.fillFrom (s : State) (f : Option Nat) : Quiet s (s.fillFrom f).2 := by
  unfold State.fillFrom; split
  · exact Quiet.accessL2 s _ _
  · exact Quiet.refl s

theorem Quiet.nextLevel (s : State) (r : Access) : Quiet s (s.nextLevel r).2 :=
  (((Quiet.drawnIf s _).trans (Quiet.sendDown _ _)).trans (Quiet.fillFrom _ _)).trans (Quiet.sendDown _ _)

theorem Quiet.accessL1I (s : State) (a : Nat) : Quiet s (s.accessL1I a).2 := by
  unfold State.accessL1I
  refine Quiet.trans ?_ (Quiet.nextLevel _ _)
  exact ⟨⟨rfl, rfl, rfl, rfl, rfl, rfl, rfl, rfl, rfl, rfl, rfl, rfl, rfl⟩, rfl, rfl,
    fun h => ⟨Cache.access_lawful h.1 _ _ _ _ _, h.2.1, h.2.2⟩⟩

theorem Quiet.accessL1D (s : State) (a : Nat) (kind : AccessKind) : Quiet s (s.accessL1D a kind).2 := by
  unfold State.accessL1D
  refine Quiet.trans ?_ (Quiet.nextLevel _ _)
  exact ⟨⟨rfl, rfl, rfl, rfl, rfl, rfl, rfl, rfl, rfl, rfl, rfl, rfl, rfl⟩, rfl, rfl,
    fun h => ⟨h.1, Cache.access_lawful h.2.1 _ _ _ _ _, h.2.2⟩⟩

theorem Quiet.accessL2Seeing (s seen : State) (a : Nat) (kind : AccessKind) : Quiet s (s.accessL2Seeing seen a kind) := by
  unfold State.accessL2Seeing
  split
  · rename_i c k _ _ hk _
    refine ⟨⟨rfl, rfl, rfl, rfl, rfl, rfl, rfl, rfl, rfl, rfl, rfl, rfl, rfl⟩, rfl, rfl, fun h => ⟨h.1, h.2.1, ?_⟩⟩
    intro k' e
    cases e
    exact Cache.accessSeeing_lawful (h.2.2 k hk) _ c a kind _ _
  · exact Quiet.refl s

theorem Quiet.sendDownSeeing (s seen : State) (w : Option (Nat × List Byte)) : Quiet s (s.sendDownSeeing seen w) := by
  unfold State.sendDownSeeing; split
  · exact Quiet.accessL2Seeing s _ _ _
  · exact Quiet.refl s

theorem Quiet.fillFromSeeing (s seen : State) (f : Option Nat) : Quiet s (s.fillFromSeeing seen f) := by
  unfold State.fillFromSeeing; split
  · exact Quiet.accessL2Seeing s _ _ _
  · exact Quiet.refl s

theorem Quiet.readL1DFrom (s start : State) (a : Nat) : Quiet s (s.readL1DFrom start a).2 := by
  unfold State.readL1DFrom
  refine Quiet.trans ?_ (((Quiet.sendDownSeeing _ _ _).trans (Quiet.fillFromSeeing _ _ _)).trans (Quiet.setDraws _ _))
  exact ⟨⟨rfl, rfl, rfl, rfl, rfl, rfl, rfl, rfl, rfl, rfl, rfl, rfl, rfl⟩, rfl, rfl,
    fun h => ⟨h.1, Cache.accessSeeing_lawful h.2.1 _ _ _ _ _ _, h.2.2⟩⟩

/-- A read passes no store down. -/
theorem Cache.access_read_passDown (k : Cache) (c : CacheCfg) (a : Nat) (block : List Byte) (free : Nat) :
    (k.access c a .read block free).passDown = none := by
  unfold Cache.access Cache.accessSeeing
  simp only
  split
  · rfl
  · split <;> rfl

/-- The latency of a read and the free values it takes are those it has alone at the start of the phase. -/
theorem State.readL1DFrom_alone {s start : State} (h : s.cfg = start.cfg) (m : s.mem = start.mem) (a : Nat) :
    (s.readL1DFrom start a).1 = ((start.setDraws s.draws).accessL1D a .read).1 ∧
      (s.readL1DFrom start a).2.draws = ((start.setDraws s.draws).accessL1D a .read).2.draws := by
  unfold State.readL1DFrom State.accessL1D State.nextLevel State.blockBytes
  simp [h, m, Cache.access_read_passDown, State.sendDown, State.setDraws]

/-- States that differ in the draws only are equal once the draws are. -/
theorem State.eq_of_sameButDraws {t v : State} (h : t.setDraws 0 = v.setDraws 0) : t = v.setDraws t.draws := by
  have e := congrArg (fun x : State => x.setDraws t.draws) h
  exact e

/-- The L2's access in a phase and the ordinary access leave the same state, but for the draws taken. -/
theorem State.accessL2Seeing_sameButDraws {t v : State} (h : t.setDraws 0 = v.setDraws 0) (a : Nat)
    (kind : AccessKind) : (t.accessL2Seeing v a kind).setDraws 0 = (v.accessL2 a kind).2.setDraws 0 := by
  obtain ⟨d, rfl⟩ : ∃ d, t = v.setDraws d := ⟨t.draws, State.eq_of_sameButDraws h⟩
  unfold State.accessL2Seeing State.accessL2 State.drawnIf
  cases e : v.cfg.l2 <;> cases e' : v.micro.l2 <;> simp only [State.setDraws, e, e']
  rename_i c k
  have same : Cache.accessSeeing k k c a kind = k.access c a kind := rfl
  simp only [same]
  split <;> rfl

/-- The only read of a phase is an ordinary access. -/
theorem State.readL1DFrom_self (s : State) (a : Nat) : s.readL1DFrom s a = s.accessL1D a .read := by
  unfold State.readL1DFrom State.accessL1D State.nextLevel
  simp only [Cache.access_read_passDown]
  have same : ∀ k c block free, Cache.accessSeeing k k c a .read block free = k.access c a .read block free :=
    fun _ _ _ _ => rfl
  have v : s.setDraws s.draws = s := rfl
  simp only [v, same]
  generalize s.micro.l1d.access s.cfg.l1d a .read (s.blockBytes s.cfg.l1d a) (Config.freeNat s.draws) = r
  generalize hl : State.drawnIf _ r.drew = looked
  have h1 : ({ s with micro := { s.micro with l1d := r.cache } } : State).setDraws 0 = looked.setDraws 0 := by
    rw [← hl]; unfold State.drawnIf; split <;> rfl
  generalize ({ s with micro := { s.micro with l1d := r.cache } } : State) = t at h1 ⊢
  have h2 : (t.sendDownSeeing looked r.writeBack).setDraws 0 = (looked.sendDown r.writeBack).setDraws 0 := by
    unfold State.sendDownSeeing State.sendDown
    split
    · exact State.accessL2Seeing_sameButDraws h1 _ _
    · exact h1
  generalize t.sendDownSeeing looked r.writeBack = t2 at h2 ⊢
  generalize looked.sendDown r.writeBack = v2 at h2 ⊢
  have h3 : (t2.fillFromSeeing v2 r.fill).setDraws 0 = (v2.fillFrom r.fill).2.setDraws 0 := by
    unfold State.fillFromSeeing State.fillFrom
    split
    · exact State.accessL2Seeing_sameButDraws h2 _ _
    · exact h2
  exact Prod.ext rfl (State.eq_of_sameButDraws h3.symm).symm

/-! The in-order pipeline. -/

theorem Quiet.faultInMem (s : State) (m : Slot) (k : FaultKind) : Quiet s (s.faultInMem m k) :=
  (Quiet.setPipe s _).trans (Quiet.stopFetch _)

theorem Quiet.beginAccess (s : State) (m : Slot) (i : Instr) (op : MemOp) : Quiet s (s.beginAccess m i op) := by
  unfold State.beginAccess
  simp only
  split
  · exact Quiet.faultInMem s m _
  · exact (Quiet.accessL1D s _ _).trans (Quiet.setPipe _ _)

theorem Quiet.advanceAccess (s : State) : Quiet s s.advanceAccess := by
  unfold State.advanceAccess
  split
  · exact Quiet.refl s
  · split
    · split
      · split
        · exact Quiet.setPipe s _
        · exact Quiet.beginAccess s _ _ _
      · exact Quiet.refl s
    · exact Quiet.refl s

theorem Quiet.memPhase (s : State) : Quiet s s.memPhase := by
  unfold State.memPhase
  split
  · exact (Quiet.advanceAccess s).trans (Quiet.stallStructural _)
  · exact Quiet.advanceAccess s

theorem Quiet.faultInEx (s : State) (e : Slot) (k : FaultKind) : Quiet s (s.faultInEx e k) :=
  (Quiet.setPipe s _).trans (Quiet.stopFetch _)

theorem Quiet.executeAddress (s : State) (e : Slot) (op : MemOp) : Quiet s (s.executeAddress e op) := by
  unfold State.executeAddress
  split
  · exact Quiet.faultInEx s e _
  · exact Quiet.setPipe s _

theorem Quiet.resolveInEx (s : State) (e : Slot) (c : Computed) : Quiet s (s.resolveInEx e c).1 := by
  unfold State.resolveInEx
  simp only
  split
  · exact Quiet.resolve s _ _ _ _
  · exact (Quiet.resolve s _ _ _ _).trans (Quiet.setPipe _ _)

theorem Quiet.executeValue (s : State) (e : Slot) (i : Instr) : Quiet s (s.executeValue e i).1 := by
  unfold State.executeValue
  simp only
  split
  · exact Quiet.faultInEx s e _
  · split
    · exact ((Quiet.setDraws s _).trans (Quiet.setPipe _ _)).trans (Quiet.resolveInEx _ _ _)
    · exact (Quiet.setDraws s _).trans (Quiet.setPipe _ _)

theorem Quiet.exPhase (s : State) (wb : Option Slot) : Quiet s (s.exPhase wb).1 := by
  unfold State.exPhase
  split
  · exact Quiet.refl s
  · split
    · split
      · exact Quiet.refl s
      · split
        · exact Quiet.executeAddress s _ _
        · exact Quiet.executeValue s _ _
    · exact Quiet.refl s

theorem Quiet.readOperands (s : State) (d : Slot) (i : Instr) (wb : Option Slot) :
    Quiet s (s.readOperands d i wb).1 := by
  unfold State.readOperands
  simp only
  split
  · exact (Quiet.setPipe s _).trans (Quiet.stopFetch _)
  · split
    · exact Quiet.setPipe s _
    · exact Quiet.setPipe s _

theorem Quiet.idPhase (s : State) (wb : Option Slot) : Quiet s (s.idPhase wb).1 := by
  unfold State.idPhase
  split
  · exact Quiet.refl s
  · split
    · exact Quiet.refl s
    · exact Quiet.readOperands s _ _ _
    · split
      · exact (Quiet.setPipe s _).trans (Quiet.stopFetch _)
      · exact Quiet.readOperands s _ _ _

theorem Quiet.idPhaseUnless (s : State) (hold : Bool) (wb : Option Slot) : Quiet s (s.idPhaseUnless hold wb).1 := by
  unfold State.idPhaseUnless
  split
  · exact Quiet.refl s
  · exact Quiet.idPhase s wb

theorem Quiet.beginFetch {s t : State} (h : s.beginFetch = .next t) : Quiet s t := by
  unfold State.beginFetch at h
  simp only at h
  split at h
  · cases h; exact (Quiet.setPipe s _).trans (Quiet.stopFetch _)
  · split at h
    · cases h; exact (Quiet.setPipe s _).trans (Quiet.stopFetch _)
    · split at h
      · cases h
      · cases h; exact (Quiet.accessL1I s _).trans (Quiet.setPipe _ _)

theorem Quiet.ifPhase {s t : State} {hold : Bool} (h : s.ifPhase hold = .next t) : Quiet s t := by
  unfold State.ifPhase at h
  split at h
  · split at h
    · cases h; exact Quiet.refl s
    · cases h; exact (Quiet.setPipe s _).trans (Quiet.stallStructural _)
  · split at h
    · cases h; exact Quiet.refl s
    · exact Quiet.beginFetch h

theorem Quiet.ifPhaseUnless {s t : State} {r : Option Word} {hold : Bool} (h : s.ifPhaseUnless r hold = .next t) :
    Quiet s t := by
  unfold State.ifPhaseUnless at h
  split at h
  · cases h; exact Quiet.refl s
  · exact Quiet.ifPhase h

theorem Quiet.countSerialising (s : State) : Quiet s s.countSerialising := by
  unfold State.countSerialising
  split
  · exact Quiet.stallStructural s
  · exact Quiet.refl s

theorem Quiet.followFetch (s : State) : Quiet s s.followFetch := by
  unfold State.followFetch
  split
  · split
    · exact Quiet.setFetchPc s _
    · exact Quiet.refl s
  · exact Quiet.refl s

theorem Quiet.advanceStages (s : State) (hold stall : Bool) : Quiet s (s.advanceStages hold stall) := by
  unfold State.advanceStages
  simp only
  split
  · exact Quiet.setPipe s _
  · split
    · exact Quiet.setPipe s _
    · split
      · exact (Quiet.followFetch s).trans (Quiet.setPipe _ _)
      · exact Quiet.setPipe s _

theorem Quiet.applyRedirect (s : State) (r : Option Word) : Quiet s (s.applyRedirect r) := by
  unfold State.applyRedirect
  split
  · exact Quiet.restartFetch s _
  · exact Quiet.refl s

/-- MEM, EX, ID, IF and the advance are quiet. -/
theorem Quiet.youngerPhases {s t : State} {wb : Option Slot} (h : s.youngerPhases wb = .next t) : Quiet s t := by
  unfold State.youngerPhases at h
  simp only at h
  split at h
  · rename_i u hu
    cases h
    exact (((((Quiet.memPhase s).trans (Quiet.exPhase _ wb)).trans (Quiet.idPhaseUnless _ _ wb)).trans
      (Quiet.ifPhaseUnless hu)).trans (Quiet.countSerialising u)).trans
        ((Quiet.advanceStages _ _ _).trans (Quiet.applyRedirect _ _))
  · rename_i hn
    exact absurd h (hn t)

/-- The end of a timing engine's run changes the status alone. -/
theorem State.endOfText_eq (s : State) :
    s.endOfText = { s with status := if s.cfg.breakpoint = some s.pc then .paused s.pc else .endOfText } := by
  unfold State.endOfText
  split <;> rfl

/-! The out-of-order engine. -/

theorem visibleReg_ne (r : RegIdx) : visibleReg r ≠ 0#5 := by
  unfold visibleReg
  split
  · decide
  · assumption

/-- No write of an instruction with a visible destination is dropped. -/
theorem destNames_visibleDest (i : Instr) : destNames (visibleDest i) = destOperands (visibleDest i) := by
  cases i <;> simp [destNames, dropZero, destOperands, visibleDest, visibleReg_ne]

/-- A syscall that answers is the call on the architectural state; its entry is freed unless the call faulted. -/
theorem State.commitSyscall_next {s t : State} {h : RobEntry} {code : BitVec 20}
    (e : s.commitSyscall h code = .next t) :
    ∃ u, s.commitCall code h.pc = .next u ∧
      (u.status.fault = none ∧ t = u.freeHead h ∨ u.status.fault ≠ none ∧ t = u) := by
  unfold State.commitSyscall at e
  split at e
  · rename_i u hu
    refine ⟨u, hu, ?_⟩
    split at e <;> cases e <;> simp_all
  · rename_i hn
    exact absurd e (hn t)

theorem Quiet.resolveEntry (s : State) (id : Nat) (pc : Word) (c : Computed) : Quiet s (s.resolveEntry id pc c) := by
  unfold State.resolveEntry
  split
  · simp only
    split
    · exact (Quiet.resolve s _ _ _ _).trans (Quiet.setOoo _ _)
    · exact (Quiet.resolve s _ _ _ _).trans (Quiet.setOoo _ _)
  · exact Quiet.refl s

theorem Quiet.completeFaulted (s : State) (f : Fu) (x : Exec) (k : FaultKind) : Quiet s (s.completeFaulted f x k) :=
  ((Quiet.drawn s).trans (Quiet.drawn _)).trans (Quiet.setOoo _ _)

theorem Quiet.completeValue (s : State) (f : Fu) (x : Exec) (t : Station) : Quiet s (s.completeValue f x t) := by
  unfold State.completeValue
  split
  · exact Quiet.setOoo s _
  · simp only
    split
    · exact Quiet.completeFaulted s _ _ _
    · split
      · exact ((Quiet.setDraws s _).trans (Quiet.setOoo _ _)).trans (Quiet.resolveEntry _ _ _ _)
      · exact (Quiet.setDraws s _).trans (Quiet.setOoo _ _)

theorem Quiet.tryLoad (s start : State) (f : Fu) (x : Exec) (t : Station) (a : Nat) :
    Quiet s (s.tryLoad start f x t a) := by
  unfold State.tryLoad
  simp only
  split
  · exact Quiet.setOoo s _
  · exact (Quiet.readL1DFrom s _ _).trans (Quiet.setOoo _ _)

theorem Quiet.completeAddress (s start : State) (f : Fu) (x : Exec) (t : Station) (m : MemOp) :
    Quiet s (s.completeAddress start f x t m) := by
  unfold State.completeAddress
  split
  · exact Quiet.completeFaulted s _ _ _
  · simp only
    split
    · exact (Quiet.setOoo s _).trans (Quiet.completeFaulted _ _ _ _)
    · split
      · exact (Quiet.setOoo s _).trans (Quiet.setOoo _ _)
      · exact (Quiet.setOoo s _).trans (Quiet.tryLoad _ _ _ _ _ _)

theorem Quiet.executeEntry (start s : State) (id : Nat) : Quiet s (start.executeEntry s id) := by
  unfold State.executeEntry
  split
  · split
    · unfold State.advanceExec
      split
      · unfold State.completeExec
        split
        · exact Quiet.completeValue s _ _ _
        · exact Quiet.completeAddress s _ _ _ _ _
        · exact Quiet.tryLoad s _ _ _ _ _
        · exact Quiet.setOoo s _
      · exact Quiet.setOoo s _
    · exact Quiet.refl s
  · exact Quiet.refl s

theorem Quiet.executePhase (s : State) : Quiet s s.executePhase := Quiet.foldl (Quiet.executeEntry s) _ s

theorem Quiet.endFetch (s : State) : Quiet s s.endFetch := (Quiet.setOoo s _).trans (Quiet.stopFetch _)

theorem Quiet.dispatchFault (s : State) (r : FetchRec) (k : FaultKind) : Quiet s (s.dispatchFault r k) :=
  (Quiet.setOoo s _).trans (Quiet.endFetch _)

theorem Quiet.dispatchInstr (s : State) (r : FetchRec) (i : Instr) (k : Nat) : Quiet s (s.dispatchInstr r i k) := by
  unfold State.dispatchInstr
  simp only
  split
  · exact (Quiet.setOoo s _).trans (Quiet.endFetch _)
  · exact Quiet.setOoo s _

theorem Quiet.dispatchOne {s t : State} (h : s.dispatchOne = some t) : Quiet s t := by
  unfold State.dispatchOne at h
  simp only at h
  split at h
  · cases h
  · split at h
    · cases h
    · split at h
      · cases h; exact Quiet.dispatchFault s _ _
      · split at h
        · cases h; exact Quiet.dispatchFault s _ _
        · rw [Option.map_eq_some_iff] at h
          obtain ⟨k, -, rfl⟩ := h
          exact Quiet.dispatchInstr s _ _ k

theorem Quiet.dispatchPhase (n : Nat) (s : State) : Quiet s (State.dispatchPhase n s) := by
  induction n generalizing s with
  | zero => exact Quiet.refl s
  | succ k ih =>
    unfold State.dispatchPhase
    split
    · rename_i t h; exact (Quiet.dispatchOne h).trans (ih t)
    · exact Quiet.refl s

theorem Quiet.pushFetch (s : State) (r : FetchRec) (l : Nat) : Quiet s (s.pushFetch r l) := Quiet.setOoo s _

theorem Quiet.fetchGroup {n l : Nat} {s t : State} (h : State.fetchGroup n l s = .next t) : Quiet s t := by
  induction n generalizing l s with
  | zero => cases h; exact Quiet.refl _
  | succ k ih =>
    unfold State.fetchGroup at h
    simp only at h
    split at h
    · cases h; exact Quiet.refl _
    · split at h
      · cases h; exact (Quiet.pushFetch _ _ _).trans (Quiet.stopFetch _)
      · split at h
        · cases h; exact (Quiet.pushFetch _ _ _).trans (Quiet.stopFetch _)
        · split at h
          · cases h
          · exact ((Quiet.accessL1I _ _).trans ((Quiet.pushFetch _ _ _).trans (Quiet.setFetchPc _ _))).trans (ih h)

theorem Quiet.fetchPhase {s t : State} (h : s.fetchPhase = .next t) : Quiet s t := by
  unfold State.fetchPhase at h
  split at h
  · cases h; exact Quiet.setOoo s _
  · split at h
    · exact Quiet.fetchGroup h
    · cases h; exact Quiet.refl s

theorem Quiet.squashPhase (s : State) : Quiet s s.squashPhase := by
  unfold State.squashPhase
  split
  · exact Quiet.refl s
  · exact (Quiet.setOoo s _).trans (Quiet.restartFetch _ _)

/-- Writeback, execute, issue, dispatch, fetch and squash are quiet. -/
theorem Quiet.laterPhases {s t : State} (h : s.laterPhases = .next t) : Quiet s t := by
  unfold State.laterPhases at h
  simp only at h
  split at h
  · rename_i u hu
    cases h
    exact (((Quiet.setOoo s _).trans (Quiet.executePhase _)).trans
      ((Quiet.setOoo _ _).trans (Quiet.dispatchPhase _ _))).trans ((Quiet.fetchPhase hu).trans (Quiet.squashPhase u))
  · rename_i hn
    exact absurd h (hn t)

end Sys2Proof.Machine
end

