-- ==== Sys2Proof/Tests/Slice0.lean ====
section
/-!
SUPPORT. Tests: ill-formed terms, every instruction's word written from the spec's encoding, single steps from the vectors of
spec/95_test_vectors.md, and for each statement of Obligations.lean witnesses of its hypotheses.
-/

namespace Sys2Proof.Machine.Tests

/-! Small states. -/

/-- General registers set. -/
def gprs (l : List (RegIdx × Word)) (s : State) : State := l.foldl (fun s r => s.setGpr r.1 r.2) s

/-- Floating-point registers set. -/
def fprs (l : List (RegIdx × Word)) (s : State) : State := l.foldl (fun s r => s.setFpr r.1 r.2) s

/-- The reset state under another configuration. -/
def under (f : Config → Config) : State := State.construct (f Config.default)

/-- The reset state with the read-only range [0x100, 0x200) armed. -/
def locked : State := { under (fun c => { c with roBase := 0x100, roEnd := 0x200 }) with roArmed := true }

/-- What a word does as one instruction, seen through `f`; none when it does not decode or stops. -/
def after {α : Type} (w : Word) (s : State) (f : State → α) : Option α :=
  match decode w with
  | .ok i =>
    match exec i s with
    | .next t => some (f t)
    | _ => none
  | .error _ => none

/-- The next state of a step. -/
def nextOf (r : Result) : Option State :=
  match r with
  | .next t => some t
  | _ => none

theorem exists_next {r : Result} (h : (nextOf r).isSome = true) : ∃ t, r = .next t := by
  cases r with
  | next t => exact ⟨t, rfl⟩
  | fault => cases h
  | refused => cases h

/-! Ill-formed terms (30_encoding.md R111): the one check of WellFormed.lean. -/

theorem test_sll_zero_ill_formed : (Instr.sll 0#5 0#5 0#5).wf = false := by decide
theorem test_sll_one_well_formed : (Instr.sll 0#5 0#5 1#5).wf = true := by decide
theorem test_nop_well_formed : Instr.nop.wf = true := by decide

/-! Decoding: each word is written field by field from the encoding its rule gives. -/

theorem test_decode_three_register :
    decode (0b000000#6 ++ 0b10011#5 ++ 0b01010#5 ++ 0b11001#5 ++ 0b00000#5 ++ 0b100000#6) = .ok (.add 25#5 19#5 10#5) ∧
    decode (0b000000#6 ++ 0b10011#5 ++ 0b01010#5 ++ 0b11001#5 ++ 0b00000#5 ++ 0b100001#6) = .ok (.addu 25#5 19#5 10#5) ∧
    decode (0b000000#6 ++ 0b10011#5 ++ 0b01010#5 ++ 0b11001#5 ++ 0b00000#5 ++ 0b100010#6) = .ok (.sub 25#5 19#5 10#5) ∧
    decode (0b000000#6 ++ 0b10011#5 ++ 0b01010#5 ++ 0b11001#5 ++ 0b00000#5 ++ 0b100011#6) = .ok (.subu 25#5 19#5 10#5) ∧
    decode (0b000000#6 ++ 0b10011#5 ++ 0b01010#5 ++ 0b11001#5 ++ 0b00000#5 ++ 0b100100#6) = .ok (.and 25#5 19#5 10#5) ∧
    decode (0b000000#6 ++ 0b10011#5 ++ 0b01010#5 ++ 0b11001#5 ++ 0b00000#5 ++ 0b100101#6) = .ok (.or 25#5 19#5 10#5) ∧
    decode (0b000000#6 ++ 0b10011#5 ++ 0b01010#5 ++ 0b11001#5 ++ 0b00000#5 ++ 0b100110#6) = .ok (.xor 25#5 19#5 10#5) ∧
    decode (0b000000#6 ++ 0b10011#5 ++ 0b01010#5 ++ 0b11001#5 ++ 0b00000#5 ++ 0b100111#6) = .ok (.nor 25#5 19#5 10#5) ∧
    decode (0b000000#6 ++ 0b10011#5 ++ 0b01010#5 ++ 0b11001#5 ++ 0b00000#5 ++ 0b101010#6) = .ok (.slt 25#5 19#5 10#5) ∧
    decode (0b000000#6 ++ 0b10011#5 ++ 0b01010#5 ++ 0b11001#5 ++ 0b00000#5 ++ 0b101011#6) = .ok (.sltu 25#5 19#5 10#5) := by decide

theorem test_decode_immediate :
    decode (0b001000#6 ++ 0b10011#5 ++ 0b01010#5 ++ 0b1001101010111100#16) = .ok (.addi 10#5 19#5 0x9ABC#16) ∧
    decode (0b001001#6 ++ 0b10011#5 ++ 0b01010#5 ++ 0b1001101010111100#16) = .ok (.addiu 10#5 19#5 0x9ABC#16) ∧
    decode (0b001010#6 ++ 0b10011#5 ++ 0b01010#5 ++ 0b1001101010111100#16) = .ok (.slti 10#5 19#5 0x9ABC#16) ∧
    decode (0b001011#6 ++ 0b10011#5 ++ 0b01010#5 ++ 0b1001101010111100#16) = .ok (.sltiu 10#5 19#5 0x9ABC#16) ∧
    decode (0b001100#6 ++ 0b10011#5 ++ 0b01010#5 ++ 0b1001101010111100#16) = .ok (.andi 10#5 19#5 0x9ABC#16) ∧
    decode (0b001101#6 ++ 0b10011#5 ++ 0b01010#5 ++ 0b1001101010111100#16) = .ok (.ori 10#5 19#5 0x9ABC#16) ∧
    decode (0b001110#6 ++ 0b10011#5 ++ 0b01010#5 ++ 0b1001101010111100#16) = .ok (.xori 10#5 19#5 0x9ABC#16) ∧
    decode (0b001111#6 ++ 0b00000#5 ++ 0b01010#5 ++ 0b1001101010111100#16) = .ok (.lui 10#5 0x9ABC#16) := by decide

theorem test_decode_shifts :
    decode (0b000000#6 ++ 0b00000#5 ++ 0b01010#5 ++ 0b11001#5 ++ 0b00111#5 ++ 0b000000#6) = .ok (.sll 25#5 10#5 7#5) ∧
    decode (0b000000#6 ++ 0b00000#5 ++ 0b01010#5 ++ 0b11001#5 ++ 0b00111#5 ++ 0b000010#6) = .ok (.srl 25#5 10#5 7#5) ∧
    decode (0b000000#6 ++ 0b00000#5 ++ 0b01010#5 ++ 0b11001#5 ++ 0b00111#5 ++ 0b000011#6) = .ok (.sra 25#5 10#5 7#5) ∧
    decode (0b000000#6 ++ 0b10011#5 ++ 0b01010#5 ++ 0b11001#5 ++ 0b00000#5 ++ 0b000100#6) = .ok (.sllv 25#5 10#5 19#5) ∧
    decode (0b000000#6 ++ 0b10011#5 ++ 0b01010#5 ++ 0b11001#5 ++ 0b00000#5 ++ 0b000110#6) = .ok (.srlv 25#5 10#5 19#5) ∧
    decode (0b000000#6 ++ 0b10011#5 ++ 0b01010#5 ++ 0b11001#5 ++ 0b00000#5 ++ 0b000111#6) = .ok (.srav 25#5 10#5 19#5) := by decide

theorem test_decode_muldiv :
    decode (0b000000#6 ++ 0b10011#5 ++ 0b01010#5 ++ 0b00000#5 ++ 0b00000#5 ++ 0b011000#6) = .ok (.mult 19#5 10#5) ∧
    decode (0b000000#6 ++ 0b10011#5 ++ 0b01010#5 ++ 0b00000#5 ++ 0b00000#5 ++ 0b011001#6) = .ok (.multu 19#5 10#5) ∧
    decode (0b000000#6 ++ 0b10011#5 ++ 0b01010#5 ++ 0b00000#5 ++ 0b00000#5 ++ 0b011010#6) = .ok (.div 19#5 10#5) ∧
    decode (0b000000#6 ++ 0b10011#5 ++ 0b01010#5 ++ 0b00000#5 ++ 0b00000#5 ++ 0b011011#6) = .ok (.divu 19#5 10#5) ∧
    decode (0b000000#6 ++ 0b00000#5 ++ 0b00000#5 ++ 0b11001#5 ++ 0b00000#5 ++ 0b010000#6) = .ok (.mfhi 25#5) ∧
    decode (0b000000#6 ++ 0b00000#5 ++ 0b00000#5 ++ 0b11001#5 ++ 0b00000#5 ++ 0b010010#6) = .ok (.mflo 25#5) ∧
    decode (0b000000#6 ++ 0b10011#5 ++ 0b00000#5 ++ 0b00000#5 ++ 0b00000#5 ++ 0b010001#6) = .ok (.mthi 19#5) ∧
    decode (0b000000#6 ++ 0b10011#5 ++ 0b00000#5 ++ 0b00000#5 ++ 0b00000#5 ++ 0b010011#6) = .ok (.mtlo 19#5) := by decide

theorem test_decode_loads :
    decode (0b100011#6 ++ 0b10011#5 ++ 0b01010#5 ++ 0b1001101010111100#16) = .ok (.lw 10#5 19#5 0x9ABC#16) ∧
    decode (0b100001#6 ++ 0b10011#5 ++ 0b01010#5 ++ 0b1001101010111100#16) = .ok (.lh 10#5 19#5 0x9ABC#16) ∧
    decode (0b100101#6 ++ 0b10011#5 ++ 0b01010#5 ++ 0b1001101010111100#16) = .ok (.lhu 10#5 19#5 0x9ABC#16) ∧
    decode (0b100000#6 ++ 0b10011#5 ++ 0b01010#5 ++ 0b1001101010111100#16) = .ok (.lb 10#5 19#5 0x9ABC#16) ∧
    decode (0b100100#6 ++ 0b10011#5 ++ 0b01010#5 ++ 0b1001101010111100#16) = .ok (.lbu 10#5 19#5 0x9ABC#16) ∧
    decode (0b110001#6 ++ 0b10011#5 ++ 0b01001#5 ++ 0b1001101010111100#16) = .ok (.lwc1 9#5 19#5 0x9ABC#16) := by decide

theorem test_decode_stores :
    decode (0b101011#6 ++ 0b10011#5 ++ 0b01010#5 ++ 0b1001101010111100#16) = .ok (.sw 10#5 19#5 0x9ABC#16) ∧
    decode (0b101001#6 ++ 0b10011#5 ++ 0b01010#5 ++ 0b1001101010111100#16) = .ok (.sh 10#5 19#5 0x9ABC#16) ∧
    decode (0b101000#6 ++ 0b10011#5 ++ 0b01010#5 ++ 0b1001101010111100#16) = .ok (.sb 10#5 19#5 0x9ABC#16) ∧
    decode (0b111001#6 ++ 0b10011#5 ++ 0b01001#5 ++ 0b1001101010111100#16) = .ok (.swc1 9#5 19#5 0x9ABC#16) := by decide

theorem test_decode_branches :
    decode (0b000100#6 ++ 0b10011#5 ++ 0b01010#5 ++ 0b1001101010111100#16) = .ok (.beq 19#5 10#5 0x9ABC#16) ∧
    decode (0b000101#6 ++ 0b10011#5 ++ 0b01010#5 ++ 0b1001101010111100#16) = .ok (.bne 19#5 10#5 0x9ABC#16) ∧
    decode (0b000111#6 ++ 0b10011#5 ++ 0b00000#5 ++ 0b1001101010111100#16) = .ok (.bgtz 19#5 0x9ABC#16) ∧
    decode (0b000001#6 ++ 0b10011#5 ++ 0b00001#5 ++ 0b1001101010111100#16) = .ok (.bgez 19#5 0x9ABC#16) ∧
    decode (0b000001#6 ++ 0b10011#5 ++ 0b00000#5 ++ 0b1001101010111100#16) = .ok (.bltz 19#5 0x9ABC#16) ∧
    decode (0b000110#6 ++ 0b10011#5 ++ 0b00000#5 ++ 0b1001101010111100#16) = .ok (.blez 19#5 0x9ABC#16) ∧
    decode (0b010001#6 ++ 0b01000#5 ++ 0b00001#5 ++ 0b1001101010111100#16) = .ok (.bc1t 0x9ABC#16) ∧
    decode (0b010001#6 ++ 0b01000#5 ++ 0b00000#5 ++ 0b1001101010111100#16) = .ok (.bc1f 0x9ABC#16) := by decide

theorem test_decode_jumps :
    decode (0b000010#6 ++ 0b10101010111100110111100101#26) = .ok (.j 0x2ABCDE5#26) ∧
    decode (0b000011#6 ++ 0b10101010111100110111100101#26) = .ok (.jal 0x2ABCDE5#26) ∧
    decode (0b000000#6 ++ 0b10011#5 ++ 0b00000#5 ++ 0b00000#5 ++ 0b00000#5 ++ 0b001000#6) = .ok (.jr 19#5) ∧
    decode (0b000000#6 ++ 0b10011#5 ++ 0b00000#5 ++ 0b11001#5 ++ 0b00000#5 ++ 0b001001#6) = .ok (.jalr 25#5 19#5) := by decide

theorem test_decode_float_arithmetic :
    decode (0b010001#6 ++ 0b10000#5 ++ 0b01001#5 ++ 0b10110#5 ++ 0b01101#5 ++ 0b000000#6) = .ok (.addS 13#5 22#5 9#5) ∧
    decode (0b010001#6 ++ 0b10000#5 ++ 0b01001#5 ++ 0b10110#5 ++ 0b01101#5 ++ 0b000001#6) = .ok (.subS 13#5 22#5 9#5) ∧
    decode (0b010001#6 ++ 0b10000#5 ++ 0b01001#5 ++ 0b10110#5 ++ 0b01101#5 ++ 0b000010#6) = .ok (.mulS 13#5 22#5 9#5) ∧
    decode (0b010001#6 ++ 0b10000#5 ++ 0b01001#5 ++ 0b10110#5 ++ 0b01101#5 ++ 0b000011#6) = .ok (.divS 13#5 22#5 9#5) := by decide

theorem test_decode_float_moves :
    decode (0b010001#6 ++ 0b10000#5 ++ 0b00000#5 ++ 0b10110#5 ++ 0b01101#5 ++ 0b000101#6) = .ok (.absS 13#5 22#5) ∧
    decode (0b010001#6 ++ 0b10000#5 ++ 0b00000#5 ++ 0b10110#5 ++ 0b01101#5 ++ 0b000111#6) = .ok (.negS 13#5 22#5) ∧
    decode (0b010001#6 ++ 0b10000#5 ++ 0b00000#5 ++ 0b10110#5 ++ 0b01101#5 ++ 0b000110#6) = .ok (.movS 13#5 22#5) ∧
    decode (0b010001#6 ++ 0b10100#5 ++ 0b00000#5 ++ 0b10110#5 ++ 0b01101#5 ++ 0b100000#6) = .ok (.cvtSW 13#5 22#5) ∧
    decode (0b010001#6 ++ 0b10000#5 ++ 0b00000#5 ++ 0b10110#5 ++ 0b01101#5 ++ 0b100100#6) = .ok (.cvtWS 13#5 22#5) := by decide

theorem test_decode_float_compares :
    decode (0b010001#6 ++ 0b10000#5 ++ 0b01001#5 ++ 0b10110#5 ++ 0b00000#5 ++ 0b110010#6) = .ok (.cEqS 22#5 9#5) ∧
    decode (0b010001#6 ++ 0b10000#5 ++ 0b01001#5 ++ 0b10110#5 ++ 0b00000#5 ++ 0b111100#6) = .ok (.cLtS 22#5 9#5) ∧
    decode (0b010001#6 ++ 0b10000#5 ++ 0b01001#5 ++ 0b10110#5 ++ 0b00000#5 ++ 0b111110#6) = .ok (.cLeS 22#5 9#5) := by decide

theorem test_decode_system :
    decode (0b000000#6 ++ 0b01011010010110100101#20 ++ 0b001100#6) = .ok (.syscall 0x5A5A5#20) ∧
    decode (0b000000#6 ++ 0b01011010010110100101#20 ++ 0b001101#6) = .ok (.brk 0x5A5A5#20) ∧
    decode (0b000000#6 ++ 0b00000#5 ++ 0b00000#5 ++ 0b00000#5 ++ 0b00000#5 ++ 0b000000#6) = .ok .nop := by decide

/-- 95_test_vectors.md G2: words outside the set. -/
theorem test_invalid_words :
    [0xFFFFFFFF#32, 0x70221002#32, 0x42000018#32, 0x0109500A#32, 0x04110004#32, 0x01095060#32, 0x00284800#32, 0x3C281234#32,
      0x03E00408#32, 0x46220800#32, 0x46020932#32, 0x4505000B#32].all
      (fun w => decode w == .error (.invalidInstruction w)) = true := by decide

/-! Single steps: the vectors of 95_test_vectors.md, by their ids there. -/

/-- A1: `add $t2,$t0,$t1`. -/
theorem test_add : after 0x01095020#32 (gprs [(8#5, 0xF#32), (9#5, 0x19#32)] State.reset)
    (fun t => (t.pc, t.readGpr 10#5)) = some (0x4#32, 0x28#32) := by decide

/-- A2: `add $t2,$t0,$t1`. -/
theorem test_add_overflows : after 0x01095020#32 (gprs [(8#5, 0x7FFFFFFF#32), (9#5, 0x1#32), (10#5, 0xAAAA5555#32)] State.reset)
    (fun t => (t.pc, t.status, t.readGpr 10#5)) = some (0x0#32, .faulted .arithmeticOverflow, 0xAAAA5555#32) := by decide

/-- A9: `addu $t2,$t0,$t1`. -/
theorem test_addu : after 0x01095021#32 (gprs [(8#5, 0x7FFFFFFF#32), (9#5, 0x1#32)] State.reset)
    (fun t => (t.pc, t.readGpr 10#5)) = some (0x4#32, 0x80000000#32) := by decide

/-- A11: `sub $t2,$t0,$t1`. -/
theorem test_sub : after 0x01095022#32 (gprs [(8#5, 0x5#32), (9#5, 0x7#32)] State.reset)
    (fun t => (t.pc, t.readGpr 10#5)) = some (0x4#32, 0xFFFFFFFE#32) := by decide

/-- A12: `sub $t2,$t0,$t1`. -/
theorem test_sub_overflows : after 0x01095022#32 (gprs [(8#5, 0x80000000#32), (9#5, 0x1#32)] State.reset)
    (fun t => (t.pc, t.status)) = some (0x0#32, .faulted .arithmeticOverflow) := by decide

/-- A16: `subu $t2,$t0,$t1`. -/
theorem test_subu : after 0x01095023#32 (gprs [(8#5, 0x0#32), (9#5, 0x1#32)] State.reset)
    (fun t => (t.pc, t.readGpr 10#5)) = some (0x4#32, 0xFFFFFFFF#32) := by decide

/-- A18: `and $t2,$t0,$t1`. -/
theorem test_and : after 0x01095024#32 (gprs [(8#5, 0xF0F0F0F0#32), (9#5, 0xFF00FF0#32)] State.reset)
    (fun t => (t.pc, t.readGpr 10#5)) = some (0x4#32, 0xF000F0#32) := by decide

/-- A19: `or $t2,$t0,$t1`. -/
theorem test_or : after 0x01095025#32 (gprs [(8#5, 0xF0F0F0F0#32), (9#5, 0xFF00FF0#32)] State.reset)
    (fun t => (t.pc, t.readGpr 10#5)) = some (0x4#32, 0xFFF0FFF0#32) := by decide

/-- A20: `xor $t2,$t0,$t1`. -/
theorem test_xor : after 0x01095026#32 (gprs [(8#5, 0xF0F0F0F0#32), (9#5, 0xFF00FF0#32)] State.reset)
    (fun t => (t.pc, t.readGpr 10#5)) = some (0x4#32, 0xFF00FF00#32) := by decide

/-- A21: `nor $t2,$t0,$t1`. -/
theorem test_nor : after 0x01095027#32 (gprs [(8#5, 0xF0F0F0F0#32), (9#5, 0xFF00FF0#32)] State.reset)
    (fun t => (t.pc, t.readGpr 10#5)) = some (0x4#32, 0xF000F#32) := by decide

/-- A25: `slt $t2,$t0,$t1`. -/
theorem test_slt : after 0x0109502A#32 (gprs [(8#5, 0x80000000#32), (9#5, 0x7FFFFFFF#32)] State.reset)
    (fun t => (t.pc, t.readGpr 10#5)) = some (0x4#32, 0x1#32) := by decide

/-- A26: `sltu $t2,$t0,$t1`. -/
theorem test_sltu : after 0x0109502B#32 (gprs [(8#5, 0x7FFFFFFF#32), (9#5, 0x80000000#32)] State.reset)
    (fun t => (t.pc, t.readGpr 10#5)) = some (0x4#32, 0x1#32) := by decide

/-- A29: `addi $t0,$t0,0x7FFF`. -/
theorem test_addi_overflows : after 0x21087FFF#32 (gprs [(8#5, 0x7FFFFFFF#32)] State.reset)
    (fun t => (t.pc, t.status, t.readGpr 8#5)) = some (0x0#32, .faulted .arithmeticOverflow, 0x7FFFFFFF#32) := by decide

/-- A31: `addi $t0,$t0,-32768`. -/
theorem test_addi : after 0x21088000#32 (gprs [(8#5, 0x8000#32)] State.reset)
    (fun t => (t.pc, t.readGpr 8#5)) = some (0x4#32, 0x0#32) := by decide

/-- A34: `addiu $t0,$0,0xFFFF`. -/
theorem test_addiu : after 0x2408FFFF#32 State.reset
    (fun t => (t.pc, t.readGpr 8#5)) = some (0x4#32, 0xFFFFFFFF#32) := by decide

/-- A35: `slti $t1,$t0,-1`. -/
theorem test_slti : after 0x2909FFFF#32 (gprs [(8#5, 0xFFFFFFFE#32)] State.reset)
    (fun t => (t.pc, t.readGpr 9#5)) = some (0x4#32, 0x1#32) := by decide

/-- A37: `sltiu $t1,$t0,0xFFFF`. -/
theorem test_sltiu : after 0x2D09FFFF#32 (gprs [(8#5, 0xFFFFFFFE#32)] State.reset)
    (fun t => (t.pc, t.readGpr 9#5)) = some (0x4#32, 0x1#32) := by decide

/-- A41: `andi $t1,$t0,0x8000`. -/
theorem test_andi : after 0x31098000#32 (gprs [(8#5, 0xFFFFFFFF#32)] State.reset)
    (fun t => (t.pc, t.readGpr 9#5)) = some (0x4#32, 0x8000#32) := by decide

/-- A42: `ori $t1,$0,0xFFFF`. -/
theorem test_ori : after 0x3409FFFF#32 State.reset
    (fun t => (t.pc, t.readGpr 9#5)) = some (0x4#32, 0xFFFF#32) := by decide

/-- A43: `xori $t1,$t0,0xFFFF`. -/
theorem test_xori : after 0x3909FFFF#32 (gprs [(8#5, 0xFFFFFFFF#32)] State.reset)
    (fun t => (t.pc, t.readGpr 9#5)) = some (0x4#32, 0xFFFF0000#32) := by decide

/-- A46: `sll $t1,$t0,31`. -/
theorem test_sll : after 0x00084FC0#32 (gprs [(8#5, 0x3#32)] State.reset)
    (fun t => (t.pc, t.readGpr 9#5)) = some (0x4#32, 0x80000000#32) := by decide

/-- A48: `srl $t1,$t0,31`. -/
theorem test_srl : after 0x00084FC2#32 (gprs [(8#5, 0x80000000#32)] State.reset)
    (fun t => (t.pc, t.readGpr 9#5)) = some (0x4#32, 0x1#32) := by decide

/-- A51: `sra $t1,$t0,4`. -/
theorem test_sra : after 0x00084903#32 (gprs [(8#5, 0xF0000000#32)] State.reset)
    (fun t => (t.pc, t.readGpr 9#5)) = some (0x4#32, 0xFF000000#32) := by decide

/-- A53: `sllv $t2,$t0,$t1`. -/
theorem test_sllv : after 0x01285004#32 (gprs [(8#5, 0x1#32), (9#5, 0x21#32)] State.reset)
    (fun t => (t.pc, t.readGpr 10#5)) = some (0x4#32, 0x2#32) := by decide

/-- A54: `srlv $t2,$t0,$t1`. -/
theorem test_srlv : after 0x01285006#32 (gprs [(8#5, 0x80000000#32), (9#5, 0xFFFFFFE0#32), (10#5, 0x1#32)] State.reset)
    (fun t => (t.pc, t.readGpr 10#5)) = some (0x4#32, 0x80000000#32) := by decide

/-- A55: `srav $t2,$t0,$t1`. -/
theorem test_srav : after 0x01285007#32 (gprs [(8#5, 0x80000000#32), (9#5, 0x4#32)] State.reset)
    (fun t => (t.pc, t.readGpr 10#5)) = some (0x4#32, 0xF8000000#32) := by decide

/-- B2: `mult $t0,$t1`. -/
theorem test_mult : after 0x01090018#32 (gprs [(8#5, 0xFFFFFFFF#32), (9#5, 0xFFFFFFFF#32)] { State.reset with hi := 0x5#32, lo := 0x5#32 })
    (fun t => (t.pc, t.hi, t.lo)) = some (0x4#32, 0x0#32, 0x1#32) := by decide

/-- B5: `multu $t0,$t1`. -/
theorem test_multu : after 0x01090019#32 (gprs [(8#5, 0xFFFFFFFF#32), (9#5, 0xFFFFFFFF#32)] State.reset)
    (fun t => (t.pc, t.hi, t.lo)) = some (0x4#32, 0xFFFFFFFE#32, 0x1#32) := by decide

/-- B9: `div $t0,$t1`. -/
theorem test_div : after 0x0109001A#32 (gprs [(8#5, 0xFFFFFD30#32), (9#5, 0x7#32)] State.reset)
    (fun t => (t.pc, t.hi, t.lo)) = some (0x4#32, 0xFFFFFFFA#32, 0xFFFFFF9A#32) := by decide

/-- B13: `divu $t0,$t1`. -/
theorem test_divu : after 0x0109001B#32 (gprs [(8#5, 0xFFFFFFFF#32), (9#5, 0x2#32)] State.reset)
    (fun t => (t.pc, t.hi, t.lo)) = some (0x4#32, 0x1#32, 0x7FFFFFFF#32) := by decide

/-- B15: `div $t0,$t1`. -/
theorem test_div_by_zero : after 0x0109001A#32 (gprs [(8#5, 0x5#32), (9#5, 0x0#32)] { State.reset with hi := 0x11#32, lo := 0x22#32 })
    (fun t => (t.pc, t.status, t.readGpr 8#5)) = some (0x0#32, .faulted .divisionByZero, 0x5#32) := by decide

/-- B17: `mfhi $t2`. -/
theorem test_mfhi : after 0x00005010#32 { State.reset with hi := 0xDEADBEEF#32, lo := 0x1#32 }
    (fun t => (t.pc, t.readGpr 10#5)) = some (0x4#32, 0xDEADBEEF#32) := by decide

/-- B18: `mflo $t2`. -/
theorem test_mflo : after 0x00005012#32 { State.reset with hi := 0xDEADBEEF#32, lo := 0x2D0#32 }
    (fun t => (t.pc, t.readGpr 10#5)) = some (0x4#32, 0x2D0#32) := by decide

/-- B20: `mthi $t0`. -/
theorem test_mthi : after 0x01000011#32 (gprs [(8#5, 0x12345678#32)] { State.reset with lo := 0x3#32 })
    (fun t => (t.pc, t.hi)) = some (0x4#32, 0x12345678#32) := by decide

/-- B21: `mtlo $t0`. -/
theorem test_mtlo : after 0x01000013#32 (gprs [(8#5, 0x9ABCDEF0#32)] { State.reset with hi := 0x3#32 })
    (fun t => (t.pc, t.lo)) = some (0x4#32, 0x9ABCDEF0#32) := by decide

/-- C2: `lh $t0,0x100($0)`. -/
theorem test_lh : after 0x84080100#32 (State.storeBytes State.reset 0x100 [0x84#8, 0xB3#8, 0x22#8, 0x11#8])
    (fun t => (t.pc, t.readGpr 8#5)) = some (0x4#32, 0xFFFFB384#32) := by decide

/-- C4: `lhu $t0,0x100($0)`. -/
theorem test_lhu : after 0x94080100#32 (State.storeBytes State.reset 0x100 [0x84#8, 0xB3#8, 0x22#8, 0x11#8])
    (fun t => (t.pc, t.readGpr 8#5)) = some (0x4#32, 0xB384#32) := by decide

/-- C5: `lb $t0,0x100($0)`. -/
theorem test_lb : after 0x80080100#32 (State.storeBytes State.reset 0x100 [0x84#8, 0xB3#8, 0x22#8, 0x11#8])
    (fun t => (t.pc, t.readGpr 8#5)) = some (0x4#32, 0xFFFFFF84#32) := by decide

/-- C8: `lbu $t0,0x101($0)`. -/
theorem test_lbu : after 0x90080101#32 (State.storeBytes State.reset 0x100 [0x84#8, 0xB3#8, 0x22#8, 0x11#8])
    (fun t => (t.pc, t.readGpr 8#5)) = some (0x4#32, 0xB3#32) := by decide

/-- C9: `lw $t0,-4($s0)`. -/
theorem test_lw : after 0x8E08FFFC#32 (gprs [(16#5, 0x104#32)] (State.storeBytes State.reset 0x100 [0x84#8, 0xB3#8, 0x22#8, 0x11#8]))
    (fun t => (t.pc, t.readGpr 8#5)) = some (0x4#32, 0x1122B384#32) := by decide

/-- C13: `sw $t0,0x100($0)`. -/
theorem test_sw : after 0xAC080100#32 (gprs [(8#5, 0x1122B384#32)] State.reset)
    (fun t => (t.pc, Memory.readBytes t.mem 0x100 5)) = some (0x4#32, [0x84#8, 0xB3#8, 0x22#8, 0x11#8, 0x0#8]) := by decide

/-- C14: `sh $t0,0x102($0)`. -/
theorem test_sh : after 0xA4080102#32 (gprs [(8#5, 0x1122B384#32)] (State.storeBytes State.reset 0x100 [0xFF#8, 0xFF#8, 0xFF#8, 0xFF#8]))
    (fun t => (t.pc, Memory.readBytes t.mem 0x100 4)) = some (0x4#32, [0xFF#8, 0xFF#8, 0x84#8, 0xB3#8]) := by decide

/-- C15: `sb $t0,0x103($0)`. -/
theorem test_sb : after 0xA0080103#32 (gprs [(8#5, 0x1122B384#32)] (State.storeBytes State.reset 0x100 [0xFF#8, 0xFF#8, 0xFF#8, 0xFF#8]))
    (fun t => (t.pc, Memory.readBytes t.mem 0x100 4)) = some (0x4#32, [0xFF#8, 0xFF#8, 0xFF#8, 0x84#8]) := by decide

/-- C26: `lw $t0,0xFFF($0)`. -/
theorem test_lw_out_of_bounds : after 0x8C080FFF#32 State.reset
    (fun t => (t.pc, t.status)) = some (0x0#32, .faulted (.memoryOutOfBounds 0xFFF)) := by decide

/-- C35: `sw $t0,0x100($0)`. -/
theorem test_sw_protected : after 0xAC080100#32 (gprs [(8#5, 0x5#32)] locked)
    (fun t => (t.pc, t.status, t.readGpr 8#5, Memory.readBytes t.mem 0x100 4)) = some (0x0#32, .faulted (.memoryWriteProtected 0x100), 0x5#32, [0x0#8, 0x0#8, 0x0#8, 0x0#8]) := by decide

/-- C39: `lui $t0,0xFFFF`. -/
theorem test_lui : after 0x3C08FFFF#32 (gprs [(8#5, 0x1234#32)] State.reset)
    (fun t => (t.pc, t.readGpr 8#5)) = some (0x4#32, 0xFFFF0000#32) := by decide

/-- C41: `lwc1 $f2,0x100($0)`. -/
theorem test_lwc1 : after 0xC4020100#32 (State.storeBytes State.reset 0x100 [0x1#8, 0x0#8, 0xC0#8, 0xFF#8])
    (fun t => (t.pc, t.readFpr 2#5)) = some (0x4#32, 0xFFC00001#32) := by decide

/-- C42: `swc1 $f2,0x100($0)`. -/
theorem test_swc1 : after 0xE4020100#32 (fprs [(2#5, 0x7FA00001#32)] State.reset)
    (fun t => (t.pc, Memory.readBytes t.mem 0x100 4)) = some (0x4#32, [0x1#8, 0x0#8, 0xA0#8, 0x7F#8]) := by decide

/-- D1: `beq $t0,$t1,0x20`. -/
theorem test_beq : after 0x11090003#32 (gprs [(8#5, 0x5#32), (9#5, 0x5#32)] { State.reset with pc := 0x10#32 })
    (fun t => (t.pc)) = some (0x20#32) := by decide

/-- D5: `bne $t0,$0,0x8`. -/
theorem test_bne : after 0x1500FFFD#32 (gprs [(8#5, 0x9#32)] { State.reset with pc := 0x10#32 })
    (fun t => (t.pc)) = some (0x8#32) := by decide

/-- D9: `bgtz $t0,0x40`. -/
theorem test_bgtz : after 0x1D00000B#32 (gprs [(8#5, 0x80000000#32)] { State.reset with pc := 0x10#32 })
    (fun t => (t.pc)) = some (0x14#32) := by decide

/-- D10: `bgez $t0,0x40`. -/
theorem test_bgez : after 0x0501000B#32 (gprs [(8#5, 0x0#32)] { State.reset with pc := 0x10#32 })
    (fun t => (t.pc)) = some (0x40#32) := by decide

/-- D12: `bltz $t0,0x40`. -/
theorem test_bltz : after 0x0500000B#32 (gprs [(8#5, 0x80000000#32)] { State.reset with pc := 0x10#32 })
    (fun t => (t.pc)) = some (0x40#32) := by decide

/-- D16: `blez $t0,0x40`. -/
theorem test_blez : after 0x1900000B#32 (gprs [(8#5, 0xFFFFFFFF#32)] { State.reset with pc := 0x10#32 })
    (fun t => (t.pc)) = some (0x40#32) := by decide

/-- D17: `beq $0,$0,0x2000`. -/
theorem test_beq_bad_target : after 0x100007FB#32 { State.reset with pc := 0x10#32 }
    (fun t => (t.pc, t.status)) = some (0x10#32, .faulted (.invalidBranchTarget 0x2000#32)) := by decide

/-- D24: `jal 0x100`. -/
theorem test_jal : after 0x0C000040#32 { State.reset with pc := 0x10#32 }
    (fun t => (t.pc, t.readGpr 31#5)) = some (0x100#32, 0x18#32) := by decide

/-- D25: `jal 0x4000`. -/
theorem test_jal_bad_target : after 0x0C001000#32 (gprs [(31#5, 0x77#32)] { State.reset with pc := 0x10#32 })
    (fun t => (t.pc, t.status)) = some (0x10#32, .faulted (.invalidBranchTarget 0x4000#32)) := by decide

/-- D27: `jr $t0`. -/
theorem test_jr_misaligned : after 0x01000008#32 (gprs [(8#5, 0x102#32)] { State.reset with pc := 0x40#32 })
    (fun t => (t.pc, t.status, t.readGpr 8#5)) = some (0x40#32, .faulted (.invalidBranchTarget 0x102#32), 0x102#32) := by decide

/-- D33: `jalr $t0,$t0`. -/
theorem test_jalr_same_register : after 0x01004009#32 (gprs [(8#5, 0x200#32)] { State.reset with pc := 0x10#32 })
    (fun t => (t.pc, t.readGpr 8#5)) = some (0x200#32, 0x18#32) := by decide

/-- D36: `bc1t 0x40`. -/
theorem test_bc1t : after 0x4501000B#32 { State.reset with pc := 0x10#32, fcc := true }
    (fun t => (t.pc)) = some (0x40#32) := by decide

/-- D39: `bc1f 0x40`. -/
theorem test_bc1f : after 0x4500000B#32 { State.reset with pc := 0x10#32, fcc := true }
    (fun t => (t.pc)) = some (0x14#32) := by decide

/-- D41: `j 0x0000100`. -/
theorem test_j : after 0x08000040#32 { (under (fun c => { c with memSize := 0x10001000 })) with pc := 0xFFFFFFC#32 }
    (fun t => (t.pc)) = some (0x10000100#32) := by decide

/-- E3: `add.s $f0,$f1,$f2`. -/
theorem test_add_s_tie : after 0x46020800#32 (fprs [(1#5, 0x3F800001#32), (2#5, 0x33800000#32)] State.reset)
    (fun t => (t.pc, t.readFpr 0#5)) = some (0x4#32, 0x3F800002#32) := by decide

/-- E6: `add.s $f0,$f1,$f2`. -/
theorem test_add_s_zeros : after 0x46020800#32 (fprs [(1#5, 0x80000000#32), (2#5, 0x80000000#32)] State.reset)
    (fun t => (t.pc, t.readFpr 0#5)) = some (0x4#32, 0x80000000#32) := by decide

/-- E11: `sub.s $f0,$f1,$f2`. -/
theorem test_sub_s_underflow : after 0x46020801#32 (fprs [(1#5, 0x800000#32), (2#5, 0x1#32)] State.reset)
    (fun t => (t.pc, t.readFpr 0#5)) = some (0x4#32, 0x7FFFFF#32) := by decide

/-- E14: `mul.s $f0,$f1,$f2`. -/
theorem test_mul_s_subnormal : after 0x46020802#32 (fprs [(1#5, 0x800000#32), (2#5, 0x3F000000#32)] State.reset)
    (fun t => (t.pc, t.readFpr 0#5)) = some (0x4#32, 0x400000#32) := by decide

/-- E16: `div.s $f0,$f1,$f2`. -/
theorem test_div_s : after 0x46020803#32 (fprs [(1#5, 0x3F800000#32), (2#5, 0x40400000#32)] State.reset)
    (fun t => (t.pc, t.readFpr 0#5)) = some (0x4#32, 0x3EAAAAAB#32) := by decide

/-- E18: `div.s $f0,$f1,$f2`. -/
theorem test_div_s_by_zero : after 0x46020803#32 (fprs [(1#5, 0xBF800000#32), (2#5, 0x0#32)] State.reset)
    (fun t => (t.pc, t.readFpr 0#5)) = some (0x4#32, 0xFF800000#32) := by decide

/-- E22: `abs.s $f0,$f1`. -/
theorem test_abs_s : after 0x46000805#32 (fprs [(1#5, 0xFFC00001#32)] State.reset)
    (fun t => (t.pc, t.readFpr 0#5)) = some (0x4#32, 0x7FC00001#32) := by decide

/-- E25: `neg.s $f0,$f1`. -/
theorem test_neg_s : after 0x46000807#32 (fprs [(1#5, 0x7FA00001#32)] State.reset)
    (fun t => (t.pc, t.readFpr 0#5)) = some (0x4#32, 0xFFA00001#32) := by decide

/-- E26: `mov.s $f0,$f1`. -/
theorem test_mov_s : after 0x46000806#32 (fprs [(1#5, 0x7FA00001#32)] State.reset)
    (fun t => (t.pc, t.readFpr 0#5)) = some (0x4#32, 0x7FA00001#32) := by decide

/-- E30: `cvt.s.w $f0,$f1`. -/
theorem test_cvt_s_w_tie : after 0x46800820#32 (fprs [(1#5, 0x1000003#32)] State.reset)
    (fun t => (t.pc, t.readFpr 0#5)) = some (0x4#32, 0x4B800002#32) := by decide

/-- E36: `cvt.w.s $f0,$f1`. -/
theorem test_cvt_w_s : after 0x46000824#32 (fprs [(1#5, 0xCF000000#32)] State.reset)
    (fun t => (t.pc, t.readFpr 0#5)) = some (0x4#32, 0x80000000#32) := by decide

/-- E38: `c.eq.s $f1,$f2`. -/
theorem test_c_eq_s_nan : after 0x46020832#32 (fprs [(1#5, 0x7FC00000#32), (2#5, 0x7FC00000#32)] { State.reset with fcc := true })
    (fun t => (t.pc, t.fcc)) = some (0x4#32, false) := by decide

/-- E41: `c.lt.s $f1,$f2`. -/
theorem test_c_lt_s_zeros : after 0x4602083C#32 (fprs [(1#5, 0x80000000#32), (2#5, 0x0#32)] { State.reset with fcc := true })
    (fun t => (t.pc, t.fcc)) = some (0x4#32, false) := by decide

/-- E43: `c.le.s $f1,$f2`. -/
theorem test_c_le_s : after 0x4602083E#32 (fprs [(1#5, 0x3F800000#32), (2#5, 0x3F800000#32)] State.reset)
    (fun t => (t.pc, t.fcc)) = some (0x4#32, true) := by decide

/-- F13: `break`. -/
theorem test_break : after 0x0000000D#32 { State.reset with pc := 0x20#32 }
    (fun t => (t.pc, t.status)) = some (0x20#32, .paused 0x20#32) := by decide

/-- F14: `nop`. -/
theorem test_nop : after 0x00000000#32 (gprs [(8#5, 0x5#32)] { State.reset with hi := 0x1#32, lo := 0x2#32, fcc := true })
    (fun t => (t.pc)) = some (0x4#32) := by decide

/-- F1, F2, F7: the print calls. -/
theorem test_syscall_prints :
    after 0x0000000C#32 (gprs [(2#5, 1#32), (4#5, 0xFFFFFFD6#32)] State.reset) (fun t => (t.pc, t.out)) =
      some (4#32, [.printInt 0xFFFFFFD6#32]) ∧
    after 0x0000000C#32 (gprs [(2#5, 4#32), (4#5, 0x200#32)] (State.reset.storeBytes 0x200 [0x48#8, 0x69#8, 0#8]))
      (fun t => (t.pc, t.out)) = some (4#32, [.printString [0x48#8, 0x69#8]]) ∧
    after 0x0000000C#32 (gprs [(2#5, 11#32), (4#5, 0x12345641#32)] State.reset) (fun t => (t.pc, t.out)) =
      some (4#32, [.printChar 0x41#8]) := by decide

/-- F5, F6, F10, F15, F19: the read calls, exit and a number that is no call. -/
theorem test_syscall_others :
    after 0x0000000C#32 (gprs [(2#5, 5#32)] { State.reset with inp := [.int 0xFFFFFFFF#32] })
      (fun t => (t.pc, t.readGpr 2#5, t.inp)) = some (4#32, 0xFFFFFFFF#32, []) ∧
    after 0x0000000C#32 (gprs [(2#5, 10#32)] { State.reset with pc := 0x18#32 }) (fun t => (t.pc, t.status)) =
      some (0x18#32, .exited) ∧
    after 0x0000000C#32 (gprs [(2#5, 2#32)] State.reset) (fun t => (t.pc, t.status)) =
      some (0#32, .faulted (.invalidSyscall 2#32)) ∧
    after 0x0000000C#32 (gprs [(2#5, 8#32), (4#5, 0x300#32), (5#5, 4#32)]
      { State.reset with inp := [.string [0x61#8, 0x62#8, 0x63#8]] }) (fun t => (t.pc, Memory.readBytes t.mem 0x300 4)) =
      some (4#32, [0x61#8, 0x62#8, 0x63#8, 0#8]) ∧
    after 0x0000000C#32 (gprs [(2#5, 8#32), (4#5, 0xFE#32), (5#5, 4#32)] locked) (fun t => (t.pc, t.status)) =
      some (0#32, .faulted (.memoryWriteProtected 0x100)) := by decide

/-! Caches and predictor (95_test_vectors.md H, I). -/

/-- H1: the geometry of an address. -/
theorem test_cache_geometry :
    (fun c : CacheCfg => (c.numSets, c.offsetOf 0xABC, c.blockOf 0xABC, c.indexOf 0xABC, c.tagOf 0xABC, c.baseOf 0xABC))
      { CacheCfg.default with size := 1024, block := 32, assoc := 4 } = (8, 28, 85, 5, 10, 0xAA0) := by decide

/-- The hits of reads in a cache of the default geometry (that of H2), in order. -/
def hitsOf (c : CacheCfg) (k : Cache) (l : List Nat) : List Bool :=
  match l with
  | [] => []
  | a :: rest => (k.access c a .read [] 0).hit :: hitsOf c (k.access c a .read [] 0).cache rest

/-- H2: two ways under LRU. -/
theorem test_cache_lru : hitsOf CacheCfg.default (Cache.empty CacheCfg.default 0) [0x000, 0x004, 0x020, 0x040, 0x000] =
    [false, true, false, false, false] := by decide

/-- 49_ooo_engine.md R450: two loads of one block in one execute phase both miss, as at its start; one line is filled. -/
theorem test_loads_of_one_phase :
    (fun a b : Nat × State => (a.1 = b.1 ∧ b.2.micro.l1d.misses = 2 ∧ b.2.micro.l1d.accesses = 2 ∧
        (b.2.micro.l1d.sets.flatten.filter Way.isValid).length = 1) ∧
      (a.2.accessL1D 0x104 .read).1 < b.1)
      (State.reset.readL1DFrom State.reset 0x100)
      ((State.reset.readL1DFrom State.reset 0x100).2.readL1DFrom State.reset 0x104) := by decide

/-- I5: a BTB of two entries evicts the least recently used. -/
theorem test_btb_lru :
    (btbInsert 2 (btbInsert 2 (btbInsert 2 (btbInsert 2 [] 0xA#32 1#32) 0xB#32 2#32) 0xA#32 1#32) 0xC#32 3#32).map Prod.fst =
      [0xC#32, 0xA#32] := by decide

/-- 47_branch_predictor.md R368: three hits of four; no quotient without branches. -/
theorem test_hit_rate :
    ({ State.reset.micro with branches := 4, mispredictions := 1 } : Micro).hitRate = some (3 / 4) ∧
    State.reset.micro.hitRate = none := by simp [Micro.hitRate, ratio, State.reset, State.construct, Micro.construct]

/-! Ends of a run in the timing engines. -/

/-- A breakpoint at `TEXT_END` pauses every engine, by the order of 45_system.md R300. -/
theorem test_breakpoint_at_text_end :
    ([.functional, .inOrder, .outOfOrder] : List Engine).map (fun e =>
      (nextOf (step (under (fun c => { c with engine := e, breakpoint := some 0#32 })))).map (fun t => t.status)) =
      [some (.paused 0#32), some (.paused 0#32), some (.paused 0#32)] := by decide

/-- A ready syscall at the head of the reorder buffer, with a call number. -/
def callAtHead (n : Word) : State :=
  let s := under (fun c => { c with engine := .outOfOrder, textEnd := 16 })
  let e := RobEntry.fresh { pc := 0#32, content := .ok 0xC#32, predNext := 4#32 } (some (.syscall 0#20)) none
  (s.setOoo (s.micro.ooo.allocate s.cfg.robCapacity { e with ready := true })).setGpr 2#5 n

/-- 49_ooo_engine.md R470: an entry whose call completes or exits is freed and counted; one whose call faults is neither. -/
theorem test_call_commits_or_stays :
    ([1#32, 10#32, 99#32] : List Word).map (fun n =>
      (nextOf (callAtHead n).commitOne).map (fun t => (t.status, t.micro.ooo.count, t.micro.committed))) =
      [some (.running, 0, 1), some (.exited, 0, 1), some (.faulted (.invalidSyscall 99#32), 1, 0)] := by decide

/-- 49_ooo_engine.md R460, R465: a destination of register 0 still puts its value on the bus: `add $0,$8,$9` the sum,
`lbu $0,3($8)` the byte, `jalr $0,$8` the link. -/
theorem test_bus_value_of_register_zero :
    ([(.add 0#5 8#5 9#5, 0#32), (.lbu 0#5 8#5 3#16, 0#32), (.jalr 0#5 8#5, 0x40#32)] : List (Instr × Word)).map (fun i =>
      { State.reset with mem := [(11, 0x5A#8)] }.busValue
        { op := i.1, pc := i.2, vj := 8#64, vk := 7#64, qj := none, qk := none, dest := 0, address := none }) =
      [15#64, 0x5A#64, 0x48#64] := by decide

/-- A `sw` at the head of the reorder buffer, executing, whose address a base register gives. -/
def storeInFlight (base : Word) : State :=
  let s := under (fun c => { c with engine := .outOfOrder, textEnd := 16 })
  let r : FetchRec := { pc := 0#32, content := .ok 0xAD090000#32, predNext := 4#32 }
  let t := ((s.setGpr 8#5 base).setGpr 9#5 7#32).dispatchInstr r (.sw 9#5 8#5 0#16) 0
  t.setOoo (t.micro.ooo.issuePhase t.cfg)

/-- R434, R463: a misaligned store keeps its address in its station, and its entry takes neither address nor width. -/
theorem test_faulting_store_in_station :
    ([0x100#32, 0x102#32] : List Word).map (fun base =>
      let o := (storeInFlight base).executePhase.micro.ooo
      (o.loadStore.stations.map (Option.map (fun t => t.address)), (o.broadcast 0).entry 0 |>.map (fun e =>
        (e.exception, e.storeAddr, e.storeWidth)))) =
      [([some (some 0x100), none], some (none, some 0x100, 4)),
       ([some (some 0x102), none], some (some (.memoryMisaligned 0x102 4), none, 0))] := by decide

/-! Memory: the canonical form, and how the first instruction of a program runs. -/

theorem test_reset_memory : Memory.wf State.reset.mem = true := by decide
theorem test_write_zero_removes : Memory.write [(5, 7#8)] 5 0#8 = [] := by decide
theorem test_write_sorts : Memory.write (Memory.write [] 9 1#8) 4 2#8 = [(4, 2#8), (9, 1#8)] := by decide
theorem test_unsorted_refused : Memory.wf [(9, 1#8), (4, 2#8)] = false := by decide
theorem test_zero_byte_refused : Memory.wf [(4, 0#8)] = false := by decide

/-- P1's first word, placed where the machine fetches, runs as the first instruction after reset. -/
theorem test_first_instruction :
    (nextOf (step (State.reset.withFetchWord 32 0x2008000F))).map (fun t => (t.readGpr 8#5, t.pc, t.steps)) =
      some (0xF#32, 4#32, 1) := by decide

/-- A configuration outside the spec's constraints (D6) is refused. -/
theorem test_bad_configuration_refused :
    (nextOf (step (under (fun c => { c with memSize := 6 })))).isNone = true := by decide

/-! Witnesses: for each statement with hypotheses, states and operands that meet them, clause by clause, at boundaries. -/

/-- The boundaries of signed words. -/
def big : State := gprs [(8#5, 0x7FFFFFFF#32), (9#5, 0x80000000#32), (10#5, 1#32), (11#5, 0xFFFFFFFF#32)] State.reset

theorem witness_DecodeOfEncode : (Instr.add 31#5 0#5 15#5).wf = true ∧ (Instr.sll 0#5 0#5 1#5).wf = true := by decide

theorem witness_EncodeOfDecode : decode 0x00000000#32 = .ok .nop ∧ decode 0x00000040#32 = .ok (.sll 0#5 0#5 1#5) := by decide

theorem witness_UnsupportedWordsRejected :
    (opcodeOf 0xFFFFFFFF#32).toNat = 0x3F ∧ (opcodeOf 0x40086000#32).toNat = 0x10 ∧
    (opcodeOf 0x00000001#32 = 0x00#6 ∧ (functOf 0x00000001#32).toNat = 0x01) ∧
    (opcodeOf 0x05020004#32 = 0x01#6 ∧ (rtOf 0x05020004#32).toNat = 2) ∧
    (opcodeOf 0x01095060#32 = 0x00#6 ∧ (functOf 0x01095060#32).toNat = 0x20 ∧ shamtOf 0x01095060#32 ≠ 0#5) ∧
    (opcodeOf 0x00284800#32 = 0x00#6 ∧ (functOf 0x00284800#32).toNat = 0x00 ∧ rsOf 0x00284800#32 ≠ 0#5) ∧
    (opcodeOf 0x3C281234#32 = 0x0F#6 ∧ rsOf 0x3C281234#32 ≠ 0#5) ∧
    (opcodeOf 0x00004050#32 = 0x00#6 ∧ (functOf 0x00004050#32).toNat = 0x10 ∧ shamtOf 0x00004050#32 ≠ 0#5) ∧
    (opcodeOf 0x01010008#32 = 0x00#6 ∧ (functOf 0x01010008#32).toNat = 0x08 ∧ rtOf 0x01010008#32 ≠ 0#5) ∧
    (opcodeOf 0x01090818#32 = 0x00#6 ∧ (functOf 0x01090818#32).toNat = 0x18 ∧ rdOf 0x01090818#32 ≠ 0#5) ∧
    (opcodeOf 0x19010001#32 = 0x06#6 ∧ rtOf 0x19010001#32 ≠ 0#5) ∧
    (opcodeOf 0x1D010001#32 = 0x07#6 ∧ rtOf 0x1D010001#32 ≠ 0#5) := by decide

/-- The same under COP1: a format (`mtc1`), an FP branch selector, a funct of S (`sqrt.s`) and of W, and set `ft` and `fd`. -/
theorem witness_UnsupportedWordsRejected_cop1 :
    (opcodeOf 0x44880000#32 = 0x11#6 ∧ (rsOf 0x44880000#32).toNat = 4) ∧
    (opcodeOf 0x45020001#32 = 0x11#6 ∧ rsOf 0x45020001#32 = 8#5 ∧ (rtOf 0x45020001#32).toNat = 2) ∧
    (opcodeOf 0x46000804#32 = 0x11#6 ∧ rsOf 0x46000804#32 = 16#5 ∧ (functOf 0x46000804#32).toNat = 0x04) ∧
    (opcodeOf 0x46800821#32 = 0x11#6 ∧ rsOf 0x46800821#32 = 20#5 ∧ functOf 0x46800821#32 ≠ 0x20#6) ∧
    (opcodeOf 0x46010805#32 = 0x11#6 ∧ rsOf 0x46010805#32 = 16#5 ∧ (functOf 0x46010805#32).toNat = 0x05 ∧
      rtOf 0x46010805#32 ≠ 0#5) ∧
    (opcodeOf 0x46810820#32 = 0x11#6 ∧ rsOf 0x46810820#32 = 20#5 ∧ rtOf 0x46810820#32 ≠ 0#5) ∧
    (opcodeOf 0x46020872#32 = 0x11#6 ∧ rsOf 0x46020872#32 = 16#5 ∧ (functOf 0x46020872#32).toNat = 0x32 ∧
      shamtOf 0x46020872#32 ≠ 0#5) := by decide

/-- A state about to run `addi $8,$0,15`, and one about to pause at a `break`. -/
theorem witness_StepRunsDecodedInstruction :
    (∀ s ∈ [State.reset.withFetchWord 32 0x2008000F, State.reset.withFetchWord 32 0x0000000D],
      s.cfg.wf = true ∧ s.cfg.engine = .functional ∧ s.status = .running ∧ s.steps < s.cfg.maxSteps ∧
      s.cfg.breakpoint ≠ some s.pc ∧ s.pc.toNat < s.cfg.textEnd ∧ s.pc.toNat + 4 ≤ s.cfg.memSize ∧ s.pc.toNat % 4 = 0) ∧
    decodeBytes (Memory.readBytes (State.reset.withFetchWord 32 0x2008000F).mem 0 4) = .ok (.addi 8#5 0#5 15#16, []) ∧
    decodeBytes (Memory.readBytes (State.reset.withFetchWord 32 0x0000000D).mem 0 4) = .ok (.brk 0#20, []) ∧
    after 0x2008000F#32 State.reset (fun t => t.status.fault) = some none ∧
    after 0x0000000D#32 State.reset (fun t => t.status.fault) = some (some (.breakpoint 0#32)) := by decide

theorem witness_EndOfRunTests :
    (∀ s ∈ [under (fun c => { c with maxSteps := 0 }), under (fun c => { c with breakpoint := some 0#32 }), State.reset],
      s.cfg.wf = true ∧ s.cfg.engine = .functional ∧ s.status = .running) ∧
    (fun s : State => s.cfg.maxSteps ≤ s.steps) (under (fun c => { c with maxSteps := 0 })) ∧
    (fun s : State => s.steps < s.cfg.maxSteps ∧ s.cfg.breakpoint = some s.pc)
      (under (fun c => { c with breakpoint := some 0#32 })) ∧
    (fun s : State => s.steps < s.cfg.maxSteps ∧ s.cfg.breakpoint ≠ some s.pc ∧ s.cfg.textEnd ≤ s.pc.toNat) State.reset := by
  decide

/-- A text that reaches past memory, a misaligned `pc`, and an invalid word. -/
theorem witness_FetchAndDecodeFaults :
    (∀ s ∈ [{ under (fun c => { c with textEnd := 8192 }) with pc := 4093#32 },
        { under (fun c => { c with textEnd := 8192 }) with pc := 2#32 }, State.reset.withFetchWord 32 0xFFFFFFFF],
      s.cfg.wf = true ∧ s.cfg.engine = .functional ∧ s.status = .running ∧ s.steps < s.cfg.maxSteps ∧
      s.cfg.breakpoint ≠ some s.pc ∧ s.pc.toNat < s.cfg.textEnd) ∧
    4096 < 4093 + 4 ∧ (2 + 4 ≤ 4096 ∧ 2 % 4 ≠ 0) ∧
    Memory.littleEndian (State.reset.withFetchWord 32 0xFFFFFFFF).mem 0 4 = (0xFFFFFFFF#32).toNat ∧
    decode 0xFFFFFFFF#32 = .error (.invalidInstruction 0xFFFFFFFF#32) := by decide

theorem witness_TerminalStatusIsFinal :
    ∀ s ∈ [{ State.reset with status := .exited }, { State.reset with status := .paused 0#32 }],
      s.cfg.wf = true ∧ s.status ≠ .running := by decide

/-- The reset state of each engine takes a step. -/
theorem witness_steps :
    (∃ t, step State.reset = .next t) ∧
    (∃ t, step (under (fun c => { c with engine := .inOrder, textEnd := 16 })) = .next t) ∧
    (∃ t, step (under (fun c => { c with engine := .outOfOrder, textEnd := 16 })) = .next t) :=
  ⟨exists_next (by decide), exists_next (by decide), exists_next (by decide)⟩

theorem witness_ConfigurationNeverChanges : ∃ t, step State.reset = .next t := witness_steps.1

theorem witness_StepKeepsInvariant :
    (State.construct { Config.default with engine := .outOfOrder, textEnd := 16 }).Inv ∧
    (∃ t, step (under (fun c => { c with engine := .outOfOrder, textEnd := 16 })) = .next t) :=
  ⟨⟨by decide, by decide⟩, witness_steps.2.2⟩

theorem witness_CacheCounterLaws :
    (under (fun c => { c with engine := .inOrder, textEnd := 16 })).CachesLawful ∧
    (∃ t, step (under (fun c => { c with engine := .inOrder, textEnd := 16 })) = .next t) :=
  ⟨⟨⟨by decide, by decide⟩, ⟨by decide, by decide⟩, fun _ h => by cases h⟩, witness_steps.2.1⟩

theorem witness_CompletedInstructionsAreCounted :
    State.reset.cfg.engine = .functional ∧ State.reset.status = .running ∧ ∃ t, step State.reset = .next t :=
  ⟨by decide, by decide, witness_steps.1⟩

theorem witness_PcStaysAligned :
    State.reset.cfg.engine = .functional ∧ State.reset.pc.toNat % 4 = 0 ∧ ∃ t, step State.reset = .next t :=
  ⟨by decide, by decide, witness_steps.1⟩

/-- The extreme sums and differences that fit, and the first that do not. -/
theorem witness_AddAndSubtract :
    (big.readGpr 8#5).toInt + (big.readGpr 0#5).toInt = 2 ^ 31 - 1 ∧
    (big.readGpr 8#5).toInt + (big.readGpr 10#5).toInt = 2 ^ 31 ∧
    (big.readGpr 9#5).toInt + (big.readGpr 0#5).toInt = -2 ^ 31 ∧
    (big.readGpr 9#5).toInt + (big.readGpr 11#5).toInt = -2 ^ 31 - 1 ∧
    (big.readGpr 8#5).toInt - (big.readGpr 11#5).toInt = 2 ^ 31 ∧
    (big.readGpr 9#5).toInt - (big.readGpr 0#5).toInt = -2 ^ 31 := by decide

theorem witness_AddImmediate :
    (big.readGpr 8#5).toInt + (0#16).toInt = 2 ^ 31 - 1 ∧ (big.readGpr 8#5).toInt + (1#16).toInt = 2 ^ 31 ∧
    (big.readGpr 9#5).toInt + (0#16).toInt = -2 ^ 31 ∧ (big.readGpr 9#5).toInt + (0xFFFF#16).toInt = -2 ^ 31 - 1 := by decide

theorem witness_SetOnLessThan :
    (big.readGpr 9#5).toInt < (big.readGpr 8#5).toInt ∧ ¬(big.readGpr 8#5).toInt < (big.readGpr 8#5).toInt ∧
    (big.readGpr 8#5).toNat < (big.readGpr 9#5).toNat ∧ ¬(big.readGpr 9#5).toNat < (big.readGpr 8#5).toNat := by decide

theorem witness_SetOnLessThanImmediate :
    (big.readGpr 11#5).toInt < (0#16).toInt ∧ ¬(big.readGpr 0#5).toInt < (0#16).toInt ∧
    ((big.readGpr 8#5).toNat : Int) < (0x8000#16).toInt % 2 ^ 32 ∧
    ¬((big.readGpr 11#5).toNat : Int) < (0xFFFF#16).toInt % 2 ^ 32 := by decide

/-- A divisor of -1 with a dividend that does not overflow, and the greatest unsigned divisor. -/
theorem witness_Divide :
    ((big.readGpr 11#5).toInt ≠ 0 ∧ ¬((big.readGpr 8#5).toInt = -2 ^ 31 ∧ (big.readGpr 11#5).toInt = -1)) ∧
    (big.readGpr 11#5).toNat ≠ 0 := by decide

theorem witness_DivisionCorners :
    big.readGpr 0#5 = 0#32 ∧ big.readGpr 9#5 = 0x80000000#32 ∧ big.readGpr 11#5 = 0xFFFFFFFF#32 := by decide

/-! Accesses. -/

/-- Addresses at and around the ends of memory and of the address space. -/
def edge : State := gprs [(8#5, 0xFFFFFFFF#32), (9#5, 0xFF8#32)] State.reset

theorem witness_access_ok :
    (effAddr (edge.readGpr 9#5) 4#16 = some 0xFFC ∧ edge.loadable 0xFFC 4) ∧
    (effAddr (edge.readGpr 9#5) 6#16 = some 0xFFE ∧ edge.loadable 0xFFE 2) ∧
    (effAddr (edge.readGpr 9#5) 7#16 = some 0xFFF ∧ 0xFFF < edge.cfg.memSize) :=
  ⟨⟨by decide, by decide, by decide⟩, ⟨by decide, by decide, by decide⟩, by decide, by decide⟩

theorem witness_access_faults :
    effAddr (edge.readGpr 8#5) 1#16 = none ∧ effAddr (edge.readGpr 0#5) 0xFFFF#16 = none ∧
    (∀ n ∈ [1, 2, 4], effAddr (edge.readGpr 9#5) 8#16 = some 0x1000 ∧ edge.cfg.memSize < 0x1000 + n) ∧
    (effAddr (edge.readGpr 9#5) 2#16 = some 0xFFA ∧ 0xFFA + 4 ≤ edge.cfg.memSize ∧ 0xFFA % 4 ≠ 0) ∧
    (effAddr (edge.readGpr 9#5) 1#16 = some 0xFF9 ∧ 0xFF9 + 2 ≤ edge.cfg.memSize ∧ 0xFF9 % 2 ≠ 0) := by decide

theorem witness_LoadWord : effAddr (edge.readGpr 9#5) 4#16 = some 0xFFC ∧ edge.loadable 0xFFC 4 := witness_access_ok.1
theorem witness_LoadHalfword : effAddr (edge.readGpr 9#5) 6#16 = some 0xFFE ∧ edge.loadable 0xFFE 2 := witness_access_ok.2.1
theorem witness_LoadByte : effAddr (edge.readGpr 9#5) 7#16 = some 0xFFF ∧ 0xFFF < edge.cfg.memSize := witness_access_ok.2.2
theorem witness_LoadFloat : effAddr (edge.readGpr 9#5) 4#16 = some 0xFFC ∧ edge.loadable 0xFFC 4 := witness_access_ok.1

theorem witness_StoresWriteTheirBytes :
    Memory.wf edge.mem = true ∧ effAddr (edge.readGpr 9#5) 4#16 = some 0xFFC ∧ edge.storable 0xFFC 4 ∧
    edge.storable 0xFFC 2 ∧ edge.storable 0xFFC 1 :=
  ⟨by decide, by decide, ⟨⟨by decide, by decide⟩, by decide⟩, ⟨⟨by decide, by decide⟩, by decide⟩,
    ⟨⟨by decide, by decide⟩, by decide⟩⟩

/-- The first and the last byte of the armed range. -/
theorem witness_StoreFaults :
    (∀ k ∈ [0x100, 0x1FF], locked.roArmed = true ∧ locked.cfg.roBase ≤ k ∧ k < locked.cfg.roEnd) ∧
    (effAddr (locked.readGpr 0#5) 0x1FC#16 = some 0x1FC ∧ 0x1FC ≤ 0x1FF ∧ 0x1FF < 0x1FC + 4 ∧ locked.loadable 0x1FC 4) ∧
    (effAddr (locked.readGpr 0#5) 0x1FE#16 = some 0x1FE ∧ 0x1FF < 0x1FE + 2 ∧ locked.loadable 0x1FE 2) ∧
    (effAddr (locked.readGpr 0#5) 0x100#16 = some 0x100 ∧ 0x100 < 0x100 + 1 ∧ locked.loadable 0x100 1) :=
  ⟨by decide, ⟨by decide, by decide, by decide, by decide, by decide⟩, ⟨by decide, by decide, by decide, by decide⟩,
    ⟨by decide, by decide, by decide, by decide⟩⟩

theorem witness_StoreThenLoadReturnsValue :
    Memory.wf edge.mem = true ∧ effAddr (edge.readGpr 9#5) 4#16 = some 0xFFC ∧ edge.storable 0xFFC 4 :=
  ⟨by decide, by decide, ⟨⟨by decide, by decide⟩, by decide⟩⟩

/-! Control. -/

/-- Each condition true and false; a target at the last word of memory and the first beyond. -/
theorem witness_IntegerBranches :
    (big.readGpr 8#5 = big.readGpr 8#5 ∧ big.readGpr 8#5 ≠ big.readGpr 9#5) ∧
    ((big.readGpr 10#5).toInt > 0 ∧ ¬(big.readGpr 0#5).toInt > 0) ∧
    ((big.readGpr 0#5).toInt ≥ 0 ∧ ¬(big.readGpr 11#5).toInt ≥ 0) ∧
    ((big.readGpr 11#5).toInt < 0 ∧ ¬(big.readGpr 0#5).toInt < 0) ∧
    ((big.readGpr 0#5).toInt ≤ 0 ∧ ¬(big.readGpr 10#5).toInt ≤ 0) ∧
    (fun t : Int => t = 4092 ∧ t % 4 = 0 ∧ t + 4 ≤ big.cfg.memSize) ((big.pc.toNat + 4 + 4 * (1022#16).toInt) % 2 ^ 32) ∧
    (fun t : Int => t = 4096 ∧ (big.cfg.memSize : Int) < t + 4) ((big.pc.toNat + 4 + 4 * (1023#16).toInt) % 2 ^ 32) := by decide

theorem witness_ConditionCodeBranches :
    { State.reset with fcc := true }.fcc = true ∧ State.reset.fcc = false := by decide

/-- Good targets, one beyond memory and one misaligned. -/
theorem witness_Jumps :
    (fun a : Word => a.toNat % 4 = 0 ∧ a.toNat + 4 ≤ State.reset.cfg.memSize)
      ((State.reset.pc + 4#32).extractLsb' 28 4 ++ (1023 : BitVec 26) ++ 0b00#2) ∧
    (fun a : Word => State.reset.cfg.memSize < a.toNat + 4)
      ((State.reset.pc + 4#32).extractLsb' 28 4 ++ (1024 : BitVec 26) ++ 0b00#2) ∧
    (big.readGpr 0#5).toNat + 4 ≤ big.cfg.memSize ∧ (big.readGpr 10#5).toNat % 4 ≠ 0 := by decide

theorem witness_JumpAndLinkRegister :
    ((edge.readGpr 9#5).toNat % 4 = 0 ∧ (edge.readGpr 9#5).toNat + 4 ≤ edge.cfg.memSize) ∧
    (edge.readGpr 8#5).toNat % 4 ≠ 0 := by decide

/-! Floating point: patterns for each clause of the results. -/

/-- A NaN, the infinities, the zeros, the extreme finite patterns. -/
theorem witness_float_classes :
    isNaN 0x7FC00000#32 = true ∧ isInf 0x7F800000#32 = true ∧ isInf 0xFF800000#32 = true ∧
    signOf 0x7F800000#32 ≠ signOf 0xFF800000#32 ∧ isZero 0x80000000#32 = true ∧ isZero 0x00000000#32 = true ∧
    isFinite 0x7F7FFFFF#32 = true ∧ isFinite 0x00000001#32 = true ∧ isZero 0x00000001#32 = false := by decide

/-- Some state holds any two patterns in its registers. -/
theorem witness_float_registers (a b : Word) : ∃ s : State, s.readFpr 1#5 = a ∧ s.readFpr 2#5 = b :=
  ⟨(State.reset.setFpr 1#5 a).setFpr 2#5 b, by simp [State.readFpr, State.setFpr], by simp [State.readFpr, State.setFpr]⟩

/-- Sums: exactly zero, not zero at both ends of the range, and one infinity. -/
theorem witness_FloatAddAndSubtract :
    signedUnits 0x00800000#32 + signedUnits 0x80800000#32 = 0 ∧ signedUnits 0x00000001#32 + signedUnits 0x00000000#32 ≠ 0 ∧
    signedUnits 0x7F7FFFFF#32 + signedUnits 0x7F7FFFFF#32 ≠ 0 ∧
    (isInf 0x7F800000#32 = true ∧ isNaN 0x3F800000#32 = false ∧ isInf 0x3F800000#32 = false) ∧
    (isInf 0xFF800000#32 = true ∧ isFinite 0x3F800000#32 = true) := by decide

theorem witness_FloatMultiplyAndDivide :
    (isInf 0x7F800000#32 = true ∧ isZero 0x3F800000#32 = false ∧ isNaN 0x3F800000#32 = false) ∧
    (isFinite 0x00000001#32 = true ∧ isFinite 0x3F800000#32 = true ∧ isZero 0x3F800000#32 = false) ∧
    (isFinite 0x3F800000#32 = true ∧ isInf 0xFF800000#32 = true) ∧
    (isZero 0x3F800000#32 = false ∧ isZero 0x80000000#32 = true) := by decide

/-- The extreme integers that are binary32 numbers. -/
theorem witness_FloatConversions :
    (isFinite 0xCF000000#32 = true ∧ signedUnits 0xCF000000#32 = -2 ^ 31 * 2 ^ 149) ∧
    (isFinite 0x4EFFFFFF#32 = true ∧ signedUnits 0x4EFFFFFF#32 = (2 ^ 31 - 128) * 2 ^ 149) := by decide

theorem witness_FloatCompares :
    isNaN 0x7FC00000#32 = true ∧ (isFinite 0x00000000#32 = true ∧ isFinite 0x80000000#32 = true) ∧
    (isInf 0x7F800000#32 = true ∧ isNaN 0x7F7FFFFF#32 = false ∧ 0x7F800000#32 ≠ 0x7F7FFFFF#32) ∧
    (isInf 0xFF800000#32 = true ∧ isNaN 0x7F800000#32 = false ∧ 0xFF800000#32 ≠ 0x7F800000#32) := by decide

/-! System. -/

theorem witness_PrintCalls :
    (gprs [(2#5, 1#32)] State.reset).readGpr 2#5 = 1#32 ∧ (gprs [(2#5, 11#32)] State.reset).readGpr 2#5 = 11#32 ∧
    (fun s : State => s.readGpr 2#5 = 4#32 ∧ Memory.readBytes s.mem (s.readGpr 4#5).toNat 2 = [0x48#8, 0x69#8] ∧
      Memory.read s.mem ((s.readGpr 4#5).toNat + 2) = 0#8 ∧ (s.readGpr 4#5).toNat + 2 < s.cfg.memSize)
      (gprs [(2#5, 4#32), (4#5, 0xFFD#32)] (State.reset.storeBytes 0xFFD [0x48#8, 0x69#8])) := by decide

/-- A string that is not ended at the top of memory, and an address beyond it. -/
theorem witness_PrintCalls_unterminated :
    (fun s : State => s.readGpr 2#5 = 4#32 ∧
      ∀ a, (s.readGpr 4#5).toNat ≤ a → a < s.cfg.memSize → Memory.read s.mem a ≠ 0#8)
      (gprs [(2#5, 4#32), (4#5, 0xFFF#32)] (State.reset.storeBytes 0xFFF [0x48#8])) :=
  ⟨by decide, fun a h1 h2 => by
    have e1 : 0xFFF ≤ a := h1
    have e2 : a < 0x1000 := h2
    obtain rfl : a = 0xFFF := by omega
    decide⟩

theorem witness_ReadNumberCalls :
    (fun s : State => s.readGpr 2#5 = 5#32 ∧ s.inp = [.int 7#32]) (gprs [(2#5, 5#32)] { State.reset with inp := [.int 7#32] }) ∧
    (fun s : State => s.readGpr 2#5 = 12#32 ∧ s.inp = [.char 7#8])
      (gprs [(2#5, 12#32)] { State.reset with inp := [.char 7#8] }) := by decide

/-- Call 8 with `n = 0`, leaving memory, meeting the armed range, and with a ready answer that just fits. -/
theorem witness_ReadStringCall :
    (fun s : State => Memory.wf s.mem = true ∧ s.readGpr 2#5 = 8#32 ∧ (s.readGpr 5#5).toNat = 0) (gprs [(2#5, 8#32)] State.reset) ∧
    (fun s : State => Memory.wf s.mem = true ∧ s.readGpr 2#5 = 8#32 ∧ (s.readGpr 5#5).toNat ≠ 0 ∧
      s.cfg.memSize < (s.readGpr 4#5).toNat + (s.readGpr 5#5).toNat)
      (gprs [(2#5, 8#32), (4#5, 0xFFD#32), (5#5, 4#32)] State.reset) ∧
    (fun s : State => Memory.wf s.mem = true ∧ s.readGpr 2#5 = 8#32 ∧ (s.readGpr 5#5).toNat ≠ 0 ∧
      (s.readGpr 4#5).toNat + (s.readGpr 5#5).toNat ≤ s.cfg.memSize ∧
      s.protects (s.readGpr 4#5).toNat (s.readGpr 5#5).toNat = true)
      (gprs [(2#5, 8#32), (4#5, 0xFD#32), (5#5, 4#32)] locked) ∧
    (fun s : State => Memory.wf s.mem = true ∧ s.readGpr 2#5 = 8#32 ∧ (s.readGpr 5#5).toNat ≠ 0 ∧
      (s.readGpr 4#5).toNat + (s.readGpr 5#5).toNat ≤ s.cfg.memSize ∧
      s.protects (s.readGpr 4#5).toNat (s.readGpr 5#5).toNat = false ∧
      s.inp = [.string [0x61#8, 0x62#8, 0x63#8]] ∧ 3 ≤ (s.readGpr 5#5).toNat - 1)
      (gprs [(2#5, 8#32), (4#5, 0xFFC#32), (5#5, 4#32)] { State.reset with inp := [.string [0x61#8, 0x62#8, 0x63#8]] }) := by
  decide

theorem witness_ExitCall : (gprs [(2#5, 10#32)] State.reset).readGpr 2#5 = 10#32 := by decide

theorem witness_InvalidSyscallFaults :
    (State.reset.readGpr 2#5).toNat ∉ [1, 4, 5, 8, 10, 11, 12] ∧
    ((gprs [(2#5, 13#32)] State.reset).readGpr 2#5).toNat ∉ [1, 4, 5, 8, 10, 11, 12] := by decide

/-! The timing engines. -/

/-- The last entry of the reset table; a counter at each end. -/
theorem witness_CountersSaturate :
    Config.default.predictor = .twoBit ∧ (0x3C#32).toNat / 4 % Config.default.predEntries = 15 ∧
    State.reset.micro.pred.table[15]? = some .wn ∧
    { State.reset.micro.pred with table := [.sn] }.table[(0x40#32).toNat / 4 % 16]? = some .sn ∧
    { State.reset.micro.pred with table := [.st] }.table[(0x40#32).toNat / 4 % 16]? = some .st := by decide

/-- The smallest BTB, in either mode; a taken resolution that is then predicted taken, and one that is not. -/
theorem witness_TargetBufferLearns :
    1 ≤ { Config.default with btbEntries := 1 }.btbEntries ∧ Config.default.predictor = .twoBit ∧
    { Config.default with predictor := .staticNotTaken }.predictor = .staticNotTaken ∧
    (State.reset.micro.pred.resolve Config.default 0x10#32 true 0x40#32).direction 16 0x10#32 = true ∧
    ({ State.reset.micro.pred with table := [.sn] }.resolve Config.default 0x0#32 true 0x40#32).direction 16 0x0#32 = false := by
  decide

/-- The first and the last byte of a block in the reset cache. -/
theorem witness_ReadBringsBlockIn :
    1 ≤ CacheCfg.default.assoc ∧
    (∃ ways, (Cache.empty CacheCfg.default 0).sets[CacheCfg.default.indexOf 0x20]? = some ways ∧ ways.length = CacheCfg.default.assoc) ∧
    CacheCfg.default.blockOf 0x2F = CacheCfg.default.blockOf 0x20 :=
  ⟨by decide, ⟨_, rfl, rfl⟩, by decide⟩

/-- A store that misses in the reset cache, under each policy. -/
theorem witness_StoreMissAllocation :
    1 ≤ CacheCfg.default.assoc ∧
    (∃ ways, (Cache.empty CacheCfg.default 0).sets[CacheCfg.default.indexOf 0x100]? = some ways ∧
      ways.length = CacheCfg.default.assoc) ∧
    lookupWay (CacheCfg.default.tagOf 0x100) ((Cache.empty CacheCfg.default 0).sets.getD (CacheCfg.default.indexOf 0x100) []) = none ∧
    CacheCfg.default.writePolicy = .writeBack ∧
    (fun c : CacheCfg => c.writePolicy = .writeThrough ∧ c.writeAllocate = true)
      { CacheCfg.default with writePolicy := .writeThrough } ∧
    (fun c : CacheCfg => c.writePolicy = .writeThrough ∧ c.writeAllocate = false)
      { CacheCfg.default with writePolicy := .writeThrough, writeAllocate := false } :=
  ⟨by decide, ⟨_, rfl, rfl⟩, by decide⟩

/-- An empty pipeline takes a cycle. -/
theorem witness_PipelineWritesOnlyInWriteback :
    (under (fun c => { c with engine := .inOrder, textEnd := 16 })).cfg.engine = .inOrder ∧
    (under (fun c => { c with engine := .inOrder, textEnd := 16 })).micro.pipe.wbs = none ∧
    (∃ t, step (under (fun c => { c with engine := .inOrder, textEnd := 16 })) = .next t) :=
  ⟨by decide, by decide, witness_steps.2.1⟩

/-- The out-of-order engine with the record of an `add` in its fetch buffer. -/
def fetched : State :=
  let s := under (fun c => { c with engine := .outOfOrder, textEnd := 16 })
  s.setOoo { s.micro.ooo with fq := [{ pc := 0#32, content := .ok 0x01095020#32, predNext := 4#32 }] }

/-- The same after its dispatch: the head of the reorder buffer is not ready. -/
def dispatched : State := (fetched.dispatchOne).getD fetched

theorem witness_OutOfOrderWritesOnlyAtCommit :
    (fetched.cfg.engine = .outOfOrder ∧ fetched.micro.ooo.count = 0 ∧ ∃ t, step fetched = .next t) ∧
    (dispatched.cfg.engine = .outOfOrder ∧
      (∃ h, dispatched.micro.ooo.entry dispatched.micro.ooo.head = some h ∧ h.ready = false) ∧
      ∃ t, step dispatched = .next t) :=
  ⟨⟨by decide, by decide, exists_next (by decide)⟩, by decide, ⟨_, rfl, rfl⟩, exists_next (by decide)⟩

theorem witness_ReorderBufferWithinCapacity :
    fetched.micro.ooo.count ≤ fetched.cfg.robCapacity ∧ ∃ t, step fetched = .next t :=
  ⟨by decide, witness_OutOfOrderWritesOnlyAtCommit.1.2.2⟩

/-- `add $10,$8,$9` in ID behind `lw $8,0($0)`, and behind `lw $7,0($0)`. -/
def behindLoad (r : RegIdx) : State :=
  let s := under (fun c => { c with engine := .inOrder, textEnd := 16 })
  s.setPipe { Pipe.empty with
    ids := some (Slot.fetched 4#32 0x01095020#32 8#32 none 0),
    exs := some { Slot.fetched 0#32 0x8C080000#32 4#32 none 0 with instr := some (.lw r 0#5 0#16), producerTag := [.gpr r] } }

theorem witness_LoadUseStall :
    (∀ r ∈ [8#5, 7#5],
      (behindLoad r).cfg.forwarding = true ∧
      (behindLoad r).micro.pipe.ids = some (Slot.fetched 4#32 0x01095020#32 8#32 none 0) ∧
      decode 0x01095020#32 = .ok (.add 10#5 8#5 9#5) ∧ isSerialising (.add 10#5 8#5 9#5) = false ∧
      (behindLoad r).micro.pipe.exs.map (fun e => (e.fault, e.instr, e.producerTag)) =
        some (none, some (.lw r 0#5 0#16), destNames (.lw r 0#5 0#16))) ∧
    ((behindLoad 8#5).idPhase none).2 = true ∧ ((behindLoad 7#5).idPhase none).2 = false := by decide

theorem witness_DispatchStalls :
    (dispatched.micro.ooo.fq = [] ∧
      ({ fetched.micro.ooo with fqWait := 1 }).fqWait ≠ 0 ∧
      (under (fun c => { c with robCapacity := 0 })).cfg.robCapacity ≤ (under (fun c => { c with robCapacity := 0 })).micro.ooo.count) ∧
    (fetched.micro.ooo.fq = [{ pc := 0#32, content := .ok 0x01095020#32, predNext := 4#32 }] ∧
      decode 0x01095020#32 = .ok (.add 10#5 8#5 9#5) ∧ fetched.micro.ooo.fqWait = 0 ∧
      fetched.micro.ooo.count < fetched.cfg.robCapacity ∧ (fetched.dispatchOne).isSome = true ∧
      isSerialising (.add 10#5 8#5 9#5) = false) := by decide

end Sys2Proof.Machine.Tests
end

section
/-!
What each engine's step can do when it answers a state, said once per function: one inversion lemma with the guards of
every branch. Proofs about steps cite these and split no step function again.
-/

namespace Sys2Proof.Machine

/-- A test that ends the step: it held and the answer is its state, or the rest of the step answers. -/
theorem ite_next_iff {c : Prop} [Decidable c] {a t : State} {r : Result} :
    (if c then .next a else r) = .next t ↔ (c ∧ t = a) ∨ (¬ c ∧ r = .next t) := by
  by_cases hc : c <;> simp [hc, eq_comm]

/-! The functional engine (45_system.md R300). -/

theorem State.runInstruction_next {s t : State} (h : s.runInstruction = .next t) :
    (∃ k, s.fetch s.pc.toNat = .error k ∧ t = s.raise k) ∨
      ∃ w, s.fetch s.pc.toNat = .ok w ∧
        ((∀ i, decode w ≠ .ok i) ∧ t = s.raise (.invalidInstruction w) ∨
          ∃ i u, decode w = .ok i ∧ exec i s = .next u ∧ t = u.endStep) := by
  unfold State.runInstruction at h
  split at h
  · rename_i k hk
    cases h; exact .inl ⟨k, hk, rfl⟩
  · rename_i w hw
    refine .inr ⟨w, hw, ?_⟩
    split at h
    · rename_i hd
      cases h; exact .inl ⟨by simp [hd], rfl⟩
    · rename_i i hd
      obtain ⟨u, hu⟩ := exec_next i s
      rw [hu] at h
      cases h; exact .inr ⟨i, u, hd, hu, rfl⟩

/-- The end-of-run tests in the order of 45_system.md R300, then the instruction. -/
theorem stepFunctional_next {s t : State} (h : stepFunctional s = .next t) :
    (s.status ≠ .running ∧ t = s) ∨
      s.status = .running ∧
        ((s.cfg.maxSteps ≤ s.steps ∧ t = s.setStatus .budgetExhausted) ∨
          s.steps < s.cfg.maxSteps ∧
            ((s.cfg.breakpoint = some s.pc ∧ t = s.raise (.breakpoint s.pc)) ∨
              s.cfg.breakpoint ≠ some s.pc ∧
                ((s.cfg.textEnd ≤ s.pc.toNat ∧ t = s.setStatus .endOfText) ∨
                  s.pc.toNat < s.cfg.textEnd ∧ s.runInstruction = .next t))) := by
  simpa only [stepFunctional, ite_next_iff, ne_eq, not_not, not_le] using h

/-! A syscall at the end of a timing engine (48_pipeline_inorder.md R412; 49_ooo_engine.md R470). -/

theorem State.commitCall_next {s t : State} {code : BitVec 20} {pc : Word} (h : s.commitCall code pc = .next t) :
    ∃ u, exec (.syscall code) (s.setPc pc) = .next u ∧
      ((u.status = .running ∧
          t = State.restartFetch (State.countCommitted { u with
            micro := { u.micro with stored := (s.setPc pc).callStores ++ u.micro.stored } }) (pc + 4#32)) ∨
        (u.status = .exited ∧ t = u.countCommitted) ∨
        (u.status ≠ .running ∧ u.status ≠ .exited ∧ t = u)) := by
  obtain ⟨u, hu⟩ := exec_next (.syscall code) (s.setPc pc)
  refine ⟨u, hu, ?_⟩
  simp only [State.commitCall, hu] at h
  split at h
  · rename_i hr
    cases h; exact .inl ⟨hr, rfl⟩
  · rename_i hx
    cases h; exact .inr (.inl ⟨hx, rfl⟩)
  · rename_i hr hx
    cases h; exact .inr (.inr ⟨hr, hx, rfl⟩)

/-! The in-order pipeline (48_pipeline_inorder.md R381, R389). -/

theorem State.retireSlot_next {s t : State} {w : Slot} (h : s.retireSlot w = .next t) :
    (∃ k, (w.fault = some k ∨ w.fault = none ∧ (∃ code, w.instr = some (.brk code)) ∧ k = .breakpoint w.pc) ∧
        t = (s.setPc w.pc).raise k) ∨
      (∃ code, w.fault = none ∧ w.instr = some (.syscall code) ∧ s.commitCall code w.pc = .next t) ∨
      (w.fault = none ∧ (∀ code, w.instr ≠ some (.syscall code)) ∧ (∀ code, w.instr ≠ some (.brk code)) ∧
        t = (((s.writeNames w.result).applyStore w.store).setPc w.nextPc).countCommitted) := by
  unfold State.retireSlot at h
  split at h
  · rename_i k hf
    cases h; exact .inl ⟨k, .inl hf, rfl⟩
  · rename_i code hf hi
    exact .inr (.inl ⟨code, hf, hi, h⟩)
  · rename_i code hf hi
    cases h; exact .inl ⟨_, .inr ⟨hf, ⟨code, hi⟩, rfl⟩, rfl⟩
  · rename_i hf hs hb
    cases h; exact .inr (.inr ⟨hf, hs, hb, rfl⟩)

theorem State.wbPhase_next {s t : State} (h : s.wbPhase = .next t) :
    (s.micro.pipe.wbs = none ∧ t = s) ∨
      ∃ w, s.micro.pipe.wbs = some w ∧ s.staleText w.pc w.fault = false ∧
        (s.setPipe { s.micro.pipe with wbs := none }).retireSlot w = .next t := by
  unfold State.wbPhase at h
  split at h
  · rename_i hw
    cases h; exact .inl ⟨hw, rfl⟩
  · rename_i w hw
    split at h
    · cases h
    · rename_i hs
      exact .inr ⟨w, hw, Bool.eq_false_iff.2 hs, h⟩

theorem State.runCycle_next {s t : State} (h : s.runCycle = .next t) :
    ∃ u, s.wbPhase = .next u ∧
      ((u.status = .running ∧ u.youngerPhases s.micro.pipe.wbs = .next t) ∨ (u.status ≠ .running ∧ t = u)) := by
  unfold State.runCycle at h
  split at h
  · rename_i u hu
    refine ⟨u, hu, ?_⟩
    split at h
    · rename_i hr
      exact .inl ⟨hr, h⟩
    · rename_i hr
      cases h; exact .inr ⟨hr, rfl⟩
  · rename_i hn
    exact absurd h (hn t)

theorem stepInOrder_next {s t : State} (h : stepInOrder s = .next t) :
    (s.status ≠ .running ∧ t = s) ∨
      s.status = .running ∧
        ((s.cfg.maxSteps ≤ s.micro.cycles ∧ t = s.setStatus .budgetExhausted) ∨
          s.micro.cycles < s.cfg.maxSteps ∧
            ((s.micro.pipe.isEmpty = true ∧ (s.micro.fetchStop = true ∨ s.cfg.textEnd ≤ s.micro.fetchPc.toNat)) ∧
                t = s.endOfText ∨
              ¬ (s.micro.pipe.isEmpty = true ∧
                  (s.micro.fetchStop = true ∨ s.cfg.textEnd ≤ s.micro.fetchPc.toNat)) ∧
                (s.countCycle.setPipe s.micro.pipe.countOccupancy).runCycle = .next t)) := by
  simpa only [stepInOrder, ite_next_iff, ne_eq, not_not, not_le] using h

/-! The out-of-order engine (49_ooo_engine.md R450, R470). -/

theorem State.commitHead_next {s t : State} {e : RobEntry} (h : s.commitHead e = .next t) :
    (∃ k, (e.exception = some k ∨
          e.exception = none ∧ (∃ code, e.instr = some (.brk code)) ∧ k = .breakpoint e.pc) ∧
        t = (s.setPc e.pc).raise k) ∨
      (∃ code, e.exception = none ∧ e.instr = some (.syscall code) ∧ s.commitSyscall e code = .next t) ∨
      ∃ i, e.exception = none ∧ e.instr = some i ∧ (∀ code, i ≠ .syscall code) ∧ (∀ code, i ≠ .brk code) ∧
        ((∃ a, isStore i = true ∧ e.storeAddr = some a ∧
            t = (((s.commitStoreEntry a e.storeWidth e.value).freeHead e).setPc e.nextPc).countCommitted) ∨
          (isStore i = false ∧ t = (((s.commitDest e).freeHead e).setPc e.nextPc).countCommitted)) := by
  unfold State.commitHead at h
  split at h
  · rename_i k hx
    cases h; exact .inl ⟨k, .inl hx, rfl⟩
  · rename_i code hx hi
    exact .inr (.inl ⟨code, hx, hi, h⟩)
  · rename_i code hx hi
    cases h; exact .inl ⟨_, .inr ⟨hx, ⟨code, hi⟩, rfl⟩, rfl⟩
  · rename_i i hs hb hx hi
    refine .inr (.inr ⟨i, hx, hi, by simpa using hs, by simpa using hb, ?_⟩)
    split at h
    · rename_i hst
      split at h
      · rename_i a ha
        cases h; exact .inl ⟨a, hst, ha, rfl⟩
      · cases h
    · rename_i hst
      cases h; exact .inr ⟨Bool.eq_false_iff.2 hst, rfl⟩
  · cases h

theorem State.commitOne_next {s t : State} (h : s.commitOne = .next t) :
    ∃ e, s.micro.ooo.entry s.micro.ooo.head = some e ∧
      ((e.ready = true ∧ s.staleText e.pc e.exception = false ∧ s.commitHead e = .next t) ∨
        (e.ready = false ∧ t = s)) := by
  unfold State.commitOne at h
  split at h
  · cases h
  · rename_i e he
    refine ⟨e, he, ?_⟩
    split at h
    · rename_i hr
      split at h
      · cases h
      · rename_i hs
        exact .inl ⟨hr, Bool.eq_false_iff.2 hs, h⟩
    · rename_i hr
      cases h; exact .inr ⟨Bool.eq_false_iff.2 hr, rfl⟩

/-- What one commit keeps, the commit phase keeps. -/
theorem State.commitPhase_keeps {P : State → Prop}
    (one : ∀ {u v : State}, P u → u.canCommit = true → u.commitOne = .next v → P v) {n : Nat} {s t : State}
    (hs : P s) (h : State.commitPhase n s = .next t) : P t := by
  induction n generalizing s with
  | zero => cases h; exact hs
  | succ k ih =>
    unfold State.commitPhase at h
    split at h
    · rename_i hc
      split at h
      · rename_i u hu
        exact ih (one hs hc hu) h
      · rename_i hn
        exact absurd h (hn t)
    · cases h; exact hs

theorem State.runOooCycle_next {s t : State} (h : s.runOooCycle = .next t) :
    ∃ u, State.commitPhase s.cfg.commitWidth s = .next u ∧
      ((u.status = .running ∧ u.laterPhases = .next t) ∨ (u.status ≠ .running ∧ t = u)) := by
  unfold State.runOooCycle at h
  split at h
  · rename_i u hu
    refine ⟨u, hu, ?_⟩
    split at h
    · rename_i hr
      exact .inl ⟨hr, h⟩
    · rename_i hr
      cases h; exact .inr ⟨hr, rfl⟩
  · rename_i hn
    exact absurd h (hn t)

theorem stepOutOfOrder_next {s t : State} (h : stepOutOfOrder s = .next t) :
    (s.status ≠ .running ∧ t = s) ∨
      s.status = .running ∧
        ((s.cfg.maxSteps ≤ s.micro.cycles ∧ t = s.setStatus .budgetExhausted) ∨
          s.micro.cycles < s.cfg.maxSteps ∧
            ((s.micro.ooo.count = 0 ∧ s.micro.ooo.fq = [] ∧
                (s.micro.fetchStop = true ∨ s.cfg.textEnd ≤ s.micro.fetchPc.toNat)) ∧ t = s.endOfText ∨
              ¬ (s.micro.ooo.count = 0 ∧ s.micro.ooo.fq = [] ∧
                  (s.micro.fetchStop = true ∨ s.cfg.textEnd ≤ s.micro.fetchPc.toNat)) ∧
                s.countCycle.runOooCycle = .next t)) := by
  simpa only [stepOutOfOrder, ite_next_iff, ne_eq, not_not, not_le] using h

/-! Every engine (00_scope.md R3). -/

theorem State.underConfig_next {s t : State} {r : Result} (h : s.underConfig r = .next t) :
    s.cfg.wf = true ∧ r = .next t := by
  unfold State.underConfig at h
  split at h
  · rename_i hw
    exact ⟨hw, h⟩
  · cases h

theorem step_next {s t : State} (h : step s = .next t) :
    s.cfg.wf = true ∧
      ((s.cfg.engine = .functional ∧ stepFunctional s = .next t) ∨
        (s.cfg.engine = .inOrder ∧ stepInOrder s = .next t) ∨
        (s.cfg.engine = .outOfOrder ∧ stepOutOfOrder s = .next t)) := by
  unfold step at h
  split at h <;> rename_i he <;> obtain ⟨hw, h⟩ := State.underConfig_next h
  · exact ⟨hw, .inl ⟨he, h⟩⟩
  · exact ⟨hw, .inr (.inl ⟨he, h⟩)⟩
  · exact ⟨hw, .inr (.inr ⟨he, h⟩)⟩

end Sys2Proof.Machine
end

section
/-!
00_scope.md R7: no step changes the configuration. An instruction keeps it (`exec_keeps`) and so does every quiet phase
(`Quiet`); what is left is the engines' own updates and the phases that commit.
-/

namespace Sys2Proof.Machine

/-! Updates. -/

theorem Keeps.writeName (s : State) (n : RegName) (v : Word) : Keeps s (s.writeName n v) := by
  cases n with
  | gpr r => exact Keeps.setGpr s r v
  | fpr r => exact Keeps.setFpr s r v
  | hi => exact Keeps.setHi s v
  | lo => exact Keeps.setLo s v
  | fcc => exact Keeps.setFcc s _

theorem Keeps.writeNames (s : State) (ws : List (RegName × Word)) : Keeps s (s.writeNames ws) := by
  induction ws generalizing s with
  | nil => exact Keeps.refl s
  | cons w rest ih => exact (Keeps.writeName s w.1 w.2).trans (ih _)

theorem Keeps.commitDest (s : State) (e : RobEntry) : Keeps s (s.commitDest e) := by
  unfold State.commitDest
  split
  · exact Keeps.writeNames s _
  · exact Keeps.refl s

@[simp] theorem State.raise_cfg (s : State) (k : FaultKind) : (s.raise k).cfg = s.cfg := (Keeps.raise s k).cfg

@[simp] theorem State.endOfText_cfg (s : State) : s.endOfText.cfg = s.cfg := by rw [State.endOfText_eq]

@[simp] theorem State.endStep_cfg (t : State) : t.endStep.cfg = t.cfg := by
  unfold State.endStep
  split <;> rfl

@[simp] theorem State.commitStore_cfg (s : State) (a : Nat) (bs : List Byte) : (s.commitStore a bs).cfg = s.cfg := rfl

@[simp] theorem State.applyStore_cfg (s : State) (w : Option (Nat × List Byte)) : (s.applyStore w).cfg = s.cfg := by
  cases w <;> rfl

@[simp] theorem State.freeHead_cfg (s : State) (e : RobEntry) : (s.freeHead e).cfg = s.cfg := rfl

@[simp] theorem State.commitStoreEntry_cfg (s : State) (a width : Nat) (v : BitVec 64) :
    (s.commitStoreEntry a width v).cfg = s.cfg := (Quiet.accessL1D s a _).arch.cfg

/-! The functional engine. -/

theorem State.runInstruction_cfg {s t : State} (h : s.runInstruction = .next t) : t.cfg = s.cfg := by
  obtain ⟨k, -, rfl⟩ | ⟨w, -, ⟨-, rfl⟩ | ⟨i, u, -, hu, rfl⟩⟩ := State.runInstruction_next h
  · exact s.raise_cfg _
  · exact s.raise_cfg _
  · exact u.endStep_cfg.trans (exec_keeps hu).cfg

theorem stepFunctional_cfg {s t : State} (h : stepFunctional s = .next t) : t.cfg = s.cfg := by
  obtain ⟨-, rfl⟩ | ⟨-, ⟨-, rfl⟩ | ⟨-, ⟨-, rfl⟩ | ⟨-, ⟨-, rfl⟩ | ⟨-, h⟩⟩⟩⟩ := stepFunctional_next h
  · rfl
  · rfl
  · exact s.raise_cfg _
  · rfl
  · exact State.runInstruction_cfg h

/-! The phases that commit. -/

theorem State.commitCall_cfg {s t : State} {code : BitVec 20} {pc : Word} (h : s.commitCall code pc = .next t) :
    t.cfg = s.cfg := by
  obtain ⟨u, hu, ht⟩ := State.commitCall_next h
  have keeps : u.cfg = s.cfg := (exec_keeps hu).cfg
  obtain ⟨-, rfl⟩ | ⟨-, rfl⟩ | ⟨-, -, rfl⟩ := ht <;> exact keeps

theorem State.retireSlot_cfg {s t : State} {w : Slot} (h : s.retireSlot w = .next t) : t.cfg = s.cfg := by
  obtain ⟨k, -, rfl⟩ | ⟨code, -, -, h⟩ | ⟨-, -, -, rfl⟩ := State.retireSlot_next h
  · exact State.raise_cfg _ k
  · exact State.commitCall_cfg h
  · exact (State.applyStore_cfg _ _).trans (Keeps.writeNames s _).cfg

theorem State.commitHead_cfg {s t : State} {e : RobEntry} (h : s.commitHead e = .next t) : t.cfg = s.cfg := by
  obtain ⟨k, -, rfl⟩ | ⟨code, -, -, h⟩ | ⟨i, -, -, -, -, ⟨a, -, -, rfl⟩ | ⟨-, rfl⟩⟩ := State.commitHead_next h
  · exact State.raise_cfg _ k
  · obtain ⟨u, hu, ⟨-, rfl⟩ | ⟨-, rfl⟩⟩ := State.commitSyscall_next h
    · exact (u.freeHead_cfg e).trans (State.commitCall_cfg hu)
    · exact State.commitCall_cfg hu
  · exact s.commitStoreEntry_cfg a _ _
  · exact (Keeps.commitDest s e).cfg

theorem State.commitOne_cfg {s t : State} (h : s.commitOne = .next t) : t.cfg = s.cfg := by
  obtain ⟨e, -, ⟨-, -, h⟩ | ⟨-, rfl⟩⟩ := State.commitOne_next h
  · exact State.commitHead_cfg h
  · rfl

/-! The cycles. -/

theorem State.runCycle_cfg {s t : State} (h : s.runCycle = .next t) : t.cfg = s.cfg := by
  obtain ⟨u, hu, ht⟩ := State.runCycle_next h
  have retired : u.cfg = s.cfg := by
    obtain ⟨-, rfl⟩ | ⟨w, -, -, hw⟩ := State.wbPhase_next hu
    · rfl
    · exact (State.retireSlot_cfg hw).trans (s.setPipe_cfg _)
  obtain ⟨-, h⟩ | ⟨-, rfl⟩ := ht
  · exact (Quiet.youngerPhases h).arch.cfg.trans retired
  · exact retired

theorem stepInOrder_cfg {s t : State} (h : stepInOrder s = .next t) : t.cfg = s.cfg := by
  obtain ⟨-, rfl⟩ | ⟨-, ⟨-, rfl⟩ | ⟨-, ⟨-, rfl⟩ | ⟨-, h⟩⟩⟩ := stepInOrder_next h
  · rfl
  · rfl
  · exact s.endOfText_cfg
  · exact (State.runCycle_cfg h).trans ((State.setPipe_cfg _ _).trans s.countCycle_cfg)

theorem State.runOooCycle_cfg {s t : State} (h : s.runOooCycle = .next t) : t.cfg = s.cfg := by
  obtain ⟨u, hu, ht⟩ := State.runOooCycle_next h
  have committed : u.cfg = s.cfg :=
    State.commitPhase_keeps (P := fun v => v.cfg = s.cfg) (fun hv _ h => (State.commitOne_cfg h).trans hv) rfl hu
  obtain ⟨-, h⟩ | ⟨-, rfl⟩ := ht
  · exact (Quiet.laterPhases h).arch.cfg.trans committed
  · exact committed

theorem stepOutOfOrder_cfg {s t : State} (h : stepOutOfOrder s = .next t) : t.cfg = s.cfg := by
  obtain ⟨-, rfl⟩ | ⟨-, ⟨-, rfl⟩ | ⟨-, ⟨-, rfl⟩ | ⟨-, h⟩⟩⟩ := stepOutOfOrder_next h
  · rfl
  · rfl
  · exact s.endOfText_cfg
  · exact (State.runOooCycle_cfg h).trans s.countCycle_cfg

/-- Settles O9, engine by engine: the phases that commit keep the configuration, and every other phase is quiet. -/
theorem configurationNeverChanges : Obligations.ConfigurationNeverChanges := by
  intro s t h
  obtain ⟨-, ⟨-, h⟩ | ⟨-, h⟩ | ⟨-, h⟩⟩ := step_next h
  · exact stepFunctional_cfg h
  · exact stepInOrder_cfg h
  · exact stepOutOfOrder_cfg h

end Sys2Proof.Machine
end

section
/-!
The invariant of 10_state.md R21 and of the canonical memory (notes/assumptions/17.md): memory and the storage of register
0 are written by the instructions (`exec_keeps`) and by the phases of the timing engines that commit; every other phase is
quiet.
-/

namespace Sys2Proof.Machine

/-- The invariant is about memory and the general registers alone. -/
theorem State.Inv.of_same {s t : State} (h : s.Inv) (mem : t.mem = s.mem) (gpr : t.gpr = s.gpr) : t.Inv := by
  unfold State.Inv
  rw [mem, gpr]
  exact h

theorem Quiet.inv {s t : State} (q : Quiet s t) (h : s.Inv) : t.Inv := h.of_same q.arch.mem q.arch.gpr

/-! After construction. -/

theorem State.construct_inv (c : Config) : (State.construct c).Inv := by
  refine ⟨State.construct_mem_wf c, ?_⟩
  show ((Vector.replicate 32 0#32).set 29 c.spInit)[0] = 0#32
  rw [Vector.getElem_set_ne _ _ (by decide), Vector.getElem_replicate]

/-- Settles O11: nothing is listed in memory, and construction writes register 29 alone. -/
theorem invariantAtReset : Obligations.InvariantAtReset := ⟨State.construct_inv, State.construct_inv Config.default⟩

/-! Updates. -/

theorem State.Inv.endStep {t : State} (h : t.Inv) : t.endStep.Inv := by
  unfold State.endStep
  split
  · exact h
  · exact h
  · exact h.of_same rfl rfl

theorem State.Inv.endOfText {s : State} (h : s.Inv) : s.endOfText.Inv := by
  rw [State.endOfText_eq]
  exact h.of_same rfl rfl

theorem State.Inv.commitStore {s : State} (h : s.Inv) (a : Nat) (bs : List Byte) : (s.commitStore a bs).Inv :=
  ((Keeps.storeBytes s a bs).inv h).of_same rfl rfl

theorem State.Inv.applyStore {s : State} (h : s.Inv) (w : Option (Nat × List Byte)) : (s.applyStore w).Inv := by
  cases w with
  | none => exact h
  | some w => exact h.commitStore w.1 w.2

theorem State.Inv.commitStoreEntry {s : State} (h : s.Inv) (a width : Nat) (v : BitVec 64) :
    (s.commitStoreEntry a width v).Inv :=
  ((Quiet.accessL1D s a _).inv h).commitStore a _

/-! The functional engine. -/

theorem State.Inv.runInstruction {s t : State} (hs : s.Inv) (h : s.runInstruction = .next t) : t.Inv := by
  obtain ⟨k, -, rfl⟩ | ⟨w, -, ⟨-, rfl⟩ | ⟨i, u, -, hu, rfl⟩⟩ := State.runInstruction_next h
  · exact (Keeps.raise s _).inv hs
  · exact (Keeps.raise s _).inv hs
  · exact ((exec_keeps hu).inv hs).endStep

theorem State.Inv.stepFunctional {s t : State} (hs : s.Inv) (h : stepFunctional s = .next t) : t.Inv := by
  obtain ⟨-, rfl⟩ | ⟨-, ⟨-, rfl⟩ | ⟨-, ⟨-, rfl⟩ | ⟨-, ⟨-, rfl⟩ | ⟨-, h⟩⟩⟩⟩ := stepFunctional_next h
  · exact hs
  · exact (Keeps.setStatus s _).inv hs
  · exact (Keeps.raise s _).inv hs
  · exact (Keeps.setStatus s _).inv hs
  · exact hs.runInstruction h

/-! The phases that commit. -/

theorem State.Inv.commitCall {s t : State} {code : BitVec 20} {pc : Word} (hs : s.Inv)
    (h : s.commitCall code pc = .next t) : t.Inv := by
  obtain ⟨u, hu, ht⟩ := State.commitCall_next h
  have called : u.Inv := (exec_keeps hu).inv ((Keeps.setPc s pc).inv hs)
  obtain ⟨-, rfl⟩ | ⟨-, rfl⟩ | ⟨-, -, rfl⟩ := ht <;> exact called.of_same rfl rfl

theorem State.Inv.retireSlot {s t : State} {w : Slot} (hs : s.Inv) (h : s.retireSlot w = .next t) : t.Inv := by
  obtain ⟨k, -, rfl⟩ | ⟨code, -, -, h⟩ | ⟨-, -, -, rfl⟩ := State.retireSlot_next h
  · exact ((Keeps.setPc s _).trans (Keeps.raise _ k)).inv hs
  · exact hs.commitCall h
  · exact (((Keeps.writeNames s _).inv hs).applyStore _).of_same rfl rfl

theorem State.Inv.commitHead {s t : State} {e : RobEntry} (hs : s.Inv) (h : s.commitHead e = .next t) : t.Inv := by
  obtain ⟨k, -, rfl⟩ | ⟨code, -, -, h⟩ | ⟨i, -, -, -, -, ⟨a, -, -, rfl⟩ | ⟨-, rfl⟩⟩ := State.commitHead_next h
  · exact ((Keeps.setPc s _).trans (Keeps.raise _ k)).inv hs
  · obtain ⟨u, hu, ⟨-, rfl⟩ | ⟨-, rfl⟩⟩ := State.commitSyscall_next h
    · exact (Quiet.setOoo u _).inv (hs.commitCall hu)
    · exact hs.commitCall hu
  · exact (hs.commitStoreEntry a _ _).of_same rfl rfl
  · exact ((Keeps.commitDest s e).inv hs).of_same rfl rfl

theorem State.Inv.commitOne {s t : State} (hs : s.Inv) (h : s.commitOne = .next t) : t.Inv := by
  obtain ⟨e, -, ⟨-, -, h⟩ | ⟨-, rfl⟩⟩ := State.commitOne_next h
  · exact hs.commitHead h
  · exact hs

/-! The cycles. -/

theorem State.Inv.wbPhase {s t : State} (hs : s.Inv) (h : s.wbPhase = .next t) : t.Inv := by
  obtain ⟨-, rfl⟩ | ⟨w, -, -, h⟩ := State.wbPhase_next h
  · exact hs
  · exact ((Quiet.setPipe s _).inv hs).retireSlot h

theorem State.Inv.runCycle {s t : State} (hs : s.Inv) (h : s.runCycle = .next t) : t.Inv := by
  obtain ⟨u, hu, ⟨-, h⟩ | ⟨-, rfl⟩⟩ := State.runCycle_next h
  · exact (Quiet.youngerPhases h).inv (hs.wbPhase hu)
  · exact hs.wbPhase hu

theorem State.Inv.stepInOrder {s t : State} (hs : s.Inv) (h : stepInOrder s = .next t) : t.Inv := by
  obtain ⟨-, rfl⟩ | ⟨-, ⟨-, rfl⟩ | ⟨-, ⟨-, rfl⟩ | ⟨-, h⟩⟩⟩ := stepInOrder_next h
  · exact hs
  · exact (Keeps.setStatus s _).inv hs
  · exact hs.endOfText
  · have counted : (s.countCycle.setPipe s.micro.pipe.countOccupancy).Inv := hs.of_same rfl rfl
    exact counted.runCycle h

theorem State.Inv.runOooCycle {s t : State} (hs : s.Inv) (h : s.runOooCycle = .next t) : t.Inv := by
  obtain ⟨u, hu, ht⟩ := State.runOooCycle_next h
  have committed : u.Inv := State.commitPhase_keeps (fun hv _ h => hv.commitOne h) hs hu
  obtain ⟨-, h⟩ | ⟨-, rfl⟩ := ht
  · exact (Quiet.laterPhases h).inv committed
  · exact committed

theorem State.Inv.stepOutOfOrder {s t : State} (hs : s.Inv) (h : stepOutOfOrder s = .next t) : t.Inv := by
  obtain ⟨-, rfl⟩ | ⟨-, ⟨-, rfl⟩ | ⟨-, ⟨-, rfl⟩ | ⟨-, h⟩⟩⟩ := stepOutOfOrder_next h
  · exact hs
  · exact (Keeps.setStatus s _).inv hs
  · exact hs.endOfText
  · have counted : s.countCycle.Inv := hs.of_same rfl rfl
    exact counted.runOooCycle h

/-- Settles O12, engine by engine: instructions and commits keep the invariant, and every other phase is quiet. -/
theorem stepKeepsInvariant : Obligations.StepKeepsInvariant := by
  intro s t hs h
  obtain ⟨-, ⟨-, h⟩ | ⟨-, h⟩ | ⟨-, h⟩⟩ := step_next h
  · exact hs.stepFunctional h
  · exact hs.stepInOrder h
  · exact hs.stepOutOfOrder h

end Sys2Proof.Machine
end

section
/-!
10_state.md R26, functional engine: where control is after a step. Every instruction ends in one of the four ways of
`Ends`, by its shared endings; the alignment of `pc` follows from the target test of 43_control.md R232.
-/

namespace Sys2Proof.Machine

/-- The ways an instruction ends (43_control.md R230, R232; 45_system.md R297; 60_exceptions.md R500): it raises a fault,
exits the run, goes on to the next word or transfers control to a good target. -/
inductive Ends (s : State) : State → Prop
  | raises (k : FaultKind) : Ends s (s.raise k)
  | exits : Ends s s.callExit
  | advances {t : State} (status : t.status = s.status) (pc : t.pc = s.pc + 4#32) : Ends s t
  | transfers {t : State} (status : t.status = s.status) (target : s.targetOk t.pc = true) : Ends s t

/-! Shared endings. -/

theorem Ends.finishGpr {s t : State} {r : RegIdx} {v : Word} (h : s.finishGpr r v = .next t) : Ends s t := by
  cases h; exact .advances (by simp) (by simp)

theorem Ends.finishFpr {s t : State} {r : RegIdx} {v : Word} (h : s.finishFpr r v = .next t) : Ends s t := by
  cases h; exact .advances rfl rfl

theorem Ends.finishHiLo {s t : State} {a b : Word} (h : s.finishHiLo a b = .next t) : Ends s t := by
  cases h; exact .advances rfl rfl

theorem Ends.finishFcc {s t : State} {b : Bool} (h : s.finishFcc b = .next t) : Ends s t := by
  cases h; exact .advances rfl rfl

theorem Ends.finishTrapping {s t : State} {r : RegIdx} {e : Int} (h : s.finishTrapping r e = .next t) : Ends s t := by
  unfold State.finishTrapping at h
  split at h
  · cases h; exact .raises _
  · exact Ends.finishGpr h

theorem Ends.finishNumber {s t : State} {r : RegIdx} {v : Option Word} (h : s.finishNumber r v = .next t) :
    Ends s t := by
  cases v with
  | some v => exact Ends.finishFpr h
  | none => cases h; exact .advances rfl rfl

theorem Ends.loadAt {s t : State} {b : RegIdx} {imm : Imm16} {w : Width} {f : Word → Result}
    (h : s.loadAt b imm w f = .next t) (hf : ∀ v, f v = .next t → Ends s t) : Ends s t := by
  unfold State.loadAt at h
  split at h
  · cases h; exact .raises _
  · split at h
    · cases h; exact .raises _
    · exact hf _ h

theorem Ends.storeAt {s t : State} {b : RegIdx} {imm : Imm16} {w : Width} {v : Word}
    (h : s.storeAt b imm w v = .next t) : Ends s t := by
  unfold State.storeAt at h
  split at h
  · cases h; exact .raises _
  · split at h
    · cases h; exact .raises _
    · cases h; exact .advances rfl rfl

theorem Ends.transfer {s t : State} {a : Word} {l : State → State} (h : s.transfer a l = .next t)
    (hl : (l s).status = s.status) : Ends s t := by
  unfold State.transfer at h
  split at h
  · rename_i ok
    cases h; exact .transfers hl ok
  · cases h; exact .raises _

theorem Ends.branch {s t : State} {c : Bool} {imm : Imm16} (h : s.branch c imm = .next t) : Ends s t := by
  cases c with
  | true => exact Ends.transfer (l := id) h rfl
  | false => cases h; exact .advances rfl rfl

/-! The instructions with endings of their own. -/

theorem Ends.execDiv {s t : State} {rs rt : RegIdx} (h : execDiv rs rt s = .next t) : Ends s t := by
  unfold Machine.execDiv at h
  simp only at h
  split at h
  · cases h; exact .raises _
  · split at h
    · cases h; exact .advances rfl rfl
    · exact Ends.finishHiLo h

theorem Ends.execDivu {s t : State} {rs rt : RegIdx} (h : execDivu rs rt s = .next t) : Ends s t := by
  unfold Machine.execDivu at h
  simp only at h
  split at h
  · cases h; exact .raises _
  · exact Ends.finishHiLo h

theorem Ends.execCvtWS {s t : State} {fd fs : RegIdx} (h : execCvtWS fd fs s = .next t) : Ends s t := by
  unfold Machine.execCvtWS at h
  split at h
  · exact Ends.finishFpr h
  · cases h; exact .advances rfl rfl

@[simp] theorem State.askInt_pc (s : State) : s.askInt.2.pc = s.pc := by unfold State.askInt; split <;> rfl
@[simp] theorem State.askInt_status (s : State) : s.askInt.2.status = s.status := by unfold State.askInt; split <;> rfl
@[simp] theorem State.askChar_pc (s : State) : s.askChar.2.pc = s.pc := by unfold State.askChar; split <;> rfl
@[simp] theorem State.askChar_status (s : State) : s.askChar.2.status = s.status := by unfold State.askChar; split <;> rfl
@[simp] theorem State.askString_pc (s : State) (n : Nat) : (s.askString n).2.pc = s.pc := by
  unfold State.askString; split <;> rfl
@[simp] theorem State.askString_status (s : State) (n : Nat) : (s.askString n).2.status = s.status := by
  unfold State.askString; split <;> rfl

theorem Ends.callPrintString (s : State) : Ends s s.callPrintString := by
  unfold State.callPrintString
  simp only
  split
  · exact .advances rfl rfl
  · exact .raises _

theorem Ends.callReadInt (s : State) : Ends s s.callReadInt :=
  .advances (by simp [State.callReadInt]) (by simp [State.callReadInt])

theorem Ends.callReadChar (s : State) : Ends s s.callReadChar :=
  .advances (by simp [State.callReadChar]) (by simp [State.callReadChar])

theorem Ends.callReadString (s : State) : Ends s s.callReadString := by
  unfold State.callReadString
  simp only
  split
  · exact .advances rfl rfl
  · split
    · exact .raises _
    · exact .advances (by simp [State.readStringBytes]) (by simp [State.readStringBytes])

/-- The calls by their numbers (45_system.md R291). -/
theorem Ends.execSyscall {s t : State} {code : BitVec 20} (h : execSyscall code s = .next t) : Ends s t := by
  simp only [Machine.execSyscall, ite_next_iff] at h
  obtain ⟨-, rfl⟩ | ⟨-, ⟨-, rfl⟩ | ⟨-, ⟨-, rfl⟩ | ⟨-, ⟨-, rfl⟩ |
    ⟨-, ⟨-, rfl⟩ | ⟨-, ⟨-, rfl⟩ | ⟨-, ⟨-, rfl⟩ | ⟨-, h⟩⟩⟩⟩⟩⟩⟩ := h
  · exact .advances rfl rfl
  · exact Ends.callPrintString s
  · exact Ends.callReadInt s
  · exact Ends.callReadString s
  · exact .exits
  · exact .advances rfl rfl
  · exact Ends.callReadChar s
  · cases h; exact .raises _

/-! Every instruction. -/

theorem exec_ends {i : Instr} {s t : State} (h : exec i s = .next t) : Ends s t := by
  cases i
  case add | sub | addi => exact Ends.finishTrapping h
  case addu | subu | and | or | xor | nor | slt | sltu | addiu | slti | sltiu | andi | ori | xori | sll | srl | sra
      | sllv | srlv | srav | mfhi | mflo | lui => exact Ends.finishGpr h
  case mult | multu | mthi | mtlo => exact Ends.finishHiLo h
  case div => exact Ends.execDiv h
  case divu => exact Ends.execDivu h
  case lw | lhu | lbu => exact Ends.loadAt h (fun _ e => Ends.finishGpr e)
  case lh => exact Ends.loadAt (f := fun v => s.finishGpr _ (sextHalf v)) h (fun _ e => Ends.finishGpr e)
  case lb => exact Ends.loadAt (f := fun v => s.finishGpr _ (sextByte v)) h (fun _ e => Ends.finishGpr e)
  case lwc1 => exact Ends.loadAt h (fun _ e => Ends.finishFpr e)
  case sw | sh | sb | swc1 => exact Ends.storeAt h
  case beq | bne | bgtz | bgez | bltz | blez | bc1t | bc1f => exact Ends.branch h
  case j | jr => exact Ends.transfer (l := id) h rfl
  case jal | jalr => exact Ends.transfer (l := fun u => u.setGpr _ _) h (State.setGpr_status s _ _)
  case addS | subS | mulS | divS => exact Ends.finishNumber h
  case absS | negS | movS | cvtSW => exact Ends.finishFpr h
  case cvtWS => exact Ends.execCvtWS h
  case cEqS | cLtS | cLeS => exact Ends.finishFcc h
  case syscall code => exact Ends.execSyscall (code := code) h
  case brk => cases h; exact .raises _
  case nop => cases h; exact .advances rfl rfl

/-! The alignment of `pc`. -/

@[simp] theorem State.raise_pc (s : State) (k : FaultKind) : (s.raise k).pc = s.pc := (s.raise_faulted k).pc

@[simp] theorem State.endStep_pc (t : State) : t.endStep.pc = t.pc := by
  unfold State.endStep
  split <;> rfl

theorem Ends.pc_aligned {s t : State} (h : Ends s t) (aligned : s.pc.toNat % 4 = 0) : t.pc.toNat % 4 = 0 := by
  cases h with
  | raises k => rw [State.raise_pc]; exact aligned
  | exits => exact aligned
  | advances _ pc => rw [pc]; bv_omega
  | transfers _ target => exact ((s.targetOk_iff t.pc).1 target).1

theorem State.runInstruction_pc_aligned {s t : State} (h : s.runInstruction = .next t)
    (aligned : s.pc.toNat % 4 = 0) : t.pc.toNat % 4 = 0 := by
  obtain ⟨k, -, rfl⟩ | ⟨w, -, ⟨-, rfl⟩ | ⟨i, u, -, hu, rfl⟩⟩ := State.runInstruction_next h
  · exact (Ends.raises k).pc_aligned aligned
  · exact (Ends.raises _).pc_aligned aligned
  · rw [State.endStep_pc]; exact (exec_ends hu).pc_aligned aligned

/-- Settles O15: the end-of-run tests leave `pc`, and an instruction leaves it, advances it by 4 or tests its target. -/
theorem pcStaysAligned : Obligations.PcStaysAligned := by
  intro s t engine aligned h
  have functional : stepFunctional s = .next t := by
    obtain ⟨-, ⟨-, h⟩ | ⟨e, -⟩ | ⟨e, -⟩⟩ := step_next h
    · exact h
    · rw [engine] at e; cases e
    · rw [engine] at e; cases e
  obtain ⟨-, rfl⟩ | ⟨-, ⟨-, rfl⟩ | ⟨-, ⟨-, rfl⟩ | ⟨-, ⟨-, rfl⟩ | ⟨-, h⟩⟩⟩⟩ := stepFunctional_next functional
  · exact aligned
  · exact aligned
  · exact (Ends.raises _).pc_aligned aligned
  · exact aligned
  · exact State.runInstruction_pc_aligned h aligned

end Sys2Proof.Machine
end

section
/-!
10_state.md R33: once the run has ended, every engine answers the state itself.
-/

namespace Sys2Proof.Machine

theorem stepFunctional_of_ended {s : State} (h : s.status ≠ .running) : stepFunctional s = .next s := if_pos h

theorem stepInOrder_of_ended {s : State} (h : s.status ≠ .running) : stepInOrder s = .next s := if_pos h

theorem stepOutOfOrder_of_ended {s : State} (h : s.status ≠ .running) : stepOutOfOrder s = .next s := if_pos h

theorem State.underConfig_of_wf {s : State} (h : s.cfg.wf = true) (r : Result) : s.underConfig r = r := if_pos h

/-- Settles O8: the status is the first test of each engine. -/
theorem terminalStatusIsFinal : Obligations.TerminalStatusIsFinal := by
  intro s admitted ended
  unfold step
  split
  · exact (State.underConfig_of_wf admitted _).trans (stepFunctional_of_ended ended)
  · exact (State.underConfig_of_wf admitted _).trans (stepInOrder_of_ended ended)
  · exact (State.underConfig_of_wf admitted _).trans (stepOutOfOrder_of_ended ended)

end Sys2Proof.Machine
end

section
/-!
10_state.md R38, R34: what construction leaves in the registers and in each unit.
-/

namespace Sys2Proof.Machine

theorem State.construct_readGpr (c : Config) (r : RegIdx) :
    (State.construct c).readGpr r = if r = 29#5 then c.spInit else 0#32 := by
  show (if r = 0#5 then 0#32 else ((Vector.replicate 32 0#32).set 29 c.spInit)[r.toNat]'r.isLt) = _
  by_cases sp : r = 29#5
  · subst sp; simp
  · have other : 29 ≠ r.toNat := fun e => sp (BitVec.eq_of_toNat_eq e.symm)
    simp [sp, Vector.getElem_set_ne _ _ other]

theorem State.construct_readFpr (c : Config) (r : RegIdx) : (State.construct c).readFpr r = 0#32 :=
  Vector.getElem_replicate r.isLt

theorem Cache.empty_cold (c : CacheCfg) (first : Nat) : (Cache.empty c first).Cold where
  lines ways hways way hway := by
    obtain ⟨i, -, rfl⟩ := List.mem_map.1 hways
    obtain ⟨j, -, rfl⟩ := List.mem_map.1 hway
    exact ⟨rfl, fun _ => rfl⟩
  clock := rfl
  accesses := rfl
  hits := rfl
  misses := rfl
  writebacks := rfl

theorem Pipe.empty_cold : Pipe.empty.Cold := ⟨rfl, rfl, rfl, rfl, rfl, rfl, rfl, rfl, rfl⟩

theorem Ooo.empty_fu (c : Config) (f : Fu) : ∃ u, (Ooo.empty c).fu f = FuClass.empty u := by
  cases f <;> exact ⟨_, rfl⟩

theorem Ooo.empty_fu_idle (c : Config) (f : Fu) :
    (∀ t ∈ ((Ooo.empty c).fu f).stations, t = none) ∧ ((Ooo.empty c).fu f).exec = [] := by
  obtain ⟨u, hu⟩ := Ooo.empty_fu c f
  rw [hu]
  exact ⟨fun _ ht => List.eq_of_mem_replicate ht, rfl⟩

theorem Micro.construct_l2_cold {c : Config} {k : Cache} (h : (Micro.construct c).l2 = some k) : k.Cold := by
  obtain ⟨g, -, rfl⟩ := Option.map_eq_some_iff.1 h
  exact Cache.empty_cold g _

/-- Settles O10: each register and unit by its lemma above, every other field as construction writes it. -/
theorem resetValues : Obligations.ResetValues := by
  intro c
  have table : ∀ n ∈ (State.construct c).micro.pred.table, n = .wn := fun _ hn => List.eq_of_mem_replicate hn
  have aliases : ∀ n ∈ (State.construct c).micro.ooo.rat, n = none := fun _ hn => List.eq_of_mem_replicate hn
  exact ⟨State.construct_readGpr c, rfl, rfl, State.construct_readFpr c, rfl, rfl, fun _ => rfl, rfl, rfl, rfl, rfl,
    Cache.empty_cold _ _, Cache.empty_cold _ _, Option.isSome_map, fun _ => Micro.construct_l2_cold, table, rfl,
    Pipe.empty_cold, rfl, rfl, aliases, Ooo.empty_fu_idle c, rfl, rfl, rfl, rfl, rfl, rfl, rfl⟩

end Sys2Proof.Machine
end

section
/-!
20_memory.md R61 to R67, R76; 42_loadstore.md R200, R206 to R208, R211: the effective address, and the four stores by
their shared part `State.storeAt`: the bytes they write, their faults, and the loads that follow them.
-/

namespace Sys2Proof.Machine

/-! The effective address (20_memory.md R65). -/

theorem effAddr_eq_some_iff {base : Word} {imm : Imm16} {a : Nat} :
    effAddr base imm = some a ↔ (a : Int) = base.toNat + imm.toInt ∧ a < 2 ^ 32 := by
  unfold effAddr
  dsimp only
  split
  · constructor
    · intro h; cases h
    · omega
  · rw [Option.some.injEq]
    omega

theorem effAddr_eq_none_iff {base : Word} {imm : Imm16} :
    effAddr base imm = none ↔ base.toNat + imm.toInt < 0 ∨ 2 ^ 32 ≤ base.toNat + imm.toInt := by
  unfold effAddr
  rw [ite_eq_left_iff]
  simp only [reduceCtorEq, imp_false, not_not]

/-- Settles O29. -/
theorem effectiveAddress : Obligations.EffectiveAddress :=
  fun _ _ => ⟨fun _ => effAddr_eq_some_iff, effAddr_eq_none_iff⟩

/-! The bytes of a store, and the word they read back as (20_memory.md R61, R76). -/

theorem Width.getElem_bytesOf (w : Width) (v : Word) (k : Nat) (h : k < (w.bytesOf v).length) :
    (w.bytesOf v)[k] = v.extractLsb' (8 * k) 8 := by
  have low : k < 4 := by
    rw [Width.length_bytesOf] at h
    cases w <;> simp only [Width.bytes] at h <;> omega
  simp only [Width.bytesOf, List.getElem_take]
  interval_cases k <;> rfl

theorem Memory.read_writeBytes_bytesOf {m : List Host.Cell} (wf : Memory.wf m = true) (a : Nat) (w : Width) (v : Word)
    (k : Nat) (h : k < w.bytes) :
    Memory.read (Memory.writeBytes m a (w.bytesOf v)) (a + k) = v.extractLsb' (8 * k) 8 := by
  have h : k < (w.bytesOf v).length := by rwa [Width.length_bytesOf]
  rw [Memory.read_writeBytes_inside wf _ a k h, Width.getElem_bytesOf]

theorem Memory.load_writeBytes_word {m : List Host.Cell} (wf : Memory.wf m = true) (a : Nat) (v : Word) :
    Memory.load (Memory.writeBytes m a (Width.word.bytesOf v)) a .word = v := by
  have byte := Memory.read_writeBytes_bytesOf wf a .word v
  have first := byte 0 (by decide)
  rw [Nat.add_zero] at first
  rw [Memory.load, first, byte 1 (by decide), byte 2 (by decide), byte 3 (by decide)]
  exact Laws.wordOfBytes_bytesOfWord v

/-! An instruction that is a store (42_loadstore.md R200). -/

section
variable {s : State} {i : Instr} {b : RegIdx} {imm : Imm16} {w : Width} {v : Word} (e : exec i s = s.storeAt b imm w v)
include e

theorem stores_of_storeAt (wf : Memory.wf s.mem = true) {a : Nat} (ha : effAddr (s.readGpr b) imm = some a)
    (h : s.storable a w.bytes) : Stores s i a (w.bytesOf v) :=
  stores_of wf (e.trans (State.storeAt_ok ha h))

theorem faults_of_storeAt {a : Nat} {k : FaultKind} (ha : effAddr (s.readGpr b) imm = some a)
    (h : s.writeFault a w.bytes = some k) : Faults s i k :=
  faults_of (e.trans (State.storeAt_fault ha h))

theorem accessFaults_of_storeAt : AccessFaults s i (s.readGpr b) imm w.bytes :=
  ⟨fun none => faults_of (e.trans (State.storeAt_overflow none)),
    fun _ ha out => faults_of_storeAt e ha (State.writeFault_of_read (State.readFault_bounds out)),
    fun _ ha within odd => faults_of_storeAt e ha (State.writeFault_of_read (State.readFault_misaligned within odd))⟩

end

/-- The armed read-only range protects the accesses that share a byte with it (20_memory.md R63). -/
theorem State.protects_iff (s : State) (a n : Nat) :
    s.protects a n = true ↔
      s.roArmed = true ∧ ∃ k, (s.cfg.roBase ≤ k ∧ k < s.cfg.roEnd) ∧ a ≤ k ∧ k < a + n := by
  rw [State.protects, Bool.and_eq_true, rangesMeet, decide_eq_true_eq]
  refine and_congr_right fun _ => ⟨fun meet => ⟨max a s.cfg.roBase, ?_⟩, ?_⟩
  · omega
  · rintro ⟨k, range, low, high⟩
    omega

/-! The four stores. -/

section
variable (rt b : RegIdx) (imm : Imm16) (s : State)

theorem exec_sw : exec (.sw rt b imm) s = s.storeAt b imm .word (s.readGpr rt) := rfl
theorem exec_sh : exec (.sh rt b imm) s = s.storeAt b imm .half (s.readGpr rt) := rfl
theorem exec_sb : exec (.sb rt b imm) s = s.storeAt b imm .byte (s.readGpr rt) := rfl
theorem exec_swc1 : exec (.swc1 rt b imm) s = s.storeAt b imm .word (s.readFpr rt) := rfl

end

/-- Settles O34: each store is `State.storeAt` at its width, whose bytes are the low bytes of the register. -/
theorem storesWriteTheirBytes : Obligations.StoresWriteTheirBytes := by
  intro s rt b imm a wf ha
  refine ⟨?_, ?_⟩
  · rintro _ rfl
    exact ⟨stores_of_storeAt (exec_sw rt b imm s) wf ha, stores_of_storeAt (exec_sh rt b imm s) wf ha,
      stores_of_storeAt (exec_sb rt b imm s) wf ha⟩
  · rintro _ rfl
    exact stores_of_storeAt (exec_swc1 rt b imm s) wf ha

/-- Settles O35: the tests are those of `State.storeAt`, and a protected byte `k` of the access is one the armed range
shares with it. -/
theorem storeFaults : Obligations.StoreFaults := by
  intro s rt b imm
  have sw := exec_sw rt b imm s
  have sh := exec_sh rt b imm s
  have sb := exec_sb rt b imm s
  have swc1 := exec_swc1 rt b imm s
  refine ⟨accessFaults_of_storeAt sw, accessFaults_of_storeAt sh, accessFaults_of_storeAt sb,
    accessFaults_of_storeAt swc1, ?_⟩
  intro a k ha armed base top low
  have blocked : ∀ {n}, s.loadable a n → k < a + n → s.writeFault a n = some (.memoryWriteProtected a) :=
    fun ok high => State.writeFault_protected ok ((s.protects_iff a _).2 ⟨armed, k, ⟨base, top⟩, low, high⟩)
  exact ⟨fun ok high => ⟨faults_of_storeAt sw ha (blocked ok high), faults_of_storeAt swc1 ha (blocked ok high)⟩,
    fun ok high => faults_of_storeAt sh ha (blocked ok high),
    fun ok high => faults_of_storeAt sb ha (blocked ok high)⟩

/-- The load of a word just stored: the store left configuration and base register, so the load meets the same address,
in bounds and aligned. -/
theorem State.loadAt_storeBytes_word {s : State} (wf : Memory.wf s.mem = true) {b : RegIdx} {imm : Imm16} {a : Nat}
    (ha : effAddr (s.readGpr b) imm = some a) (ok : s.loadable a 4) (v : Word) (f : Word → Result) :
    (s.storeBytes a (Width.word.bytesOf v)).advance.loadAt b imm .word f = f v :=
  Eq.trans (State.loadAt_ok ha ok) (congrArg f (Memory.load_writeBytes_word wf a v))

/-- Settles O36: after `sw` each load of a word is `State.loadAt`, which hands on the stored word. -/
theorem storeThenLoadReturnsValue : Obligations.StoreThenLoadReturnsValue := by
  intro s rt b q imm a wf ha ok
  have load := State.loadAt_storeBytes_word wf ha ok.1 (s.readGpr rt)
  exact ⟨_, (exec_sw rt b imm s).trans (State.storeAt_ok ha ok), writesGpr_of (load _),
    writesFpr_of (.inl rfl) (load _), Memory.read_writeBytes_bytesOf wf a .word (s.readGpr rt)⟩

end Sys2Proof.Machine
end

section
/-!
30_encoding.md R119: the encoder and the decoder undo one another. A word is built from fields exactly when those are
its fields, so each arm of the decoder answers an instruction whose encoding is the word the arm reads.
-/

namespace Sys2Proof
open Laws

/-- The ill-formed `sll` has the fields that the decoder tests for nop (R111). -/
theorem sll_wf_iff {rd rt sh : BitVec 5} :
    (Instr.sll rd rt sh).wf = true ↔ (rt == 0#5 && rd == 0#5 && sh == 0#5) = false := by
  rw [Instr.wf, Bool.and_comm (rd == 0#5), Bool.not_eq_true']

@[simp] theorem whenZero_true (i : Instr) : whenZero true i = some i := rfl

@[simp] theorem whenZero_false (i : Instr) : whenZero false i = none := rfl

/-! A word is built from fields exactly when they are its fields (R102 to R107, R118). -/

section
variable {w : Word} {op fn : BitVec 6} {rs rt rd sh fmt ft fs fd : BitVec 5}

theorem encR_eq_iff : encR rs rt rd sh fn = w ↔
    opcodeOf w = 0x00#6 ∧ rsOf w = rs ∧ rtOf w = rt ∧ rdOf w = rd ∧ shamtOf w = sh ∧ functOf w = fn := by
  constructor
  · rintro rfl; simp
  · rintro ⟨op, rfl, rfl, rfl, rfl, rfl⟩; exact encR_fields w op

theorem encI_eq_iff {imm : Imm16} :
    encI op rs rt imm = w ↔ opcodeOf w = op ∧ rsOf w = rs ∧ rtOf w = rt ∧ imm16Of w = imm := by
  constructor
  · rintro rfl; simp
  · rintro ⟨rfl, rfl, rfl, rfl⟩; exact encI_fields w

theorem encJ_eq_iff {target : BitVec 26} : encJ op target = w ↔ opcodeOf w = op ∧ target26Of w = target := by
  constructor
  · rintro rfl; simp
  · rintro ⟨rfl, rfl⟩; exact encJ_fields w

theorem encFR_eq_iff : encFR fmt ft fs fd fn = w ↔
    opcodeOf w = 0x11#6 ∧ rsOf w = fmt ∧ rtOf w = ft ∧ rdOf w = fs ∧ shamtOf w = fd ∧ functOf w = fn := by
  constructor
  · rintro rfl; simp
  · rintro ⟨op, rfl, rfl, rfl, rfl, rfl⟩; exact encFR_fields w op

theorem encCode_eq_iff {code : BitVec 20} :
    encCode code fn = w ↔ opcodeOf w = 0x00#6 ∧ codeOf w = code ∧ functOf w = fn := by
  constructor
  · rintro rfl; simp
  · rintro ⟨op, rfl, rfl⟩; exact encCode_fields w op

/-- The word of nop is that of an R format with every field zero (R111). -/
theorem zero_eq_encR : 0#32 = encR 0#5 0#5 0#5 0#5 0x00#6 := by decide

/-! Which part of the decoder reads a word (R113 to R116). -/

theorem decodeOpcode_special (h : opcodeOf w = 0x00#6) : decodeOpcode w = decodeSpecial w := if_pos h

theorem decodeOpcode_regimm (h : opcodeOf w = 0x01#6) : decodeOpcode w = decodeRegimm w := by
  simp [decodeOpcode, h]

theorem decodeOpcode_cop1 (h : opcodeOf w = 0x11#6) : decodeOpcode w = decodeCop1 w := by
  simp [decodeOpcode, h]

theorem decodeOpcode_single (op : opcodeOf w = 0x11#6) (fmt : rsOf w = 0x10#5) : decodeOpcode w = decodeSingle w := by
  rw [decodeOpcode_cop1 op, decodeCop1, fmt]
  rfl

end

/-- Settles O1: the part of the decoder for the instruction's format finds its code, zeros where it must, and its fields. -/
theorem decodeOfEncode : Obligations.DecodeOfEncode := by
  intro i wf
  rw [decode_ok]
  cases i
  case sll => simp [encode, decodeOpcode_special, decodeSpecial, sll_wf_iff.1 wf]
  case nop => decide
  case add | addu | sub | subu | and | or | xor | nor | slt | sltu | srl | sra | sllv | srlv | srav | mult | multu
      | div | divu | mfhi | mflo | mthi | mtlo | jr | jalr | syscall | brk =>
    simp [encode, decodeOpcode_special, decodeSpecial]
  case bltz | bgez => simp [encode, decodeOpcode_regimm, decodeRegimm]
  case bc1t | bc1f | cvtSW => simp [encode, decodeOpcode_cop1, decodeCop1]
  case addS | subS | mulS | divS | absS | negS | movS | cvtWS | cEqS | cLtS | cLeS =>
    simp [encode, decodeOpcode_single, decodeSingle]
  case addi | addiu | slti | sltiu | andi | ori | xori | lui | lw | lh | lhu | lb | lbu | sw | sh | sb | lwc1 | swc1
      | beq | bne | blez | bgtz | j | jal =>
    simp [encode, decodeOpcode]

/-! The way back, arm by arm of the decoder. -/

/-- Whatever instruction a part of the decoder answers for `w` is well-formed and has `w` for its word. -/
def Reencodes (w : Word) (answer : Option Instr) : Prop :=
  ∀ i, answer = some i → encode i = w ∧ i.wf = true

section
variable {w : Word} {i : Instr}

@[simp] theorem reencodes_none : Reencodes w none := nofun

@[simp] theorem reencodes_some : Reencodes w (some i) ↔ encode i = w ∧ i.wf = true := by simp [Reencodes]

@[simp] theorem reencodes_whenZero {z : Bool} :
    Reencodes w (whenZero z i) ↔ (z = true → encode i = w ∧ i.wf = true) := by
  cases z <;> simp

/-- One arm: its code is the word's, and for the arms after it the code is not. -/
theorem reencodes_ite {c : Prop} [Decidable c] {a b : Option Instr} (ha : c → Reencodes w a)
    (hb : ¬c → Reencodes w b) : Reencodes w (if c then a else b) := by
  split
  · exact ha ‹_›
  · exact hb ‹_›

/-- The funct of both `sll` and nop stands first; what is not nop there is a well-formed `sll` (R111). -/
theorem reencodes_special (op : opcodeOf w = 0x00#6) : Reencodes w (decodeSpecial w) := by
  refine reencodes_ite (fun fn => reencodes_ite (fun zero => ?_) (fun nonzero => ?_)) (fun _ => ?_)
  · simp_all [encode, zero_eq_encR, encR_eq_iff, Instr.wf]
  · have wf := sll_wf_iff.2 (Bool.eq_false_of_not_eq_true nonzero)
    simp_all [encode, encR_eq_iff]
  · repeat' with_reducible refine reencodes_ite (fun _ => ?_) (fun _ => ?_)
    all_goals simp_all [encode, encR_eq_iff, encCode_eq_iff, Instr.wf]

theorem reencodes_regimm (op : opcodeOf w = 0x01#6) : Reencodes w (decodeRegimm w) := by
  refine reencodes_ite (fun _ => ?_) (fun _ => reencodes_ite (fun _ => ?_) (fun _ => reencodes_none))
  all_goals simp_all [encode, encI_eq_iff, Instr.wf]

theorem reencodes_single (op : opcodeOf w = 0x11#6) (fmt : rsOf w = 0x10#5) : Reencodes w (decodeSingle w) := by
  rw [decodeSingle]
  repeat' with_reducible refine reencodes_ite (fun _ => ?_) (fun _ => ?_)
  all_goals simp_all [encode, encFR_eq_iff, Instr.wf]

theorem reencodes_cop1 (op : opcodeOf w = 0x11#6) : Reencodes w (decodeCop1 w) := by
  rw [decodeCop1]
  repeat' with_reducible refine reencodes_ite (fun _ => ?_) (fun _ => ?_)
  all_goals simp_all [reencodes_single, encode, encI_eq_iff, encFR_eq_iff, Instr.wf]

theorem reencodes_opcode (w : Word) : Reencodes w (decodeOpcode w) := by
  rw [decodeOpcode]
  repeat' with_reducible refine reencodes_ite (fun _ => ?_) (fun _ => ?_)
  all_goals simp_all [reencodes_special, reencodes_regimm, reencodes_cop1, encode, encI_eq_iff, encJ_eq_iff, Instr.wf]

end

/-- Settles O2: the decoder's answer is that of one arm, whose code and tested fields are the encoder's. -/
theorem encodeOfDecode : Obligations.EncodeOfDecode :=
  fun w i h => reencodes_opcode w i (decode_ok.1 h)

end Sys2Proof
end

section
/-!
30_encoding.md R113 to R118: the rejected words. An arm of the decoder answers nothing if its code is not the word's, or if
a field that it tests is set.
-/

namespace Sys2Proof

section
variable {n : Nat} {field code : BitVec n} {l : List Nat}

theorem ne_of_toNat_mem (h : field.toNat ∈ l) (other : code.toNat ∉ l) : field ≠ code := fun e => other (e ▸ h)

theorem ne_of_toNat_notMem (h : field.toNat ∉ l) (supported : code.toNat ∈ l) : field ≠ code :=
  fun e => h (e ▸ supported)

end

section
variable {w : Word}

theorem decode_rejects (h : decodeOpcode w = none) : decode w = .error (.invalidInstruction w) := by
  rw [decode, h]

theorem decode_rejects_special (op : opcodeOf w = 0x00#6) (h : decodeSpecial w = none) :
    decode w = .error (.invalidInstruction w) :=
  decode_rejects ((decodeOpcode_special op).trans h)

theorem decode_rejects_regimm (op : opcodeOf w = 0x01#6) (h : decodeRegimm w = none) :
    decode w = .error (.invalidInstruction w) :=
  decode_rejects ((decodeOpcode_regimm op).trans h)

theorem decode_rejects_cop1 (op : opcodeOf w = 0x11#6) (h : decodeCop1 w = none) :
    decode w = .error (.invalidInstruction w) :=
  decode_rejects ((decodeOpcode_cop1 op).trans h)

theorem decode_rejects_single (op : opcodeOf w = 0x11#6) (fmt : rsOf w = 0x10#5) (h : decodeSingle w = none) :
    decode w = .error (.invalidInstruction w) :=
  decode_rejects ((decodeOpcode_single op fmt).trans h)

end

/-- Settles O4: a code outside its list meets no arm, and the arms that a code in the list can meet test the set field. -/
theorem unsupportedWordsRejected : Obligations.UnsupportedWordsRejected := by
  intro w
  refine ⟨?opcode, ?funct, ?selector, ?format, ?branch, ?single, ?word, ?shamt, ?rs, ?rt, ?rd, ?lui, ?zeroBranch,
    ?singleFt, ?wordFt, ?compare⟩
  case opcode => exact fun other => decode_rejects (by simp [decodeOpcode, ne_of_toNat_notMem other])
  case funct => exact fun op other => decode_rejects_special op (by simp [decodeSpecial, ne_of_toNat_notMem other])
  case selector => exact fun op other => decode_rejects_regimm op (by simp [decodeRegimm, ne_of_toNat_notMem other])
  case format => exact fun op other => decode_rejects_cop1 op (by simp [decodeCop1, ne_of_toNat_notMem other])
  case branch =>
    exact fun op fmt other => decode_rejects_cop1 op (by simp [decodeCop1, fmt, ne_of_toNat_notMem other])
  case single =>
    exact fun op fmt other => decode_rejects_single op fmt (by simp [decodeSingle, ne_of_toNat_notMem other])
  case word => exact fun op fmt other => decode_rejects_cop1 op (by simp [decodeCop1, fmt, other])
  case shamt | rs | rt | rd =>
    exact fun op fn nonzero => decode_rejects_special op
      (by simp [decodeSpecial, beq_false_of_ne nonzero, ne_of_toNat_mem fn])
  case lui => exact fun op nonzero => decode_rejects (by simp [decodeOpcode, op, beq_false_of_ne nonzero])
  case zeroBranch =>
    rintro (op | op) nonzero
    · exact decode_rejects (by simp [decodeOpcode, op, beq_false_of_ne nonzero])
    · exact decode_rejects (by simp [decodeOpcode, op, beq_false_of_ne nonzero])
  case singleFt | compare =>
    exact fun op fmt fn nonzero => decode_rejects_single op fmt
      (by simp [decodeSingle, beq_false_of_ne nonzero, ne_of_toNat_mem fn])
  case wordFt => exact fun op fmt nonzero => decode_rejects_cop1 op (by simp [decodeCop1, fmt, beq_false_of_ne nonzero])

end Sys2Proof
end

section
/-!
30_encoding.md: the words the spec writes out for its instructions.
-/

namespace Sys2Proof

theorem decode_of_encode {w : Word} {i : Instr} (word : encode i = w) (wf : i.wf = true) : decode w = .ok i :=
  word ▸ decodeOfEncode i wf

/-- Settles O3: each word is the encoding of its instruction, and 0xFFFFFFFF has an opcode outside the primary map. -/
theorem exampleWordsDecode : Obligations.ExampleWordsDecode :=
  ⟨decode_of_encode rfl rfl, decode_of_encode rfl rfl, decode_of_encode rfl rfl, decode_of_encode rfl rfl,
    decode_of_encode rfl rfl, decode_of_encode rfl rfl, decode_of_encode rfl rfl, decode_of_encode rfl rfl,
    decode_of_encode rfl rfl, decode_of_encode rfl rfl, decode_of_encode rfl rfl,
    (unsupportedWordsRejected 0xFFFFFFFF#32).1 (by decide)⟩

end Sys2Proof
end

section
/-!
40_integer_alu.md R140 to R165, 42_loadstore.md R209: the integer ALU instructions. Each ends in `State.finishGpr` or
`State.finishTrapping`; what is left is the value of the word it hands on.
-/

namespace Sys2Proof.Machine

/-! Immediates and shift amounts as numbers (30_encoding.md R109; R162). -/

theorem toInt_sextImm (imm : Imm16) : (sextImm imm).toInt = imm.toInt :=
  BitVec.toInt_signExtend_of_le (by decide)

theorem toNat_sextImm (imm : Imm16) : ((sextImm imm).toNat : Int) = imm.toInt % 2 ^ 32 := by
  rw [sextImm, BitVec.signExtend, BitVec.toNat_ofInt]
  omega

theorem getLsbD_zextImm (imm : Imm16) {k : Nat} (h : k < 32) :
    (zextImm imm).getLsbD k = (decide (k < 16) && imm.getLsbD k) := by
  rw [zextImm, BitVec.getLsbD_setWidth, decide_eq_true h, Bool.true_and]
  by_cases low : k < 16
  · rw [decide_eq_true low, Bool.true_and]
  · rw [decide_eq_false low, Bool.false_and, BitVec.getLsbD_of_ge imm k (by omega)]

theorem toNat_luiImm (imm : Imm16) : (luiImm imm).toNat = imm.toNat * 2 ^ 16 := by
  rw [luiImm, Laws.toNat_append, BitVec.toNat_zero, Nat.add_zero]

theorem shiftAmount_eq (v : Word) : shiftAmount v = v.toNat % 32 := by
  show _ = v.toNat % 2 ^ 5
  rw [shiftAmount, Laws.toNat_extract, pow_zero, Nat.div_one]

/-! Wrapping results and shifts as numbers (R143, R145, R153, R159 to R161). -/

section
variable (a b : Word) (imm : Imm16) (n : Nat)

theorem toNat_sub_wraps : ((a - b).toNat : Int) = (a.toNat - b.toNat) % 2 ^ 32 := by
  have := b.isLt
  rw [BitVec.toNat_sub]
  omega

theorem toNat_add_sextImm : ((a + sextImm imm).toNat : Int) = (a.toNat + imm.toInt) % 2 ^ 32 := by
  have := toNat_sextImm imm
  rw [BitVec.toNat_add]
  omega

theorem toNat_shiftLeft_eq_mul : (a <<< n).toNat = a.toNat * 2 ^ n % 2 ^ 32 := by
  rw [BitVec.toNat_shiftLeft, Nat.shiftLeft_eq]

theorem toNat_ushiftRight_eq_div : (a >>> n).toNat = a.toNat / 2 ^ n := by
  rw [BitVec.toNat_ushiftRight, Nat.shiftRight_eq_div_pow]

theorem toInt_sshiftRight_eq_div : (a.sshiftRight n).toInt = a.toInt / 2 ^ n := by
  rw [BitVec.toInt_sshiftRight, Int.shiftRight_eq_div_pow, Nat.cast_pow, Nat.cast_ofNat]

end

/-! The two endings that depend on a test (R141, R150). -/

section
variable {s : State} {i : Instr} {r : RegIdx}

/-- A trapping instruction delivers its exact result where that fits, and faults everywhere else. -/
theorem outcomes_of_finishTrapping {exact : Int} (e : exec i s = s.finishTrapping r exact) (n : Int) (hn : n = exact) :
    (-2 ^ 31 ≤ n ∧ n ≤ 2 ^ 31 - 1 → WritesGpr s i r (BitVec.ofInt 32 n)) ∧
      (n < -2 ^ 31 ∨ 2 ^ 31 - 1 < n → Faults s i .arithmeticOverflow) := by
  subst hn
  exact ⟨fun fits => writesGpr_of (e.trans (s.finishTrapping_fits r fits)),
    fun overflows => faults_of (e.trans (s.finishTrapping_overflows r overflows))⟩

/-- A comparison writes 1 where it holds, and 0 everywhere else. -/
theorem outcomes_of_boolWord {p : Prop} [Decidable p] (e : exec i s = s.finishGpr r (boolWord (decide p))) :
    (p → WritesGpr s i r 1#32) ∧ (¬p → WritesGpr s i r 0#32) := by
  refine ⟨fun holds => writesGpr_of ?_, fun fails => writesGpr_of ?_⟩
  · rw [e, decide_eq_true holds]; rfl
  · rw [e, decide_eq_false fails]; rfl

end

/-! The ending of each instruction (R142 to R164). -/

section
variable {rd rs rt : RegIdx} {imm : Imm16} {shamt : BitVec 5} {s : State}

theorem exec_add : exec (.add rd rs rt) s = s.finishTrapping rd ((s.readGpr rs).toInt + (s.readGpr rt).toInt) := rfl
theorem exec_sub : exec (.sub rd rs rt) s = s.finishTrapping rd ((s.readGpr rs).toInt - (s.readGpr rt).toInt) := rfl
theorem exec_addi : exec (.addi rt rs imm) s = s.finishTrapping rt ((s.readGpr rs).toInt + imm.toInt) := rfl

theorem exec_addu : exec (.addu rd rs rt) s = s.finishGpr rd (s.readGpr rs + s.readGpr rt) := rfl
theorem exec_subu : exec (.subu rd rs rt) s = s.finishGpr rd (s.readGpr rs - s.readGpr rt) := rfl
theorem exec_addiu : exec (.addiu rt rs imm) s = s.finishGpr rt (s.readGpr rs + sextImm imm) := rfl

theorem exec_and : exec (.and rd rs rt) s = s.finishGpr rd (s.readGpr rs &&& s.readGpr rt) := rfl
theorem exec_or : exec (.or rd rs rt) s = s.finishGpr rd (s.readGpr rs ||| s.readGpr rt) := rfl
theorem exec_xor : exec (.xor rd rs rt) s = s.finishGpr rd (s.readGpr rs ^^^ s.readGpr rt) := rfl
theorem exec_nor : exec (.nor rd rs rt) s = s.finishGpr rd (~~~(s.readGpr rs ||| s.readGpr rt)) := rfl
theorem exec_andi : exec (.andi rt rs imm) s = s.finishGpr rt (s.readGpr rs &&& zextImm imm) := rfl
theorem exec_ori : exec (.ori rt rs imm) s = s.finishGpr rt (s.readGpr rs ||| zextImm imm) := rfl
theorem exec_xori : exec (.xori rt rs imm) s = s.finishGpr rt (s.readGpr rs ^^^ zextImm imm) := rfl
theorem exec_lui : exec (.lui rt imm) s = s.finishGpr rt (luiImm imm) := rfl

theorem exec_slt :
    exec (.slt rd rs rt) s = s.finishGpr rd (boolWord (decide ((s.readGpr rs).toInt < (s.readGpr rt).toInt))) := rfl
theorem exec_sltu :
    exec (.sltu rd rs rt) s = s.finishGpr rd (boolWord (decide ((s.readGpr rs).toNat < (s.readGpr rt).toNat))) := rfl
theorem exec_slti :
    exec (.slti rt rs imm) s = s.finishGpr rt (boolWord (decide ((s.readGpr rs).toInt < imm.toInt))) := by
  rw [← toInt_sextImm]; rfl
theorem exec_sltiu :
    exec (.sltiu rt rs imm) s =
      s.finishGpr rt (boolWord (decide (((s.readGpr rs).toNat : Int) < imm.toInt % 2 ^ 32))) := by
  simp only [← toNat_sextImm, Int.ofNat_lt]; rfl

theorem exec_sll : exec (.sll rd rt shamt) s = s.finishGpr rd (s.readGpr rt <<< shamt.toNat) := rfl
theorem exec_srl : exec (.srl rd rt shamt) s = s.finishGpr rd (s.readGpr rt >>> shamt.toNat) := rfl
theorem exec_sra : exec (.sra rd rt shamt) s = s.finishGpr rd ((s.readGpr rt).sshiftRight shamt.toNat) := rfl

theorem exec_sllv :
    exec (.sllv rd rt rs) s = s.finishGpr rd (s.readGpr rt <<< ((s.readGpr rs).toNat % 32)) := by
  rw [← shiftAmount_eq]; rfl
theorem exec_srlv :
    exec (.srlv rd rt rs) s = s.finishGpr rd (s.readGpr rt >>> ((s.readGpr rs).toNat % 32)) := by
  rw [← shiftAmount_eq]; rfl
theorem exec_srav :
    exec (.srav rd rt rs) s = s.finishGpr rd ((s.readGpr rt).sshiftRight ((s.readGpr rs).toNat % 32)) := by
  rw [← shiftAmount_eq]; rfl

end

/-- Settles O16: both end in `State.finishTrapping` on the exact signed result. -/
theorem addAndSubtract : Obligations.AddAndSubtract :=
  fun _ _ _ _ => ⟨rfl, rfl, outcomes_of_finishTrapping exec_add, outcomes_of_finishTrapping exec_sub⟩

/-- Settles O17: `addi` ends like `add`; `addiu` adds the sign extension, which is the signed immediate modulo 2^32. -/
theorem addImmediate : Obligations.AddImmediate :=
  fun _ _ _ _ => ⟨outcomes_of_finishTrapping exec_addi, _, toNat_add_sextImm _ _, writesGpr_of exec_addiu⟩

/-- Settles O18. -/
theorem wrappingAddAndSubtract : Obligations.WrappingAddAndSubtract :=
  fun _ _ _ _ => ⟨rfl, rfl, ⟨_, BitVec.toNat_add _ _, writesGpr_of exec_addu⟩,
    ⟨_, toNat_sub_wraps _ _, writesGpr_of exec_subu⟩⟩

/-- Settles O19: each word operation is its bit operation on each of the 32 bits. -/
theorem bitwiseLogic : Obligations.BitwiseLogic := by
  intro s rd rs rt
  refine ⟨rfl, rfl, rfl, rfl, ⟨_, fun k _ => BitVec.getLsbD_and, writesGpr_of exec_and⟩,
    ⟨_, fun k _ => BitVec.getLsbD_or, writesGpr_of exec_or⟩, ⟨_, fun k _ => BitVec.getLsbD_xor, writesGpr_of exec_xor⟩,
    ⟨_, fun k h => ?_, writesGpr_of exec_nor⟩⟩
  rw [BitVec.getLsbD_not, decide_eq_true h, Bool.true_and, BitVec.getLsbD_or]

/-- Settles O20: the bits of the zero-extended immediate are `getLsbD_zextImm`, and `lui` appends 16 zeros. -/
theorem logicalImmediates : Obligations.LogicalImmediates := by
  intro s rt rs imm
  refine ⟨⟨_, fun k h => ?_, writesGpr_of exec_andi⟩, ⟨_, fun k h => ?_, writesGpr_of exec_ori⟩,
    ⟨_, fun k h => ?_, writesGpr_of exec_xori⟩, ⟨_, toNat_luiImm imm, writesGpr_of exec_lui⟩⟩
  · rw [BitVec.getLsbD_and, getLsbD_zextImm imm h]
  · rw [BitVec.getLsbD_or, getLsbD_zextImm imm h]
  · rw [BitVec.getLsbD_xor, getLsbD_zextImm imm h]

/-- Settles O21. -/
theorem setOnLessThan : Obligations.SetOnLessThan := by
  intro s rd rs rt
  obtain ⟨less, notLess⟩ := outcomes_of_boolWord (exec_slt : exec (.slt rd rs rt) s = _)
  exact ⟨rfl, rfl, less, notLess, outcomes_of_boolWord exec_sltu⟩

/-- Settles O22: the sign extension is the immediate itself read as signed, and its residue modulo 2^32 as unsigned. -/
theorem setOnLessThanImmediate : Obligations.SetOnLessThanImmediate := by
  intro s rt rs imm
  obtain ⟨less, notLess⟩ := outcomes_of_boolWord (exec_slti : exec (.slti rt rs imm) s = _)
  refine ⟨less, notLess, ?_⟩
  rintro _ rfl
  exact outcomes_of_boolWord exec_sltiu

/-- Settles O23. -/
theorem shiftLeftAndArithmeticRight : Obligations.ShiftLeftAndArithmeticRight :=
  fun _ _ _ _ => ⟨rfl, rfl, ⟨_, toNat_shiftLeft_eq_mul _ _, writesGpr_of exec_sll⟩,
    ⟨_, toInt_sshiftRight_eq_div _ _, writesGpr_of exec_sra⟩⟩

/-- Settles O24: the low five bits of `x[rs]` are its residue modulo 32 (`shiftAmount_eq`). -/
theorem logicalRightAndVariableShifts : Obligations.LogicalRightAndVariableShifts :=
  fun _ _ _ _ _ => ⟨⟨_, toNat_ushiftRight_eq_div _ _, writesGpr_of exec_srl⟩,
    ⟨_, toNat_shiftLeft_eq_mul _ _, writesGpr_of exec_sllv⟩,
    ⟨_, toNat_ushiftRight_eq_div _ _, writesGpr_of exec_srlv⟩,
    ⟨_, toInt_sshiftRight_eq_div _ _, writesGpr_of exec_srav⟩⟩

end Sys2Proof.Machine
end

section
/-!
41_muldiv.md R180 to R188: multiply, divide and the HI and LO moves. The completing ones end in `State.finishHiLo`, the
reads of HI and LO in `State.finishGpr`; the results of `div` and `divu` are the word operations `sdiv` and `srem`, `/`
and `%` of the library.
-/

namespace Sys2Proof.Machine

/-! Products, quotients and remainders of words as numbers (R181 to R184). -/

section
variable (a b : Word)

theorem toInt_ofInt_mul : (BitVec.ofInt 64 (a.toInt * b.toInt)).toInt = a.toInt * b.toInt :=
  BitVec.toInt_ofInt_eq_self (by decide) (le_trans (by decide) BitVec.le_toInt_mul_toInt)
    (lt_of_le_of_lt BitVec.toInt_mul_toInt_le (by decide))

theorem toNat_ofNat_mul : (BitVec.ofNat 64 (a.toNat * b.toNat)).toNat = a.toNat * b.toNat := by
  rw [BitVec.toNat_ofNat, Nat.mod_eq_of_lt BitVec.toNat_mul_toNat_lt]

theorem ofInt_tdiv : BitVec.ofInt 32 (a.toInt.tdiv b.toInt) = a.sdiv b :=
  BitVec.eq_of_toInt_eq (by rw [BitVec.toInt_ofInt, BitVec.toInt_sdiv])

theorem ofInt_sub_tdiv_mul : BitVec.ofInt 32 (a.toInt - a.toInt.tdiv b.toInt * b.toInt) = a.srem b := by
  rw [mul_comm, ← Int.tmod_def, ← BitVec.toInt_srem, BitVec.ofInt_toInt]

/-- The quotient overflows in one case alone, which in words is the least word over the word -1. -/
theorem toInt_sdiv_of_fits (fits : ¬(a.toInt = -2 ^ 31 ∧ b.toInt = -1)) : (a.sdiv b).toInt = a.toInt.tdiv b.toInt := by
  refine BitVec.toInt_sdiv_of_ne_or_ne a b (not_and_or.1 fun overflows => fits ?_)
  obtain ⟨rfl, rfl⟩ := overflows
  decide

end

theorem tmod_eq_zero_or_neg_iff (n d : Int) : n.tmod d = 0 ∨ (n.tmod d < 0 ↔ n < 0) := by
  by_cases divides : d ∣ n
  · exact .inl (Int.tmod_eq_zero_of_dvd divides)
  · right
    rw [← Int.sign_eq_neg_one_iff_neg, Int.sign_tmod, if_neg divides, Int.sign_eq_neg_one_iff_neg]

/-! The ending of each instruction (R181 to R188). -/

section
variable {rd rs rt : RegIdx} {s : State}

theorem exec_mult :
    exec (.mult rs rt) s = s.finishProduct (BitVec.ofInt 64 ((s.readGpr rs).toInt * (s.readGpr rt).toInt)) := rfl
theorem exec_multu :
    exec (.multu rs rt) s = s.finishProduct (BitVec.ofNat 64 ((s.readGpr rs).toNat * (s.readGpr rt).toNat)) := rfl

theorem exec_div_zero (zero : (s.readGpr rt).toInt = 0) : exec (.div rs rt) s = .next (s.raise .divisionByZero) :=
  if_pos zero
theorem exec_div_overflow (overflows : (s.readGpr rs).toInt = -2 ^ 31 ∧ (s.readGpr rt).toInt = -1) :
    exec (.div rs rt) s = .next s.drawHiLo.advance :=
  (if_neg (by omega)).trans (if_pos overflows)
theorem exec_div_fits (nonzero : (s.readGpr rt).toInt ≠ 0)
    (fits : ¬((s.readGpr rs).toInt = -2 ^ 31 ∧ (s.readGpr rt).toInt = -1)) :
    exec (.div rs rt) s =
      s.finishHiLo ((s.readGpr rs).srem (s.readGpr rt)) ((s.readGpr rs).sdiv (s.readGpr rt)) := by
  rw [← ofInt_sub_tdiv_mul, ← ofInt_tdiv]
  exact (if_neg nonzero).trans (if_neg fits)

theorem exec_divu_zero (zero : (s.readGpr rt).toNat = 0) : exec (.divu rs rt) s = .next (s.raise .divisionByZero) :=
  if_pos zero
theorem exec_divu_nonzero (nonzero : (s.readGpr rt).toNat ≠ 0) :
    exec (.divu rs rt) s = s.finishHiLo (s.readGpr rs % s.readGpr rt) (s.readGpr rs / s.readGpr rt) := by
  rw [BitVec.umod_def, BitVec.udiv_def]
  exact if_neg nonzero

theorem exec_mfhi : exec (.mfhi rd) s = s.finishGpr rd s.hi := rfl
theorem exec_mflo : exec (.mflo rd) s = s.finishGpr rd s.lo := rfl
theorem exec_mthi : exec (.mthi rs) s = s.finishHiLo (s.readGpr rs) s.lo := rfl
theorem exec_mtlo : exec (.mtlo rs) s = s.finishHiLo s.hi (s.readGpr rs) := rfl

end

/-! The two endings that only multiply and divide have (R181 to R183). -/

section
variable {s : State} {i : Instr}

/-- HI and LO together are the product that was split over them. -/
theorem writesHiLo_of_finishProduct {p : BitVec 64} (e : exec i s = s.finishProduct p) :
    ∃ h l : Word, (h ++ l : BitVec 64) = p ∧ WritesHiLo s i h l :=
  ⟨_, _, BitVec.extractLsb'_append_extractLsb', writesHiLo_of e⟩

/-- The draws are no part of what `OnlyHiLo` compares: the free values of notes/assumptions/10.md count as any two words
written to HI and LO. -/
theorem writesHiLo_of_drawHiLo (e : exec i s = .next s.drawHiLo.advance) : WritesHiLo s i s.draw s.drawn.draw :=
  ⟨_, e, rfl, rfl, rfl,
    { gprs := fun _ => rfl, fprs := fun _ => rfl, fcc := rfl, memory := fun _ => rfl,
      rest := ⟨rfl, rfl, rfl, rfl, rfl, rfl, rfl⟩ }⟩

end

/-- Settles O25: the product of two words fits in 64 bits, signed and unsigned. -/
theorem multiply : Obligations.Multiply := by
  intro s rs rt
  obtain ⟨h, l, signed, mult⟩ := writesHiLo_of_finishProduct (exec_mult (rs := rs) (rt := rt) (s := s))
  obtain ⟨hu, lu, unsigned, multu⟩ := writesHiLo_of_finishProduct (exec_multu (rs := rs) (rt := rt) (s := s))
  refine ⟨rfl, rfl, ⟨h, l, ?_, mult⟩, ⟨hu, lu, ?_, multu⟩⟩
  · rw [signed, toInt_ofInt_mul]
  · rw [unsigned, toNat_ofNat_mul]

/-- Settles O26: `sdiv` and `srem` read signed are `Int.tdiv` and `Int.tmod`, whose laws these are. -/
theorem divide : Obligations.Divide := by
  intro s rs rt
  refine ⟨fun nonzero fits => ⟨_, _, ?_, ?_, ?_, writesHiLo_of (exec_div_fits nonzero fits)⟩,
    fun nonzero => ⟨_, _, ?_, ?_, writesHiLo_of (exec_divu_nonzero nonzero)⟩⟩
  · rw [toInt_sdiv_of_fits _ _ fits, BitVec.toInt_srem, Int.tdiv_mul_add_tmod]
  · rw [BitVec.toInt_srem, Int.natAbs_tmod]
    exact Nat.mod_lt _ (Int.natAbs_pos.2 nonzero)
  · rw [BitVec.toInt_srem]
    exact tmod_eq_zero_or_neg_iff _ _
  · rw [BitVec.toNat_udiv, BitVec.toNat_umod, Nat.div_add_mod']
  · exact Nat.mod_lt _ (Nat.pos_of_ne_zero nonzero)

/-- Settles O27: a zero divisor raises in both, and the one quotient that overflows leaves two draws in HI and LO. -/
theorem divisionCorners : Obligations.DivisionCorners := by
  intro s rs rt
  refine ⟨fun zero => ⟨faults_of (exec_div_zero (congrArg BitVec.toInt zero)),
    faults_of (exec_divu_zero (congrArg BitVec.toNat zero))⟩, fun least minusOne => ?_⟩
  exact ⟨_, _, writesHiLo_of_drawHiLo
    (exec_div_overflow ⟨congrArg BitVec.toInt least, congrArg BitVec.toInt minusOne⟩)⟩

/-- Settles O28. -/
theorem hiLoMoves : Obligations.HiLoMoves :=
  fun _ _ => ⟨rfl, rfl, rfl, rfl, writesGpr_of exec_mfhi, writesGpr_of exec_mflo, writesHiLo_of exec_mthi,
    writesHiLo_of exec_mtlo⟩

end Sys2Proof.Machine
end

section
/-!
20_memory.md R61, R66; 42_loadstore.md R200 to R205, R210: the five integer loads and `lwc1`, by their shared part
`State.loadAt`: the number they hand on and their faults.
-/

namespace Sys2Proof.Machine

/-! The loaded pattern and its sign extensions as numbers (20_memory.md R61; 42_loadstore.md R202, R204). -/

/-- The zero-extended pattern of a load is the little-endian natural of its bytes, at every width. -/
theorem Memory.toNat_load (m : List Host.Cell) (a : Nat) (w : Width) :
    (Memory.load m a w).toNat = Memory.littleEndian m a w.bytes := by
  cases w with
  | byte =>
    simp only [Memory.load, Width.bytes, Memory.littleEndian, BitVec.truncate_eq_setWidth,
      BitVec.toNat_setWidth_of_le (show 8 ≤ 32 by decide), Nat.mul_zero, Nat.add_zero]
  | half =>
    simp only [Memory.load, Width.bytes, Memory.littleEndian, BitVec.truncate_eq_setWidth,
      BitVec.toNat_setWidth_of_le (show 16 ≤ 32 by decide), Laws.toNat_append]
    omega
  | word =>
    simp only [Memory.load, Width.bytes, Memory.littleEndian, wordOfBytes, Laws.toNat_append]
    simp only [Nat.add_assoc, Nat.reduceAdd]
    omega

theorem toInt_sextHalf (v : Word) : (sextHalf v).toInt = (BitVec.ofNat 16 v.toNat).toInt :=
  BitVec.toInt_signExtend_of_le (by decide)

theorem toInt_sextByte (v : Word) : (sextByte v).toInt = (BitVec.ofNat 8 v.toNat).toInt :=
  BitVec.toInt_signExtend_of_le (by decide)

theorem Memory.littleEndian_one (m : List Host.Cell) (a : Nat) : Memory.littleEndian m a 1 = (Memory.read m a).toNat :=
  rfl

theorem Memory.toInt_sextHalf_load (m : List Host.Cell) (a : Nat) :
    (sextHalf (Memory.load m a .half)).toInt = (BitVec.ofNat 16 (Memory.littleEndian m a 2)).toInt := by
  rw [toInt_sextHalf, Memory.toNat_load, Width.bytes]

theorem Memory.toInt_sextByte_load (m : List Host.Cell) (a : Nat) :
    (sextByte (Memory.load m a .byte)).toInt = (Memory.read m a).toInt := by
  rw [toInt_sextByte, Memory.toNat_load, Width.bytes, Memory.littleEndian_one, BitVec.ofNat_toNat, BitVec.setWidth_eq]

/-! An instruction that is a load (42_loadstore.md R200). -/

section
variable {s : State} {i : Instr} {b : RegIdx} {imm : Imm16} {w : Width}

theorem accessFaults_of_loadAt {f : Word → Result} (e : exec i s = s.loadAt b imm w f) :
    AccessFaults s i (s.readGpr b) imm w.bytes :=
  ⟨fun none => faults_of (e.trans (State.loadAt_overflow none)),
    fun _ ha out => faults_of (e.trans (State.loadAt_fault ha (State.readFault_bounds out))),
    fun _ ha within odd => faults_of (e.trans (State.loadAt_fault ha (State.readFault_misaligned within odd)))⟩

variable {r : RegIdx} {a : Nat}

theorem writesGpr_of_loadAt {g : Word → Word} (e : exec i s = s.loadAt b imm w (fun v => s.finishGpr r (g v)))
    (ha : effAddr (s.readGpr b) imm = some a) (h : s.loadable a w.bytes) :
    WritesGpr s i r (g (Memory.load s.mem a w)) :=
  writesGpr_of (e.trans (State.loadAt_ok ha h))

theorem writesFpr_of_loadAt (e : exec i s = s.loadAt b imm w (s.finishFpr r))
    (ha : effAddr (s.readGpr b) imm = some a) (h : s.loadable a w.bytes) :
    WritesFpr s i r (Memory.load s.mem a w) :=
  writesFpr_of (.inl rfl) (e.trans (State.loadAt_ok ha h))

end

/-! The six loads. -/

section
variable (rt b : RegIdx) (imm : Imm16) (s : State)

theorem exec_lw : exec (.lw rt b imm) s = s.loadAt b imm .word (fun v => s.finishGpr rt v) := rfl
theorem exec_lh : exec (.lh rt b imm) s = s.loadAt b imm .half (fun v => s.finishGpr rt (sextHalf v)) := rfl
theorem exec_lhu : exec (.lhu rt b imm) s = s.loadAt b imm .half (fun v => s.finishGpr rt v) := rfl
theorem exec_lb : exec (.lb rt b imm) s = s.loadAt b imm .byte (fun v => s.finishGpr rt (sextByte v)) := rfl
theorem exec_lbu : exec (.lbu rt b imm) s = s.loadAt b imm .byte (fun v => s.finishGpr rt v) := rfl
theorem exec_lwc1 : exec (.lwc1 rt b imm) s = s.loadAt b imm .word (s.finishFpr rt) := rfl

end

/-- Settles O30: `lw` hands on the loaded pattern as it is. -/
theorem loadWord : Obligations.LoadWord := by
  intro s rt b imm
  have lw := exec_lw rt b imm s
  exact ⟨rfl, fun a ha ok => ⟨_, Memory.toNat_load s.mem a .word, writesGpr_of_loadAt lw ha ok⟩,
    accessFaults_of_loadAt lw⟩

/-- Settles O31: `lh` hands on the sign extension of the pattern that `lhu` hands on as it is. -/
theorem loadHalfword : Obligations.LoadHalfword := by
  intro s rt b imm
  have lh := exec_lh rt b imm s
  have lhu := exec_lhu rt b imm s
  refine ⟨rfl, rfl, fun a ha ok => ⟨?_, ?_⟩, accessFaults_of_loadAt lh, accessFaults_of_loadAt lhu⟩
  · exact ⟨_, Memory.toInt_sextHalf_load s.mem a, writesGpr_of_loadAt lh ha ok⟩
  · exact ⟨_, Memory.toNat_load s.mem a .half, writesGpr_of_loadAt lhu ha ok⟩

/-- Settles O32: a byte below MEM_SIZE is loadable, every address being a multiple of 1. -/
theorem loadByte : Obligations.LoadByte := by
  intro s rt b imm
  have lb := exec_lb rt b imm s
  have lbu := exec_lbu rt b imm s
  refine ⟨rfl, rfl, fun a ha below => ?_, accessFaults_of_loadAt lb, accessFaults_of_loadAt lbu⟩
  have ok : s.loadable a 1 := ⟨below, Nat.mod_one a⟩
  exact ⟨⟨_, Memory.toInt_sextByte_load s.mem a, writesGpr_of_loadAt lb ha ok⟩,
    ⟨_, Memory.toNat_load s.mem a .byte, writesGpr_of_loadAt lbu ha ok⟩⟩

/-- Settles O33: `lwc1` is `lw` but for its destination. -/
theorem loadFloat : Obligations.LoadFloat := by
  intro s ft b imm
  have lwc1 := exec_lwc1 ft b imm s
  exact ⟨fun a ha ok => ⟨_, Memory.toNat_load s.mem a .word, writesFpr_of_loadAt lwc1 ha ok⟩,
    accessFaults_of_loadAt lwc1⟩

end Sys2Proof.Machine
end

section
/-!
43_control.md R230 to R247: branches, jumps and links. Each instruction ends in `State.branch` or `State.transfer`; what is
left is the condition (`State.takes`) and the target as a number or as its three fields.
-/

namespace Sys2Proof.Machine

/-! The two computed targets (R233, R234). -/

theorem toNat_branchTarget (pc : Word) (imm : Imm16) :
    ((branchTarget pc imm).toNat : Int) = (pc.toNat + 4 + 4 * imm.toInt) % 2 ^ 32 := by
  have offset := toNat_sextImm imm
  rw [branchTarget, BitVec.toNat_add, BitVec.toNat_add, toNat_shiftLeft_eq_mul, BitVec.toNat_ofNat]
  omega

theorem getLsbD_jumpMask {k : Nat} (h : k < 32) : (0xF0000000#32).getLsbD k = decide (28 ≤ k) := by
  revert k
  decide

/-- Bit by bit: below 2 a zero, below 28 the target field, above that the bits the mask keeps. -/
theorem jumpTarget_eq_append (pc : Word) (target : BitVec 26) :
    jumpTarget pc target = (pc + 4#32).extractLsb' 28 4 ++ target ++ 0b00#2 := by
  refine BitVec.eq_of_getLsbD_eq fun k h => ?_
  rw [jumpTarget, BitVec.getLsbD_or, BitVec.getLsbD_and, getLsbD_jumpMask h, BitVec.getLsbD_shiftLeft,
    BitVec.getLsbD_append, BitVec.getLsbD_append, BitVec.getLsbD_extractLsb']
  by_cases zeros : k < 2
  · simp [zeros, show ¬28 ≤ k by omega]
  by_cases field : k < 28
  · simp [zeros, show ¬28 ≤ k by omega, show k - 2 < 26 by omega, show k - 2 < 32 by omega, h]
  · simp [zeros, show 28 ≤ k by omega, show ¬k - 2 < 26 by omega, show k - 2 - 26 < 4 by omega,
      show 28 + (k - 2 - 26) = k by omega, target.getLsbD_of_ge (k - 2) (by omega)]

/-! The target test and what follows it (R232, R235). -/

theorem State.targetOk_eq_false_iff (s : State) (t : Word) :
    s.targetOk t = false ↔ t.toNat % 4 ≠ 0 ∨ s.cfg.memSize < t.toNat + 4 := by
  rw [← Bool.not_eq_true, s.targetOk_iff, not_and_or, not_le]

theorem State.setGpr_setPc_onlyGpr (s : State) (r : RegIdx) (v a : Word) : OnlyGpr r s ((s.setGpr r v).setPc a) where
  gprs q hq := State.readGpr_setGpr_other s hq v
  fprs q := State.readFpr_setGpr s r q v
  hiLo := ⟨s.setGpr_hi r v, s.setGpr_lo r v⟩
  fcc := s.setGpr_fcc r v
  memory a := by rw [State.setPc_mem, State.setGpr_mem]
  rest := ⟨s.setGpr_cfg r v, s.setGpr_roArmed r v, s.setGpr_out r v, s.setGpr_inp r v, s.setGpr_status r v,
    s.setGpr_steps r v, s.setGpr_micro r v⟩

section
variable {s : State} {i : Instr} {t : Word}

theorem faults_of_transfer {l : State → State} (e : exec i s = s.transfer t l)
    (bad : t.toNat % 4 ≠ 0 ∨ s.cfg.memSize < t.toNat + 4) : Faults s i (.invalidBranchTarget t) :=
  faults_of (e.trans (State.transfer_fault ((s.targetOk_eq_false_iff t).2 bad)))

theorem goesTo_of_transfer (e : exec i s = s.transfer t id) (aligned : t.toNat % 4 = 0)
    (within : t.toNat + 4 ≤ s.cfg.memSize) : GoesTo s i t :=
  goesTo_of (e.trans (State.transfer_ok ((s.targetOk_iff t).2 ⟨aligned, within⟩)))

theorem branches_of_transfer (e : exec i s = s.transfer t id) : Branches s i True t :=
  ⟨fun _ => goesTo_of_transfer e, fun _ => faults_of_transfer e, fun never => absurd trivial never⟩

theorem branches_of_branch {imm : Imm16} {c : Prop} (e : exec i s = s.branch (s.takes i) imm)
    (takes : s.takes i = true ↔ c) : Branches s i c (branchTarget s.pc imm) := by
  have taken (hc : c) : exec i s = s.transfer (branchTarget s.pc imm) id :=
    e.trans (State.branch_taken (takes.2 hc))
  refine ⟨fun hc => goesTo_of_transfer (taken hc), fun hc => faults_of_transfer (taken hc), fun hc => ?_⟩
  exact goesTo_of (e.trans (State.branch_notTaken (Bool.eq_false_iff.2 (mt takes.1 hc))))

theorem links_of_transfer {r : RegIdx} (e : exec i s = s.transfer t (fun u => u.setGpr r (linkValue s.pc))) :
    Links s i r t := by
  refine ⟨fun aligned within => ?_, faults_of_transfer e⟩
  have good := e.trans (State.transfer_ok ((s.targetOk_iff t).2 ⟨aligned, within⟩))
  exact ⟨_, good, rfl, s.readGpr_setGpr_same r _, s.setGpr_setPc_onlyGpr r _ t⟩

end

/-! The condition of each branch (R236 to R241, R246, R247). -/

section
variable (s : State) (rs rt : RegIdx) (imm : Imm16)

theorem State.takes_beq : s.takes (.beq rs rt imm) = true ↔ s.readGpr rs = s.readGpr rt := beq_iff_eq
theorem State.takes_bne : s.takes (.bne rs rt imm) = true ↔ s.readGpr rs ≠ s.readGpr rt := bne_iff_ne
theorem State.takes_bgtz : s.takes (.bgtz rs imm) = true ↔ (s.readGpr rs).toInt > 0 := decide_eq_true_iff
theorem State.takes_bgez : s.takes (.bgez rs imm) = true ↔ (s.readGpr rs).toInt ≥ 0 := decide_eq_true_iff
theorem State.takes_bltz : s.takes (.bltz rs imm) = true ↔ (s.readGpr rs).toInt < 0 := decide_eq_true_iff
theorem State.takes_blez : s.takes (.blez rs imm) = true ↔ (s.readGpr rs).toInt ≤ 0 := decide_eq_true_iff
theorem State.takes_bc1t : s.takes (.bc1t imm) = true ↔ s.fcc = true := Iff.rfl
theorem State.takes_bc1f : s.takes (.bc1f imm) = true ↔ s.fcc = false := Iff.of_eq (Bool.not_eq_true' _)

end

/-! The ending of each instruction (R236 to R247). -/

section
variable {rd rs rt : RegIdx} {imm : Imm16} {target : BitVec 26} {s : State}

theorem exec_beq : exec (.beq rs rt imm) s = s.branch (s.takes (.beq rs rt imm)) imm := rfl
theorem exec_bne : exec (.bne rs rt imm) s = s.branch (s.takes (.bne rs rt imm)) imm := rfl
theorem exec_bgtz : exec (.bgtz rs imm) s = s.branch (s.takes (.bgtz rs imm)) imm := rfl
theorem exec_bgez : exec (.bgez rs imm) s = s.branch (s.takes (.bgez rs imm)) imm := rfl
theorem exec_bltz : exec (.bltz rs imm) s = s.branch (s.takes (.bltz rs imm)) imm := rfl
theorem exec_blez : exec (.blez rs imm) s = s.branch (s.takes (.blez rs imm)) imm := rfl
theorem exec_bc1t : exec (.bc1t imm) s = s.branch (s.takes (.bc1t imm)) imm := rfl
theorem exec_bc1f : exec (.bc1f imm) s = s.branch (s.takes (.bc1f imm)) imm := rfl

theorem exec_j : exec (.j target) s = s.transfer (jumpTarget s.pc target) id := rfl
theorem exec_jal :
    exec (.jal target) s = s.transfer (jumpTarget s.pc target) (fun u => u.setGpr 31#5 (linkValue s.pc)) := rfl
theorem exec_jr : exec (.jr rs) s = s.transfer (s.readGpr rs) id := rfl
theorem exec_jalr : exec (.jalr rd rs) s = s.transfer (s.readGpr rs) (fun u => u.setGpr rd (linkValue s.pc)) := rfl

end

/-- Settles O37: all six are `State.branch` to one target, on the condition that `State.takes` gives them. -/
theorem integerBranches : Obligations.IntegerBranches := by
  intro s rs rt imm
  refine ⟨rfl, rfl, rfl, rfl, rfl, rfl, branchTarget s.pc imm, toNat_branchTarget s.pc imm, ?_⟩
  exact ⟨branches_of_branch exec_beq (s.takes_beq rs rt imm), branches_of_branch exec_bne (s.takes_bne rs rt imm),
    branches_of_branch exec_bgtz (s.takes_bgtz rs imm), branches_of_branch exec_bgez (s.takes_bgez rs imm),
    branches_of_branch exec_bltz (s.takes_bltz rs imm), branches_of_branch exec_blez (s.takes_blez rs imm)⟩

/-- Settles O38: the same ending as the integer branches, on FCC and on its negation. -/
theorem conditionCodeBranches : Obligations.ConditionCodeBranches :=
  fun s imm => ⟨branchTarget s.pc imm, toNat_branchTarget s.pc imm,
    branches_of_branch exec_bc1t (s.takes_bc1t imm), branches_of_branch exec_bc1f (s.takes_bc1f imm)⟩

/-- Settles O39: the masked and shifted target of `j` and `jal` is the three fields side by side. -/
theorem jumps : Obligations.Jumps := by
  intro s target rs
  rw [← jumpTarget_eq_append]
  exact ⟨rfl, rfl, rfl, branches_of_transfer exec_j, links_of_transfer exec_jal, branches_of_transfer exec_jr⟩

/-- Settles O40: the target is read in the state before the link is written, so `rd = rs` is no special case. -/
theorem jumpAndLinkRegister : Obligations.JumpAndLinkRegister :=
  fun _ _ _ => links_of_transfer exec_jalr

end Sys2Proof.Machine
end

section
/-!
44_float.md R260 to R274: the floating-point instructions. Each operation of the record `fp` has one equation per clause of
R261; the arithmetic instructions end in `State.finishNumber`, the conversions and sign operations in `State.finishFpr`, the
compares in `State.finishFcc`.
-/

namespace Sys2Proof.Machine

/-! The classes of a pattern (00_scope.md R13). -/

section
variable {v : Word}

theorem isInf_iff : isInf v = true ↔ expOf v = 255 ∧ fracOf v = 0 := by simp [isInf]

theorem isNaN_of_isInf (h : isInf v = true) : isNaN v = false := by simp [isNaN, isInf_iff.1 h]

theorem isNaN_of_isFinite (h : isFinite v = true) : isNaN v = false := by simp_all [isFinite, isNaN]

theorem isInf_of_isFinite (h : isFinite v = true) : isInf v = false := by simp_all [isFinite, isInf]

theorem isFinite_or_isInf (h : isNaN v = false) : isFinite v = true ∨ isInf v = true := by
  by_cases top : expOf v = 255
  · exact .inr (isInf_iff.2 ⟨top, by simpa [isNaN, top] using h⟩)
  · exact .inl (by simp [isFinite, top])

theorem isFinite_of_isZero (h : isZero v = true) : isFinite v = true := by simp_all [isZero, isFinite]

end

/-! Magnitudes and signed values in units of 2^-149 (00_scope.md R13). -/

section
variable {v : Word}

theorem unitsOf_pos (h : isZero v = false) : 0 < unitsOf v := by
  unfold unitsOf
  split
  · next subnormal => exact Nat.pos_of_ne_zero fun zero => by simp [isZero, subnormal, zero] at h
  · positivity

theorem natAbs_signedUnits (v : Word) : (signedUnits v).natAbs = unitsOf v := by
  unfold signedUnits
  split <;> simp

theorem unitsOf_of_isInf (h : isInf v = true) : unitsOf v = 2 ^ 23 * 2 ^ 254 := by
  obtain ⟨exp, frac⟩ := isInf_iff.1 h
  simp only [unitsOf, exp, frac]
  rfl

theorem unitsOf_lt_of_isFinite (h : isFinite v = true) : unitsOf v < 2 ^ 23 * 2 ^ 254 := by
  have frac : fracOf v < 2 ^ 23 := by rw [fracOf_toNat]; omega
  have exp : expOf v < 255 := by
    have : expOf v ≠ 255 := by simpa [isFinite] using h
    rw [expOf_toNat] at this ⊢
    omega
  unfold unitsOf
  split
  · omega
  · calc (2 ^ 23 + fracOf v) * 2 ^ (expOf v - 1)
        < 2 ^ 24 * 2 ^ (expOf v - 1) := by gcongr; omega
      _ ≤ 2 ^ 24 * 2 ^ 253 := by gcongr <;> omega

/-- An infinity is determined by its sign. -/
theorem eq_of_isInf {a b : Word} (ha : isInf a = true) (hb : isInf b = true) (same : signOf a = signOf b) : a = b := by
  obtain ⟨expA, fracA⟩ := isInf_iff.1 ha
  obtain ⟨expB, fracB⟩ := isInf_iff.1 hb
  rw [expOf_toNat] at expA expB
  rw [fracOf_toNat] at fracA fracB
  rw [signOf_toNat, signOf_toNat, decide_eq_decide] at same
  have := a.isLt
  have := b.isLt
  exact BitVec.eq_of_toNat_eq (by omega)

/-- An infinity lies outside every other number, on the side of its sign (44_float.md R271). -/
theorem isInf_outside {a b : Word} (inf : isInf a = true) (number : isNaN b = false) (ne : a ≠ b) :
    if signOf a then signedUnits a < signedUnits b else signedUnits b < signedUnits a := by
  have top := unitsOf_of_isInf inf
  rcases isFinite_or_isInf number with fin | inf'
  · have := unitsOf_lt_of_isFinite fin
    rw [← top, ← natAbs_signedUnits b] at this
    rw [show signedUnits a = if signOf a then -(unitsOf a : Int) else unitsOf a from rfl]
    split <;> omega
  · have top' := unitsOf_of_isInf inf'
    have opposite : signOf b = !signOf a := Bool.eq_not.2 fun same => ne (eq_of_isInf inf inf' same.symm)
    simp only [signedUnits, opposite, top, top']
    cases signOf a <;> decide

end

/-! The arithmetic operations, clause by clause (R261). -/

section
variable {a b : Word}

theorem fpAdd_invalid
    (h : isNaN a = true ∨ isNaN b = true ∨ (isInf a = true ∧ isInf b = true ∧ signOf a ≠ signOf b)) :
    fpAdd a b = none := by
  rcases h with h | h | ⟨ha, hb, opposite⟩
  · simp [fpAdd, h]
  · simp [fpAdd, h]
  · simp [fpAdd, ha, hb, opposite]

theorem fpAdd_infLeft (ha : isInf a = true) (hb : isNaN b = false) (same : isInf b = true → signOf a = signOf b) :
    fpAdd a b = some a := by
  simpa [fpAdd, isNaN_of_isInf ha, ha, hb] using same

theorem fpAdd_infRight (hb : isInf b = true) (ha : isFinite a = true) : fpAdd a b = some b := by
  simp [fpAdd, isNaN_of_isFinite ha, isInf_of_isFinite ha, isNaN_of_isInf hb, hb]

theorem fpAdd_finite (ha : isFinite a = true) (hb : isFinite b = true) :
    fpAdd a b = if signedUnits a + signedUnits b = 0 then some (zeroOf (signOf a && signOf b))
      else some (packFloat (decide (signedUnits a + signedUnits b < 0))
        (roundUnits (signedUnits a + signedUnits b).natAbs 1)) := by
  simp [fpAdd, isNaN_of_isFinite ha, isInf_of_isFinite ha, isNaN_of_isFinite hb, isInf_of_isFinite hb]

theorem fpMul_invalid
    (h : isNaN a = true ∨ isNaN b = true ∨ (isInf a = true ∧ isZero b = true) ∨ (isZero a = true ∧ isInf b = true)) :
    fpMul a b = none := by
  rcases h with h | h | ⟨ha, hb⟩ | ⟨ha, hb⟩
  · simp [fpMul, h]
  · simp [fpMul, h]
  · simp [fpMul, ha, hb]
  · simp [fpMul, isInf_of_isFinite (isFinite_of_isZero ha), ha, hb]

theorem fpMul_inf (ha : isNaN a = false) (hb : isNaN b = false) (za : isZero a = false) (zb : isZero b = false)
    (inf : isInf a = true ∨ isInf b = true) : fpMul a b = some (infOf (signOf a != signOf b)) := by
  by_cases left : isInf a = true
  · simp [fpMul, ha, hb, left, zb]
  · simp [fpMul, ha, hb, left, inf.resolve_left left, za]

theorem fpMul_finite (ha : isFinite a = true) (hb : isFinite b = true) :
    fpMul a b = some (packFloat (signOf a != signOf b) (roundUnits (unitsOf a * unitsOf b) (2 ^ 149))) := by
  simp only [fpMul, isNaN_of_isFinite ha, isInf_of_isFinite ha, isNaN_of_isFinite hb, isInf_of_isFinite hb]
  rfl

theorem fpDiv_invalid
    (h : isNaN a = true ∨ isNaN b = true ∨ (isInf a = true ∧ isInf b = true) ∨ (isZero a = true ∧ isZero b = true)) :
    fpDiv a b = none := by
  rcases h with h | h | ⟨ha, hb⟩ | ⟨ha, hb⟩
  · simp [fpDiv, h]
  · simp [fpDiv, h]
  · simp [fpDiv, ha, hb]
  · simp [fpDiv, isInf_of_isFinite (isFinite_of_isZero ha), isInf_of_isFinite (isFinite_of_isZero hb), ha, hb]

theorem fpDiv_inf (ha : isInf a = true) (hb : isFinite b = true) :
    fpDiv a b = some (infOf (signOf a != signOf b)) := by
  simp [fpDiv, isNaN_of_isInf ha, ha, isNaN_of_isFinite hb, isInf_of_isFinite hb]

theorem fpDiv_byInf (ha : isFinite a = true) (hb : isInf b = true) :
    fpDiv a b = some (zeroOf (signOf a != signOf b)) := by
  simp [fpDiv, isNaN_of_isFinite ha, isInf_of_isFinite ha, isNaN_of_isInf hb, hb]

theorem fpDiv_byZero (ha : isFinite a = true) (nonzero : isZero a = false) (hb : isZero b = true) :
    fpDiv a b = some (infOf (signOf a != signOf b)) := by
  have fin := isFinite_of_isZero hb
  simp [fpDiv, isNaN_of_isFinite ha, isInf_of_isFinite ha, isNaN_of_isFinite fin, isInf_of_isFinite fin, nonzero, hb]

theorem fpDiv_finite (ha : isFinite a = true) (hb : isFinite b = true) (nonzero : isZero b = false) :
    fpDiv a b = some (packFloat (signOf a != signOf b) (roundUnits (unitsOf a * 2 ^ 149) (unitsOf b))) := by
  simp only [fpDiv, isNaN_of_isFinite ha, isInf_of_isFinite ha, isNaN_of_isFinite hb, isInf_of_isFinite hb, nonzero]
  rfl

end

/-! What an arithmetic instruction may write for an operation's answer (R261(c)). -/

/-- `v` is the answer `r`, or some NaN pattern where `r` is none. -/
def Delivers (r : Option Word) (v : Word) : Prop := r = some v ∨ (r = none ∧ isNaN v = true)

theorem Delivers.isNaN_eq_true {r : Option Word} {v : Word} (d : Delivers r v) (e : r = none) : isNaN v = true := by
  subst e
  simpa [Delivers] using d

theorem Delivers.eq {r : Option Word} {v w : Word} (d : Delivers r v) (e : r = some w) : v = w := by
  subst e
  exact (show w = v by simpa [Delivers] using d).symm

theorem expOf_or_mask (d : Word) : expOf (d ||| 0x7F800000#32) = 255 := by
  have ones : (0x7F800000#32).extractLsb' 23 8 = BitVec.allOnes 8 := by decide
  rw [expOf, BitVec.extractLsb'_or, ones, BitVec.or_allOnes]
  rfl

theorem fracOf_eq_zero_iff (v : Word) : fracOf v = 0 ↔ v &&& 0x007FFFFF#32 = 0#32 := by
  rw [fracOf_toNat, ← Nat.and_two_pow_sub_one_eq_mod, BitVec.toNat_eq, BitVec.toNat_and]
  rfl

/-- The pattern made of a free word is a NaN. -/
theorem isNaN_nanOf (d : Word) : isNaN (nanOf d) = true := by
  have nan {v : Word} (exp : expOf v = 255) (frac : v &&& 0x007FFFFF#32 ≠ 0#32) : isNaN v = true := by
    simpa [isNaN, exp] using mt (fracOf_eq_zero_iff v).1 frac
  unfold nanOf
  simp only
  split
  · refine nan ?_ fun zero => ?_
    · rw [BitVec.or_assoc, BitVec.or_comm _ 1#32, ← BitVec.or_assoc]
      exact expOf_or_mask (d ||| 1#32)
    · simpa using congrArg (BitVec.getLsbD · 0) zero
  · next payload => exact nan (expOf_or_mask d) payload

section
variable {a b v : Word}

theorem Delivers.isSum (d : Delivers (fpAdd a b) v) : IsSum a b v where
  nan h := d.isNaN_eq_true (fpAdd_invalid h)
  infLeft ha hb same := d.eq (fpAdd_infLeft ha hb same)
  infRight hb ha := d.eq (fpAdd_infRight hb ha)
  zero ha hb zero := d.eq ((fpAdd_finite ha hb).trans (if_pos zero))
  number ha hb nonzero := by
    rw [d.eq ((fpAdd_finite ha hb).trans (if_neg nonzero))]
    exact roundUnits_nearest _ _ Nat.one_pos

theorem Delivers.isProduct (d : Delivers (fpMul a b) v) : IsProduct a b v where
  nan h := d.isNaN_eq_true (fpMul_invalid h)
  inf ha hb za zb inf := d.eq (fpMul_inf ha hb za zb inf)
  number ha hb := by
    rw [d.eq (fpMul_finite ha hb)]
    exact roundUnits_nearest _ _ (Nat.two_pow_pos 149)

theorem Delivers.isQuotient (d : Delivers (fpDiv a b) v) : IsQuotient a b v where
  nan h := d.isNaN_eq_true (fpDiv_invalid h)
  inf ha hb := d.eq (fpDiv_inf ha hb)
  zero ha hb := d.eq (fpDiv_byInf ha hb)
  byZero ha nonzero hb := d.eq (fpDiv_byZero ha nonzero hb)
  number ha hb nonzero := by
    rw [d.eq (fpDiv_finite ha hb nonzero)]
    exact roundUnits_nearest _ _ (unitsOf_pos nonzero)

end

theorem writesFpr_of_finishNumber {s : State} {i : Instr} {fd : RegIdx} {r : Option Word}
    (e : exec i s = s.finishNumber fd r) : ∃ v, Delivers r v ∧ WritesFpr s i fd v := by
  cases r with
  | some v => exact ⟨v, .inl rfl, writesFpr_of (.inl rfl) e⟩
  | none => exact ⟨_, .inr ⟨rfl, isNaN_nanOf s.draw⟩, writesFpr_of (.inr rfl) e⟩

/-! The sign bit (R266, R267). -/

section
variable (v : Word) {k : Nat}

theorem getLsbD_clearSign (h : k < 31) : (clearSign v).getLsbD k = v.getLsbD k := by
  have mask : (0x7FFFFFFF#32).getLsbD k = true := by revert k; decide
  rw [clearSign, BitVec.getLsbD_and, mask, Bool.and_true]

theorem getLsbD_clearSign_sign : (clearSign v).getLsbD 31 = false := by
  rw [clearSign, BitVec.getLsbD_and, show (0x7FFFFFFF#32).getLsbD 31 = false from rfl, Bool.and_false]

theorem getLsbD_flipSign (h : k < 31) : (flipSign v).getLsbD k = v.getLsbD k := by
  have mask : (0x80000000#32).getLsbD k = false := by revert k; decide
  rw [flipSign, BitVec.getLsbD_xor, mask, Bool.xor_false]

theorem getLsbD_flipSign_sign : (flipSign v).getLsbD 31 = !v.getLsbD 31 := by
  rw [flipSign, BitVec.getLsbD_xor, show (0x80000000#32).getLsbD 31 = true from rfl, Bool.xor_true]

end

/-! The exact conversion to an integer (R270). -/

theorem cvtExact_integer {v : Word} {k : Int} (fin : isFinite v = true) (value : signedUnits v = k * 2 ^ 149)
    (fits : -2 ^ 31 ≤ k ∧ k ≤ 2 ^ 31 - 1) : cvtExact v = some (BitVec.ofInt 32 k) := by
  have whole : unitsOf v % 2 ^ 149 = 0 := by
    rw [← natAbs_signedUnits, value, Int.natAbs_mul]
    exact Nat.mul_mod_left _ _
  have quotient : signedUnits v / 2 ^ 149 = k := by
    rw [value]
    exact Int.mul_ediv_cancel k (by decide)
  simp only [cvtExact, isNaN_of_isFinite fin, isInf_of_isFinite fin, whole, quotient, if_pos fits]
  rfl

/-! The compares (R271 to R274). -/

section
variable {a b : Word}

theorem fcc_nan (h : isNaN a = true ∨ isNaN b = true) : fccEq a b = false ∧ fccLt a b = false ∧ fccLe a b = false := by
  rcases h with h | h <;> simp [fccEq, fccLt, fccLe, h]

theorem fcc_numbers (ha : isNaN a = false) (hb : isNaN b = false) :
    fccEq a b = decide (signedUnits a = signedUnits b) ∧ fccLt a b = decide (signedUnits a < signedUnits b) ∧
      fccLe a b = decide (signedUnits a ≤ signedUnits b) := by
  refine ⟨?_, ?_, ?_⟩ <;> simp only [fccEq, fccLt, fccLe, orderKey, ha, hb] <;> rfl

theorem fcc_less (ha : isNaN a = false) (hb : isNaN b = false) (less : signedUnits a < signedUnits b) :
    fccEq a b = false ∧ fccLt a b = true ∧ fccLe a b = true := by
  simpa [fcc_numbers ha hb] using ⟨less.ne, less, less.le⟩

theorem fcc_greater (ha : isNaN a = false) (hb : isNaN b = false) (greater : signedUnits b < signedUnits a) :
    fccEq a b = false ∧ fccLt a b = false ∧ fccLe a b = false := by
  simpa [fcc_numbers ha hb] using ⟨greater.ne', greater.le, greater⟩

theorem fcc_infLeft (ha : isInf a = true) (hb : isNaN b = false) (ne : a ≠ b) :
    fccEq a b = false ∧ fccLt a b = signOf a ∧ fccLe a b = signOf a := by
  have outside := isInf_outside ha hb ne
  cases sign : signOf a with
  | true => exact fcc_less (isNaN_of_isInf ha) hb (by simpa [sign] using outside)
  | false => exact fcc_greater (isNaN_of_isInf ha) hb (by simpa [sign] using outside)

theorem fcc_infRight (hb : isInf b = true) (ha : isNaN a = false) (ne : a ≠ b) :
    fccEq a b = false ∧ fccLt a b = !signOf b ∧ fccLe a b = !signOf b := by
  have outside := isInf_outside hb ha ne.symm
  cases sign : signOf b with
  | true => exact fcc_greater ha (isNaN_of_isInf hb) (by simpa [sign] using outside)
  | false => exact fcc_less ha (isNaN_of_isInf hb) (by simpa [sign] using outside)

theorem fcc_self (ha : isNaN a = false) : fccEq a a = true ∧ fccLt a a = false ∧ fccLe a a = true := by
  simp [fcc_numbers ha ha]

end

/-! The ending of each instruction (R262 to R274). -/

section
variable {fd fs ft : RegIdx} {s : State}

theorem exec_addS : exec (.addS fd fs ft) s = s.finishNumber fd (fpAdd (s.readFpr fs) (s.readFpr ft)) := rfl
theorem exec_subS : exec (.subS fd fs ft) s = s.finishNumber fd (fpAdd (s.readFpr fs) (flipSign (s.readFpr ft))) := rfl
theorem exec_mulS : exec (.mulS fd fs ft) s = s.finishNumber fd (fpMul (s.readFpr fs) (s.readFpr ft)) := rfl
theorem exec_divS : exec (.divS fd fs ft) s = s.finishNumber fd (fpDiv (s.readFpr fs) (s.readFpr ft)) := rfl

theorem exec_absS : exec (.absS fd fs) s = s.finishFpr fd (clearSign (s.readFpr fs)) := rfl
theorem exec_negS : exec (.negS fd fs) s = s.finishFpr fd (flipSign (s.readFpr fs)) := rfl
theorem exec_movS : exec (.movS fd fs) s = s.finishFpr fd (s.readFpr fs) := rfl

theorem exec_cvtSW : exec (.cvtSW fd fs) s = s.finishFpr fd (fpOfInt (s.readFpr fs)) := rfl
theorem exec_cvtWS_exact {v : Word} (result : cvtExact (s.readFpr fs) = some v) :
    exec (.cvtWS fd fs) s = s.finishFpr fd v := by
  simp only [exec, execCvtWS, result]
theorem exec_cvtWS_free (inexact : cvtExact (s.readFpr fs) = none) :
    exec (.cvtWS fd fs) s = s.drawn.finishFpr fd s.draw := by
  simp only [exec, execCvtWS, inexact]

theorem exec_cEqS : exec (.cEqS fs ft) s = s.finishFcc (fccEq (s.readFpr fs) (s.readFpr ft)) := rfl
theorem exec_cLtS : exec (.cLtS fs ft) s = s.finishFcc (fccLt (s.readFpr fs) (s.readFpr ft)) := rfl
theorem exec_cLeS : exec (.cLeS fs ft) s = s.finishFcc (fccLe (s.readFpr fs) (s.readFpr ft)) := rfl

/-- `cvt.w.s` completes on every operand, with the exact integer or with a draw. -/
theorem cvtWS_completes (s : State) (fd fs : RegIdx) : ∃ v, WritesFpr s (.cvtWS fd fs) fd v := by
  cases result : cvtExact (s.readFpr fs) with
  | some v => exact ⟨v, writesFpr_of (.inl rfl) (exec_cvtWS_exact result)⟩
  | none => exact ⟨s.draw, writesFpr_of (.inr rfl) (exec_cvtWS_free result)⟩

end

/-- Settles O41: both end in `State.finishNumber` on `fpAdd`, `sub.s` with the sign of its second operand inverted. -/
theorem floatAddAndSubtract : Obligations.FloatAddAndSubtract := by
  intro s fd fs ft
  obtain ⟨_, sum, addS⟩ := writesFpr_of_finishNumber (exec_addS (fd := fd) (fs := fs) (ft := ft) (s := s))
  obtain ⟨_, difference, subS⟩ := writesFpr_of_finishNumber (exec_subS (fd := fd) (fs := fs) (ft := ft) (s := s))
  exact ⟨⟨_, sum.isSum, addS⟩, _, difference.isSum, subS⟩

/-- Settles O42: both end in `State.finishNumber`, on `fpMul` and on `fpDiv`. -/
theorem floatMultiplyAndDivide : Obligations.FloatMultiplyAndDivide := by
  intro s fd fs ft
  obtain ⟨_, product, mulS⟩ := writesFpr_of_finishNumber (exec_mulS (fd := fd) (fs := fs) (ft := ft) (s := s))
  obtain ⟨_, quotient, divS⟩ := writesFpr_of_finishNumber (exec_divS (fd := fd) (fs := fs) (ft := ft) (s := s))
  exact ⟨⟨_, product.isProduct, mulS⟩, _, quotient.isQuotient, divS⟩

/-- Settles O43. -/
theorem floatSignOperations : Obligations.FloatSignOperations :=
  fun _ _ _ =>
    ⟨⟨_, fun _ => getLsbD_clearSign _, getLsbD_clearSign_sign _, writesFpr_of (.inl rfl) exec_absS⟩,
      ⟨_, fun _ => getLsbD_flipSign _, getLsbD_flipSign_sign _, writesFpr_of (.inl rfl) exec_negS⟩,
      writesFpr_of (.inl rfl) exec_movS⟩

/-- Settles O44: `fpOfInt` is one rounding of the exact integer, and the integers are exact cases of `cvt.w.s`. -/
theorem floatConversions : Obligations.FloatConversions := by
  intro s fd fs
  obtain ⟨sign, nearest⟩ := roundUnits_nearest (decide ((s.readFpr fs).toInt < 0))
    ((s.readFpr fs).toInt.natAbs * 2 ^ 149) Nat.one_pos
  refine ⟨⟨_, sign, nearest, writesFpr_of (.inl rfl) exec_cvtSW⟩, fun k fin value low high => ?_,
    cvtWS_completes s fd fs⟩
  exact writesFpr_of (.inl rfl) (exec_cvtWS_exact (cvtExact_integer fin value ⟨low, high⟩))

/-- Settles O45: the three bits are those of R272 to R274, by the order of the signed values. -/
theorem floatCompares : Obligations.FloatCompares := by
  rintro s fs ft a b rfl rfl
  refine ⟨_, _, _, writesFcc_of exec_cEqS, writesFcc_of exec_cLtS, writesFcc_of exec_cLeS, fcc_nan,
    fun ha hb => fcc_numbers (isNaN_of_isFinite ha) (isNaN_of_isFinite hb), fcc_infLeft, fcc_infRight,
    fun inf same => ?_⟩
  rw [← same]
  exact fcc_self (isNaN_of_isInf inf)

end Sys2Proof.Machine
end

section
/-!
45_system.md R300, R301, R304, R305, functional engine: one equation per test of the step and per outcome of fetch and
decode, and the account of `steps` by the ways an instruction ends (`Ends`).
-/

namespace Sys2Proof.Machine

/-! The end-of-run tests, in their order. -/

theorem step_functional {s : State} (admitted : s.cfg.wf = true) (engine : s.cfg.engine = .functional) :
    step s = stepFunctional s := by
  unfold step
  rw [engine]
  exact State.underConfig_of_wf admitted _

section
variable {s : State} (running : s.status = .running)
include running

theorem stepFunctional_exhausted (spent : s.cfg.maxSteps ≤ s.steps) :
    stepFunctional s = .next (s.setStatus .budgetExhausted) := by
  rw [stepFunctional, if_neg (not_not.2 running), if_pos spent]

variable (budget : s.steps < s.cfg.maxSteps)
include budget

theorem stepFunctional_breakpoint (reached : s.cfg.breakpoint = some s.pc) :
    stepFunctional s = .next (s.raise (.breakpoint s.pc)) := by
  rw [stepFunctional, if_neg (not_not.2 running), if_neg (not_le.2 budget), if_pos reached]

variable (away : s.cfg.breakpoint ≠ some s.pc)
include away

theorem stepFunctional_endOfText (beyond : s.cfg.textEnd ≤ s.pc.toNat) :
    stepFunctional s = .next (s.setStatus .endOfText) := by
  rw [stepFunctional, if_neg (not_not.2 running), if_neg (not_le.2 budget), if_neg away, if_pos beyond]

theorem stepFunctional_runs (text : s.pc.toNat < s.cfg.textEnd) : stepFunctional s = s.runInstruction := by
  rw [stepFunctional, if_neg (not_not.2 running), if_neg (not_le.2 budget), if_neg away, if_neg (not_le.2 text)]

end

/-- Settles O6: a raise at the breakpoint changes the status alone, as the two other tests do. -/
theorem endOfRunTests : Obligations.EndOfRunTests := by
  intro s admitted engine running
  rw [step_functional admitted engine]
  exact ⟨stepFunctional_exhausted running, stepFunctional_breakpoint running, stepFunctional_endOfText running⟩

/-! Fetch and decode (20_memory.md R68; 30_encoding.md R110). -/

section
variable {s : State}

theorem State.runInstruction_fetchFault {k : FaultKind} (h : s.readFault s.pc.toNat 4 = some k) :
    s.runInstruction = .next (s.raise k) := by
  rw [State.runInstruction, State.fetch, h]

variable (ok : s.loadable s.pc.toNat 4)
include ok

theorem State.fetch_loadable : s.fetch s.pc.toNat = .ok (Memory.load s.mem s.pc.toNat .word) := by
  rw [State.fetch, State.readFault_none ok]

theorem State.runInstruction_undecoded (h : ∀ i, decode (Memory.load s.mem s.pc.toNat .word) ≠ .ok i) :
    s.runInstruction = .next (s.raise (.invalidInstruction (Memory.load s.mem s.pc.toNat .word))) := by
  rw [State.runInstruction, State.fetch_loadable ok]
  cases decoded : decode (Memory.load s.mem s.pc.toNat .word) with
  | error e => simp only [decoded]
  | ok i => exact absurd decoded (h i)

theorem State.runInstruction_decoded {i : Instr} (h : decode (Memory.load s.mem s.pc.toNat .word) = .ok i) :
    s.runInstruction = countOutcome (exec i s) := by
  rw [State.runInstruction, State.fetch_loadable ok]
  simp only [h]

end

/-- Settles O7: bounds and alignment are the tests of `State.readFault`, and the fetched word is the one whose number is
that of the four bytes. -/
theorem fetchAndDecodeFaults : Obligations.FetchAndDecodeFaults := by
  intro s admitted engine running budget away text
  rw [step_functional admitted engine, stepFunctional_runs running budget away text]
  refine ⟨fun out => ?bounds, fun within odd => ?alignment, fun w ok bytes invalid => ?word⟩
  case bounds => exact State.runInstruction_fetchFault (State.readFault_bounds out)
  case alignment => exact State.runInstruction_fetchFault (State.readFault_misaligned within odd)
  case word =>
    obtain rfl : w = Memory.load s.mem s.pc.toNat .word :=
      BitVec.eq_of_toNat_eq (bytes.trans (Memory.toNat_load s.mem s.pc.toNat .word).symm)
    exact State.runInstruction_undecoded ok invalid

/-! The count of a completed instruction (R300). -/

theorem State.endStep_completed {t : State} (h : t.status.fault = none) : t.endStep = t.countStep := by
  cases status : t.status with
  | faulted | paused => rw [status] at h; cases h
  | running | exited | budgetExhausted | endOfText => simp only [State.endStep, status]

theorem State.endStep_faulted {t : State} (h : t.status.fault ≠ none) : t.endStep = t := by
  cases status : t.status with
  | faulted | paused => simp only [State.endStep, status]
  | running | exited | budgetExhausted | endOfText => rw [status] at h; exact absurd rfl h

/-- The bytes at an address decode as the word loaded there. -/
theorem decode_load_of_decodeBytes {m : List Host.Cell} {a : Nat} {i : Instr} {rest : List Byte}
    (h : decodeBytes (Memory.readBytes m a 4) = .ok (i, rest)) : decode (Memory.load m a .word) = .ok i := by
  simp only [Memory.readBytes, decodeBytes, Nat.add_assoc, Nat.reduceAdd] at h
  split at h
  · rename_i decoded
    cases h; exact decoded
  · cases h

/-- Settles O5: the bytes at `pc` decode as the fetched word, and `State.endStep` counts what ended in no fault or pause. -/
theorem stepRunsDecodedInstruction : Obligations.StepRunsDecodedInstruction := by
  intro s i rest admitted engine running budget away text ok bytes
  obtain ⟨t, ht⟩ := exec_next i s
  have run : step s = .next t.endStep := by
    rw [step_functional admitted engine, stepFunctional_runs running budget away text,
      State.runInstruction_decoded ok (decode_load_of_decodeBytes bytes), ht, countOutcome]
  exact ⟨t, ht, fun completed => run.trans (congrArg _ (State.endStep_completed completed)),
    fun ended => run.trans (congrArg _ (State.endStep_faulted ended))⟩

/-! What a step from `Running` counts. -/

/-- `t` is the end of a step from `s` that completed an instruction, or of one that did not and so ended the run. -/
def Counts (s t : State) : Prop :=
  (t.steps = s.steps + 1 ∧ (t.status = .running ∨ t.status = .exited)) ∨
    (t.steps = s.steps ∧ t.status ≠ .running ∧ t.status ≠ .exited)

theorem endStatus_fault (k : FaultKind) : (endStatus k).fault = some k := by cases k <;> rfl

theorem State.raise_fault (s : State) (k : FaultKind) : (s.raise k).status.fault = some k := by
  rw [State.raise_status, endStatus_fault]

theorem Counts.raise (s : State) (k : FaultKind) : Counts s (s.raise k) := by
  have fault := s.raise_fault k
  refine .inr ⟨(s.raise_faulted k).steps, ?_, ?_⟩
  · intro status; rw [status] at fault; cases fault
  · intro status; rw [status] at fault; cases fault

theorem Counts.setStatus (s : State) {r : RunStatus} (running : r ≠ .running) (exited : r ≠ .exited) :
    Counts s (s.setStatus r) := .inr ⟨rfl, running, exited⟩

theorem Counts.endStep {s t : State} (steps : t.steps = s.steps) (status : t.status = .running ∨ t.status = .exited) :
    Counts s t.endStep := by
  have completed : t.status.fault = none := by
    rcases status with status | status
    · rw [status]; rfl
    · rw [status]; rfl
  rw [State.endStep_completed completed]
  exact .inl ⟨congrArg (· + 1) steps, status⟩

theorem Counts.exec {s t : State} {i : Instr} (running : s.status = .running) (h : exec i s = .next t) :
    Counts s t.endStep := by
  have steps := (exec_keeps h).steps
  cases exec_ends h with
  | raises k =>
    rw [State.endStep_faulted (by rw [State.raise_fault]; exact Option.some_ne_none k)]
    exact Counts.raise s k
  | exits => exact Counts.endStep steps (.inr rfl)
  | advances status | transfers status => exact Counts.endStep steps (.inl (status.trans running))

theorem Counts.runInstruction {s t : State} (running : s.status = .running) (h : s.runInstruction = .next t) :
    Counts s t := by
  obtain ⟨k, -, rfl⟩ | ⟨w, -, ⟨-, rfl⟩ | ⟨i, u, -, hu, rfl⟩⟩ := State.runInstruction_next h
  · exact Counts.raise s k
  · exact Counts.raise s _
  · exact Counts.exec running hu

/-- Settles O14: an instruction that raises nothing exits or leaves the status, and keeps `steps` until the end of the step. -/
theorem completedInstructionsAreCounted : Obligations.CompletedInstructionsAreCounted := by
  intro s t engine running h
  rw [step_functional (step_next h).1 engine] at h
  obtain ⟨ended, -⟩ | ⟨-, ⟨-, rfl⟩ | ⟨-, ⟨-, rfl⟩ | ⟨-, ⟨-, rfl⟩ | ⟨-, h⟩⟩⟩⟩ := stepFunctional_next h
  · exact absurd running ended
  · exact Counts.setStatus s (by decide) (by decide)
  · exact Counts.raise s _
  · exact Counts.setStatus s (by decide) (by decide)
  · exact Counts.runInstruction running h

end Sys2Proof.Machine
end

section
/-!
45_system.md R290 to R299, R302, R303: the environment calls, break and nop. Each call number has one equation for `exec`;
the read calls differ from an ordinary ending by what the console has used up (`Asked`).
-/

namespace Sys2Proof.Machine

/-! The service of each call number (R291). -/

section
variable {s : State} {code : BitVec 20}

theorem exec_syscall_printInt (call : s.readGpr 2#5 = 1#32) : exec (.syscall code) s = .next s.callPrintInt := by
  simp [exec, execSyscall, regV0, call]

theorem exec_syscall_printString (call : s.readGpr 2#5 = 4#32) : exec (.syscall code) s = .next s.callPrintString := by
  simp [exec, execSyscall, regV0, call]

theorem exec_syscall_readInt (call : s.readGpr 2#5 = 5#32) : exec (.syscall code) s = .next s.callReadInt := by
  simp [exec, execSyscall, regV0, call]

theorem exec_syscall_readString (call : s.readGpr 2#5 = 8#32) : exec (.syscall code) s = .next s.callReadString := by
  simp [exec, execSyscall, regV0, call]

theorem exec_syscall_exit (call : s.readGpr 2#5 = 10#32) : exec (.syscall code) s = .next s.callExit := by
  simp [exec, execSyscall, regV0, call]

theorem exec_syscall_printChar (call : s.readGpr 2#5 = 11#32) : exec (.syscall code) s = .next s.callPrintChar := by
  simp [exec, execSyscall, regV0, call]

theorem exec_syscall_readChar (call : s.readGpr 2#5 = 12#32) : exec (.syscall code) s = .next s.callReadChar := by
  simp [exec, execSyscall, regV0, call]

theorem exec_syscall_other (call : (s.readGpr 2#5).toNat ∉ [1, 4, 5, 8, 10, 11, 12]) :
    exec (.syscall code) s = .next (s.raise (.invalidSyscall (s.readGpr 2#5))) := by
  simp [exec, execSyscall, regV0, ne_of_toNat_notMem call]

end

/-- Settles O50: the call falls through every number of R291. -/
theorem invalidSyscallFaults : Obligations.InvalidSyscallFaults :=
  fun _ _ call => faults_of (exec_syscall_other call)

/-! Exit, break and nop (R297, R302, R303). -/

theorem OnlyPc.setPc (s : State) (a : Word) : OnlyPc s (s.setPc a) where
  gprs _ := rfl
  fprs _ := rfl
  hiLo := ⟨rfl, rfl⟩
  fcc := rfl
  memory _ := rfl
  rest := ⟨rfl, rfl, rfl, rfl, rfl, rfl, rfl⟩

/-- Settles O49: exit sets the status alone, so with the old status put back the state is the old one. -/
theorem exitCall : Obligations.ExitCall :=
  fun s _ call => ⟨_, exec_syscall_exit call, rfl, rfl, OnlyPc.setPc s s.pc⟩

/-- Settles O51: break is a raise, nop and two nops are settings of `pc`. -/
theorem breakAndNop : Obligations.BreakAndNop := by
  intro s code
  have eight : s.pc + 4#32 + 4#32 = s.pc + 8#32 := by rw [BitVec.add_assoc]; rfl
  exact ⟨faults_of rfl, goesTo_of rfl, s.advance, s.advance.advance, rfl, rfl, eight, OnlyPc.setPc s _⟩

/-! The print calls (R292, R294, R298). -/

theorem prints_of {s : State} {i : Instr} {e : OutEvent} (h : exec i s = .next (s.emit e).advance) : Prints s i e :=
  ⟨_, h, rfl, rfl, rfl,
    { gprs := fun _ => rfl, fprs := fun _ => rfl, hiLo := ⟨rfl, rfl⟩, fcc := rfl, memory := fun _ => rfl, cfg := rfl,
      roArmed := rfl, status := rfl, steps := rfl, micro := rfl }⟩

theorem Memory.cString_terminated {m : List Host.Cell} {bs : List Byte} {fuel a : Nat} (nonzero : ∀ b ∈ bs, b ≠ 0#8)
    (bytes : Memory.readBytes m a bs.length = bs) (ended : Memory.read m (a + bs.length) = 0#8)
    (within : bs.length < fuel) : Memory.cString m fuel a = some bs := by
  obtain ⟨k, rfl⟩ : ∃ k, fuel = k + 1 := Nat.exists_eq_succ_of_ne_zero (by omega)
  induction bs generalizing k a with
  | nil => exact if_pos ended
  | cons b rest ih =>
    rw [List.length_cons] at bytes ended within
    obtain ⟨first, others⟩ := List.cons.inj bytes
    obtain ⟨j, rfl⟩ : ∃ j, k = j + 1 := Nat.exists_eq_succ_of_ne_zero (by omega)
    have tail : Memory.cString m (j + 1) (a + 1) = some rest :=
      ih (fun c hc => nonzero c (List.mem_cons_of_mem b hc)) others (by rwa [Nat.add_right_comm, Nat.add_assoc]) j (by omega)
    rw [Memory.cString, first, if_neg (nonzero b List.mem_cons_self), tail, Option.map_some]

theorem Memory.cString_unterminated {m : List Host.Cell} {fuel a : Nat}
    (nonzero : ∀ c, a ≤ c → c < a + fuel → Memory.read m c ≠ 0#8) : Memory.cString m fuel a = none := by
  induction fuel generalizing a with
  | zero => rfl
  | succ k ih =>
    rw [Memory.cString, if_neg (nonzero a le_rfl (by omega)), ih (fun c low high => nonzero c (by omega) (by omega)),
      Option.map_none]

section
variable {s : State} {code : BitVec 20} (call : s.readGpr 2#5 = 4#32)
include call

theorem prints_of_cString {bs : List Byte}
    (string : Memory.cString s.mem (s.cfg.memSize - (s.readGpr 4#5).toNat) (s.readGpr 4#5).toNat = some bs) :
    Prints s (.syscall code) (.printString bs) := by
  refine prints_of ((exec_syscall_printString call).trans ?_)
  simp only [State.callPrintString, regA0, string]

theorem faults_of_cString
    (string : Memory.cString s.mem (s.cfg.memSize - (s.readGpr 4#5).toNat) (s.readGpr 4#5).toNat = none) :
    Faults s (.syscall code) (.memoryOutOfBounds (max (s.readGpr 4#5).toNat s.cfg.memSize)) := by
  refine faults_of ((exec_syscall_printString call).trans ?_)
  simp only [State.callPrintString, regA0, string]

end

/-- Settles O46: print-string looks for its zero byte from the address up to MEM_SIZE. -/
theorem printCalls : Obligations.PrintCalls := by
  intro s code
  refine ⟨fun call => ?int, fun call => ?char, fun bs call nonzero bytes ended within => ?string,
    fun call nonzero => ?unterminated⟩
  case int => exact prints_of (exec_syscall_printInt call)
  case char => exact prints_of (exec_syscall_printChar call)
  case string => exact prints_of_cString call (Memory.cString_terminated nonzero bytes ended (by omega))
  case unterminated =>
    exact faults_of_cString call (Memory.cString_unterminated fun c low high => nonzero c low (by omega))

/-! Asking the console (10_state.md R32). -/

/-- `t` is `s` after the console was asked: at most the ready answers and the count of free values differ. -/
inductive Asked (s : State) : State → Prop
  | intro (inp : List InAnswer) (draws : Nat) : Asked s { s with inp := inp, draws := draws }

theorem State.askInt_asked (s : State) : Asked s s.askInt.2 := by
  unfold State.askInt
  split
  · exact .intro _ _
  · exact .intro _ _

theorem State.askChar_asked (s : State) : Asked s s.askChar.2 := by
  unfold State.askChar
  split
  · exact .intro _ _
  · exact .intro _ _

theorem State.askString_asked (s : State) (limit : Nat) : Asked s (s.askString limit).2 := by
  unfold State.askString
  split
  · exact .intro _ _
  · exact .intro _ _

theorem State.askInt_ready {s : State} {v : Word} {rest : List InAnswer} (h : s.inp = .int v :: rest) :
    s.askInt = (v, { s with inp := rest }) := by
  unfold State.askInt; rw [h]

theorem State.askChar_ready {s : State} {b : Byte} {rest : List InAnswer} (h : s.inp = .char b :: rest) :
    s.askChar = (b, { s with inp := rest }) := by
  unfold State.askChar; rw [h]

theorem State.askString_ready {s : State} {bs : List Byte} {rest : List InAnswer} (h : s.inp = .string bs :: rest)
    (limit : Nat) : s.askString limit = (admissible limit bs, { s with inp := rest }) := by
  unfold State.askString; rw [h]

/-! read-int and read-char (R295, R299). -/

theorem answers_of {s u : State} {i : Instr} {v : Word} (asked : Asked s u)
    (h : exec i s = .next (u.setGpr 2#5 v).advance) : Answers s i v u.inp := by
  obtain ⟨inp, draws⟩ := asked
  exact ⟨_, h, State.readGpr_setGpr_same _ _ v, rfl, rfl,
    { gprs := fun _ other => State.readGpr_setGpr_other _ other v, fprs := fun _ => rfl, hiLo := ⟨rfl, rfl⟩, fcc := rfl,
      memory := fun _ => rfl, rest := ⟨rfl, rfl, rfl, rfl, rfl, rfl, rfl⟩ }⟩

section
variable {s : State} {code : BitVec 20}

theorem answers_readInt (call : s.readGpr 2#5 = 5#32) : Answers s (.syscall code) s.askInt.1 s.askInt.2.inp :=
  answers_of s.askInt_asked (exec_syscall_readInt call)

theorem answers_readChar (call : s.readGpr 2#5 = 12#32) :
    Answers s (.syscall code) (s.askChar.1.zeroExtend 32) s.askChar.2.inp :=
  answers_of s.askChar_asked (exec_syscall_readChar call)

end

theorem toNat_zeroExtend_byte_le (b : Byte) : (b.zeroExtend 32).toNat ≤ 255 := by
  rw [BitVec.zeroExtend_eq_setWidth, BitVec.toNat_setWidth_of_le (by decide)]
  exact Nat.le_of_lt_succ b.isLt

/-- Settles O47: each call writes register 2 with what the console answers. -/
theorem readNumberCalls : Obligations.ReadNumberCalls := by
  intro s code
  refine ⟨fun call => ⟨fun v rest ready => ?int, _, _, answers_readInt call⟩,
    fun call => ⟨fun b rest ready => ?char, _, _, toNat_zeroExtend_byte_le _, answers_readChar call⟩⟩
  case int =>
    have answer := answers_readInt (code := code) call
    rwa [State.askInt_ready ready] at answer
  case char =>
    have answer := answers_readChar (code := code) call
    rwa [State.askChar_ready ready] at answer

/-! read-string (R296). -/

theorem length_admissible_le (limit : Nat) (bs : List Byte) : (admissible limit bs).length ≤ limit :=
  List.length_take_le _ _

theorem ne_zero_of_mem_admissible {limit : Nat} {bs : List Byte} {b : Byte} (h : b ∈ admissible limit bs) : b ≠ 0#8 := by
  simpa using List.mem_takeWhile_imp (List.mem_of_mem_take h)

theorem admissible_eq_self {limit : Nat} {bs : List Byte} (short : bs.length ≤ limit) (nonzero : ∀ b ∈ bs, b ≠ 0#8) :
    admissible limit bs = bs := by
  rw [admissible, List.takeWhile_eq_self_iff.2 (by simpa using nonzero), List.take_of_length_le short]

theorem State.askString_eq_admissible (s : State) (limit : Nat) : ∃ bs, (s.askString limit).1 = admissible limit bs := by
  unfold State.askString
  split
  · exact ⟨_, rfl⟩
  · exact ⟨_, rfl⟩

section
variable {s : State} {buf n : Nat}

theorem State.bufferFault_bounds (out : s.cfg.memSize < buf + n) :
    s.bufferFault buf n = some (.memoryOutOfBounds (max buf s.cfg.memSize)) := if_pos out

theorem State.bufferFault_protected (within : buf + n ≤ s.cfg.memSize) (blocked : s.protects buf n = true) :
    s.bufferFault buf n = some (.memoryWriteProtected (max buf s.cfg.roBase)) := by
  rw [State.bufferFault, if_neg (not_lt.2 within), if_pos blocked]

theorem State.bufferFault_none (within : buf + n ≤ s.cfg.memSize) (free : s.protects buf n = false) :
    s.bufferFault buf n = none := by
  rw [State.bufferFault, if_neg (not_lt.2 within), if_neg (ne_true_of_eq_false free)]

end

section
variable {s : State} {code : BitVec 20} {buf n : Nat} (call : s.readGpr 2#5 = 8#32)
  (hbuf : buf = (s.readGpr 4#5).toNat) (hn : n = (s.readGpr 5#5).toNat)
include call hn

theorem exec_readString_empty (empty : n = 0) : exec (.syscall code) s = .next s.advance := by
  rw [exec_syscall_readString call, State.callReadString, regA1, ← hn, if_pos empty]

include hbuf
variable (nonempty : n ≠ 0)
include nonempty

theorem exec_readString_fault {k : FaultKind} (h : s.bufferFault buf n = some k) :
    exec (.syscall code) s = .next (s.raise k) := by
  simp only [exec_syscall_readString call, State.callReadString, regA0, regA1, ← hbuf, ← hn, if_neg nonempty, h]

theorem exec_readString_stores (h : s.bufferFault buf n = none) :
    exec (.syscall code) s =
      .next ((s.askString (n - 1)).2.storeBytes buf ((s.askString (n - 1)).1 ++ [0#8])).advance := by
  simp only [exec_syscall_readString call, State.callReadString, State.readStringBytes, regA0, regA1, ← hbuf, ← hn,
    if_neg nonempty, h]

end

/-- Bytes stored after the console was asked: they read back, and nothing else differs but the console. -/
theorem Asked.storeBytes {s u : State} (asked : Asked s u) (wf : Memory.wf s.mem = true) (a : Nat) (bs : List Byte) :
    Memory.readBytes (u.storeBytes a bs).mem a bs.length = bs ∧ u.pc = s.pc ∧
      OnlyMemory a bs.length s { (u.storeBytes a bs).advance with inp := s.inp } := by
  obtain ⟨inp, draws⟩ := asked
  exact ⟨Memory.readBytes_writeBytes wf bs a, rfl,
    { gprs := fun _ => rfl, fprs := fun _ => rfl, hiLo := ⟨rfl, rfl⟩, fcc := rfl,
      memory := fun _ outside => Memory.read_writeBytes_outside wf bs outside,
      rest := ⟨rfl, rfl, rfl, rfl, rfl, rfl, rfl⟩ }⟩

/-- Settles O48: the buffer is tested before the console is asked, and what the console answers is admissible. -/
theorem readStringCall : Obligations.ReadStringCall := by
  intro s code buf n wf call hbuf hn
  refine ⟨fun empty => ?empty, fun nonempty out => ?bounds, fun nonempty within blocked => ?blocked,
    fun nonempty within free => ?stores⟩
  case empty => exact goesTo_of (exec_readString_empty call hn empty)
  case bounds => exact faults_of (exec_readString_fault call hbuf hn nonempty (State.bufferFault_bounds out))
  case blocked =>
    exact faults_of (exec_readString_fault call hbuf hn nonempty (State.bufferFault_protected within blocked))
  case stores =>
    obtain ⟨bytes, pc, frame⟩ := (s.askString_asked (n - 1)).storeBytes wf buf ((s.askString (n - 1)).1 ++ [0#8])
    rw [List.length_append, List.length_singleton] at bytes frame
    obtain ⟨bs, answer⟩ := s.askString_eq_admissible (n - 1)
    refine ⟨_, _, exec_readString_stores call hbuf hn nonempty (State.bufferFault_none within free), ?_, ?_, bytes,
      congrArg (· + 4#32) pc, frame, fun given rest ready short nonzero => ?_⟩
    · rw [answer]; exact length_admissible_le _ _
    · rw [answer]; exact fun _ => ne_zero_of_mem_admissible
    · rw [State.askString_ready ready]; exact admissible_eq_self short nonzero

end Sys2Proof.Machine
end

section
/-!
46_cache.md R345: the counter laws. An access keeps them (`Cache.access_lawful`), and so do the quiet phases (`Quiet`);
the instructions touch no cache (`exec_keeps`), and of what commits only a store of the out-of-order engine makes an
access.
-/

namespace Sys2Proof.Machine

/-! After construction. -/

theorem Micro.construct_l2_lawful {c : Config} {k : Cache} (h : (Micro.construct c).l2 = some k) : k.Lawful := by
  obtain ⟨g, -, rfl⟩ := Option.map_eq_some_iff.1 h
  exact Cache.empty_lawful g _

theorem State.construct_cachesLawful (c : Config) : (State.construct c).CachesLawful :=
  ⟨Cache.empty_lawful _ _, Cache.empty_lawful _ _, fun _ => Micro.construct_l2_lawful⟩

/-! Updates. -/

/-- The laws are about the three caches alone. -/
theorem State.CachesLawful.of_same {s t : State} (h : s.CachesLawful) (l1i : t.micro.l1i = s.micro.l1i)
    (l1d : t.micro.l1d = s.micro.l1d) (l2 : t.micro.l2 = s.micro.l2) : t.CachesLawful := by
  unfold State.CachesLawful
  rw [l1i, l1d, l2]
  exact h

theorem Keeps.caches {s t : State} (k : Keeps s t) (h : s.CachesLawful) : t.CachesLawful :=
  h.of_same (congrArg Micro.l1i k.micro) (congrArg Micro.l1d k.micro) (congrArg Micro.l2 k.micro)

theorem State.CachesLawful.endStep {t : State} (h : t.CachesLawful) : t.endStep.CachesLawful := by
  unfold State.endStep
  split <;> exact h

theorem State.CachesLawful.endOfText {s : State} (h : s.CachesLawful) : s.endOfText.CachesLawful := by
  rw [State.endOfText_eq]
  exact h

theorem State.CachesLawful.applyStore {s : State} (h : s.CachesLawful) (w : Option (Nat × List Byte)) :
    (s.applyStore w).CachesLawful := by
  cases w <;> exact h

theorem State.CachesLawful.commitStoreEntry {s : State} (h : s.CachesLawful) (a width : Nat) (v : BitVec 64) :
    (s.commitStoreEntry a width v).CachesLawful := (Quiet.accessL1D s a _).caches h

/-! The functional engine. -/

theorem State.CachesLawful.runInstruction {s t : State} (hs : s.CachesLawful) (h : s.runInstruction = .next t) :
    t.CachesLawful := by
  obtain ⟨k, -, rfl⟩ | ⟨w, -, ⟨-, rfl⟩ | ⟨i, u, -, hu, rfl⟩⟩ := State.runInstruction_next h
  · exact (Keeps.raise s _).caches hs
  · exact (Keeps.raise s _).caches hs
  · exact ((exec_keeps hu).caches hs).endStep

theorem State.CachesLawful.stepFunctional {s t : State} (hs : s.CachesLawful) (h : stepFunctional s = .next t) :
    t.CachesLawful := by
  obtain ⟨-, rfl⟩ | ⟨-, ⟨-, rfl⟩ | ⟨-, ⟨-, rfl⟩ | ⟨-, ⟨-, rfl⟩ | ⟨-, h⟩⟩⟩⟩ := stepFunctional_next h
  · exact hs
  · exact hs
  · exact (Keeps.raise s _).caches hs
  · exact hs
  · exact hs.runInstruction h

/-! The phases that commit. -/

theorem State.CachesLawful.commitCall {s t : State} {code : BitVec 20} {pc : Word} (hs : s.CachesLawful)
    (h : s.commitCall code pc = .next t) : t.CachesLawful := by
  obtain ⟨u, hu, ht⟩ := State.commitCall_next h
  have called : u.CachesLawful := (exec_keeps hu).caches ((Keeps.setPc s pc).caches hs)
  obtain ⟨-, rfl⟩ | ⟨-, rfl⟩ | ⟨-, -, rfl⟩ := ht <;> exact called

theorem State.CachesLawful.wbPhase {s t : State} (hs : s.CachesLawful) (h : s.wbPhase = .next t) : t.CachesLawful := by
  obtain ⟨-, rfl⟩ | ⟨w, -, -, h⟩ := State.wbPhase_next h
  · exact hs
  have emptied : (s.setPipe { s.micro.pipe with wbs := none }).CachesLawful := hs
  obtain ⟨k, -, rfl⟩ | ⟨code, -, -, h⟩ | ⟨-, -, -, rfl⟩ := State.retireSlot_next h
  · exact ((Keeps.setPc _ _).trans (Keeps.raise _ k)).caches emptied
  · exact emptied.commitCall h
  · exact ((Keeps.writeNames _ _).caches emptied).applyStore _

theorem State.CachesLawful.commitHead {s t : State} {e : RobEntry} (hs : s.CachesLawful)
    (h : s.commitHead e = .next t) : t.CachesLawful := by
  obtain ⟨k, -, rfl⟩ | ⟨code, -, -, h⟩ | ⟨i, -, -, -, -, ⟨a, -, -, rfl⟩ | ⟨-, rfl⟩⟩ := State.commitHead_next h
  · exact ((Keeps.setPc s _).trans (Keeps.raise _ k)).caches hs
  · obtain ⟨u, hu, ⟨-, rfl⟩ | ⟨-, rfl⟩⟩ := State.commitSyscall_next h
    · exact (hs.commitCall hu).of_same rfl rfl rfl
    · exact hs.commitCall hu
  · exact (hs.commitStoreEntry a e.storeWidth e.value).of_same rfl rfl rfl
  · exact ((Keeps.commitDest s e).caches hs).of_same rfl rfl rfl

theorem State.CachesLawful.commitOne {s t : State} (hs : s.CachesLawful) (h : s.commitOne = .next t) :
    t.CachesLawful := by
  obtain ⟨e, -, ⟨-, -, h⟩ | ⟨-, rfl⟩⟩ := State.commitOne_next h
  · exact hs.commitHead h
  · exact hs

/-! The cycles. -/

theorem State.CachesLawful.runCycle {s t : State} (hs : s.CachesLawful) (h : s.runCycle = .next t) :
    t.CachesLawful := by
  obtain ⟨u, hu, ⟨-, h⟩ | ⟨-, rfl⟩⟩ := State.runCycle_next h
  · exact (Quiet.youngerPhases h).caches (hs.wbPhase hu)
  · exact hs.wbPhase hu

theorem State.CachesLawful.stepInOrder {s t : State} (hs : s.CachesLawful) (h : stepInOrder s = .next t) :
    t.CachesLawful := by
  obtain ⟨-, rfl⟩ | ⟨-, ⟨-, rfl⟩ | ⟨-, ⟨-, rfl⟩ | ⟨-, h⟩⟩⟩ := stepInOrder_next h
  · exact hs
  · exact hs
  · exact hs.endOfText
  · have counted : (s.countCycle.setPipe s.micro.pipe.countOccupancy).CachesLawful := hs
    exact counted.runCycle h

theorem State.CachesLawful.runOooCycle {s t : State} (hs : s.CachesLawful) (h : s.runOooCycle = .next t) :
    t.CachesLawful := by
  obtain ⟨u, hu, ht⟩ := State.runOooCycle_next h
  have committed : u.CachesLawful := State.commitPhase_keeps (fun hv _ h => hv.commitOne h) hs hu
  obtain ⟨-, h⟩ | ⟨-, rfl⟩ := ht
  · exact (Quiet.laterPhases h).caches committed
  · exact committed

theorem State.CachesLawful.stepOutOfOrder {s t : State} (hs : s.CachesLawful) (h : stepOutOfOrder s = .next t) :
    t.CachesLawful := by
  obtain ⟨-, rfl⟩ | ⟨-, ⟨-, rfl⟩ | ⟨-, ⟨-, rfl⟩ | ⟨-, h⟩⟩⟩ := stepOutOfOrder_next h
  · exact hs
  · exact hs
  · exact hs.endOfText
  · have counted : s.countCycle.CachesLawful := hs
    exact counted.runOooCycle h

/-- Settles O13, engine by engine: of what is not quiet, only the store that the out-of-order engine commits makes a
cache access, and every access keeps the laws. -/
theorem cacheCounterLaws : Obligations.CacheCounterLaws := by
  refine ⟨State.construct_cachesLawful, fun s t hs h => ?_⟩
  obtain ⟨-, ⟨-, h⟩ | ⟨-, h⟩ | ⟨-, h⟩⟩ := step_next h
  · exact hs.stepFunctional h
  · exact hs.stepInOrder h
  · exact hs.stepOutOfOrder h

end Sys2Proof.Machine
end

section
/-!
46_cache.md R322 to R335: one equation per outcome of an access, the set that each leaves behind, and where a lookup
then finds the line.
-/

namespace Sys2Proof.Machine

/-! Geometry (46_cache.md R323). -/

theorem indexOf_eq_of_blockOf_eq {c : CacheCfg} {a b : Nat} (h : c.blockOf b = c.blockOf a) :
    c.indexOf b = c.indexOf a := congrArg (· % c.numSets) h

theorem tagOf_eq_of_blockOf_eq {c : CacheCfg} {a b : Nat} (h : c.blockOf b = c.blockOf a) : c.tagOf b = c.tagOf a :=
  congrArg (· / c.numSets) h

/-! Victims (46_cache.md R332, R333). -/

theorem minWay_lt (r : Repl) (best : Line) {at_ i : Nat} (h : at_ < i) (ways : List Way) :
    minWay r best at_ i ways < i + ways.length := by
  induction ways generalizing best at_ i with
  | nil => exact h
  | cons w rest ih =>
    have later : ∀ best' {at'}, at' < i + 1 → minWay r best' at' (i + 1) rest < i + (rest.length + 1) := by
      intro best' at' h'
      have := ih best' h'
      omega
    cases w with
    | invalid n => exact later best (Nat.lt_succ_of_lt h)
    | valid l =>
      unfold minWay
      split
      · exact later l (Nat.lt_succ_self i)
      · exact later best (Nat.lt_succ_of_lt h)

section
variable {c : CacheCfg} {ways : List Way} (pos : 1 ≤ c.assoc) (full : ways.length = c.assoc)
include pos full

theorem policyWay_lt (free : Nat) : policyWay c ways free < ways.length := by
  unfold policyWay
  split
  · rw [full]; exact Nat.mod_lt _ pos
  · split
    · rename_i l rest
      have := minWay_lt c.repl l Nat.zero_lt_one rest
      rw [List.length_cons]
      omega
    · omega

theorem victimWay_lt (free : Nat) : victimWay c ways free < ways.length := by
  unfold victimWay
  split
  · rename_i way invalid
    exact (List.findIdx?_eq_some_iff_getElem.1 invalid).1
  · exact policyWay_lt pos full free

end

/-! Lookups (46_cache.md R324). -/

/-- A line put where the set held none of its tag is the one the lookup finds. -/
theorem lookupWay_set {tag way : Nat} {ways : List Way} {l : Line} (miss : lookupWay tag ways = none)
    (lt : way < ways.length) (carries : l.tag = tag) : lookupWay tag (ways.set way (.valid l)) = some way := by
  have others : ∀ (j : Nat) (hj : j < ways.length), wayHits tag ways[j] = false :=
    fun j hj => List.findIdx?_eq_none_iff.1 miss _ (List.getElem_mem hj)
  refine List.findIdx?_eq_some_iff_getElem.2 ⟨by rwa [List.length_set], ?_, fun j hj => ?_⟩
  · simp [wayHits, carries]
  · rw [List.getElem_set_ne (Nat.ne_of_gt hj), others]
    exact Bool.false_ne_true

/-! Outcomes of an access (46_cache.md R325 to R331). -/

section
variable {k : Cache} {c : CacheCfg} {a : Nat} {kind : AccessKind} {block : List Byte} {free : Nat}

theorem Cache.access_hits {way : Nat} (h : lookupWay (c.tagOf a) (k.sets.getD (c.indexOf a) []) = some way) :
    k.access c a kind block free = k.tick.onHit c a way kind := by
  simp only [Cache.access, Cache.accessSeeing, h]

section
variable (miss : lookupWay (c.tagOf a) (k.sets.getD (c.indexOf a) []) = none)
include miss

theorem Cache.access_allocates (h : allocates c kind = true) :
    k.access c a kind block free =
      k.tick.onAllocate c a (victimWay c (k.sets.getD (c.indexOf a) []) free) kind block
        (victimDraws c (k.sets.getD (c.indexOf a) [])) := by
  simp only [Cache.access, Cache.accessSeeing, miss, if_pos h]

theorem Cache.access_bypasses (h : allocates c kind = false) :
    k.access c a kind block free = k.tick.onBypass c a kind := by
  simp only [Cache.access, Cache.accessSeeing, miss, h, Bool.false_eq_true, if_false]

end

theorem Cache.access_hit_of_lookup (h : (lookupWay (c.tagOf a) (k.sets.getD (c.indexOf a) [])).isSome = true) :
    (k.access c a kind block free).hit = true := by
  obtain ⟨way, found⟩ := Option.isSome_iff_exists.1 h
  rw [Cache.access_hits found]
  rfl

/-! The set an access leaves (46_cache.md R333, R335). -/

@[simp] theorem Line.touch_tag (l : Line) (clock offset : Nat) : (l.touch c clock kind offset).tag = l.tag := by
  cases kind <;> rfl

@[simp] theorem Line.fresh_tag (tag clock offset : Nat) : (Line.fresh c tag clock block kind offset).tag = tag := by
  cases kind <;> rfl

variable {ways : List Way} (indexed : k.sets[c.indexOf a]? = some ways)
include indexed

theorem Cache.getD_sets : k.sets.getD (c.indexOf a) [] = ways := by
  rw [List.getD_eq_getElem?_getD, indexed, Option.getD_some]

theorem Cache.setWay_sets (way : Nat) (l : Line) :
    (k.setWay (c.indexOf a) way l).sets[c.indexOf a]? = some (ways.set way (.valid l)) := by
  simp [Cache.setWay, indexed]

/-- A hit replaces the line it found by its policy update. -/
theorem Cache.onHit_sets {way : Nat} (found : lookupWay (c.tagOf a) ways = some way) :
    ∃ l : Line, l.tag = c.tagOf a ∧ way < ways.length ∧
      (k.onHit c a way kind).cache.sets[c.indexOf a]? =
        some (ways.set way (.valid (l.touch c k.clock kind (c.offsetOf a)))) := by
  obtain ⟨l, -, tag, at_way, lt⟩ := lookupWay_some found
  refine ⟨l, tag, lt, ?_⟩
  simp [Cache.onHit, indexed, ← tag, modify_touch at_way]

/-- A miss that allocates puts the filled line where its victim was. -/
theorem Cache.onAllocate_sets (miss : lookupWay (c.tagOf a) ways = none) (victim : Nat) (drew : Bool) :
    (k.onAllocate c a victim kind block drew).cache.sets[c.indexOf a]? =
      some (ways.set victim (.valid (Line.fresh c (c.tagOf a) k.clock block kind (c.offsetOf a)))) := by
  simp only [Cache.onAllocate, Cache.getD_sets indexed, fillWay_miss miss]
  exact Cache.setWay_sets indexed victim _

/-- After an access that allocates on a miss, the set holds a valid line of the block, hit or miss. -/
theorem Cache.access_holds (pos : 1 ≤ c.assoc) (full : ways.length = c.assoc) (alloc : allocates c kind = true) :
    ∃ ways' l, (k.access c a kind block free).cache.sets[c.indexOf a]? = some ways' ∧ .valid l ∈ ways' ∧
      l.tag = c.tagOf a := by
  have ticked : k.tick.sets[c.indexOf a]? = some ways := indexed
  cases found : lookupWay (c.tagOf a) ways with
  | some way =>
    rw [Cache.access_hits (by rwa [Cache.getD_sets indexed])]
    obtain ⟨l, tag, lt, after⟩ := Cache.onHit_sets (kind := kind) ticked found
    exact ⟨_, _, after, List.mem_set lt _, by rw [Line.touch_tag, tag]⟩
  | none =>
    rw [Cache.access_allocates (by rwa [Cache.getD_sets indexed]) alloc, Cache.getD_sets indexed]
    exact ⟨_, _, Cache.onAllocate_sets ticked found _ _, List.mem_set (victimWay_lt pos full free) _,
      Line.fresh_tag _ _ _⟩

end

/-- Settles O54: the read leaves a valid line of the block in its set, and the other address has the same index and
tag. -/
theorem readBringsBlockIn : Obligations.ReadBringsBlockIn := by
  intro k c a b kind d e f g pos ⟨ways, indexed, full⟩ same
  obtain ⟨ways', l, after, held, tag⟩ :=
    Cache.access_holds (kind := .read) (block := d) (free := f) indexed pos full rfl
  apply Cache.access_hit_of_lookup
  rw [indexOf_eq_of_blockOf_eq same, tagOf_eq_of_blockOf_eq same, Cache.getD_sets after]
  exact lookupWay_isSome held tag

/-! Store misses (46_cache.md R328 to R331). -/

theorem passedDown_write (c : CacheCfg) (a : Nat) (bs : List Byte) :
    passedDown c a (.write bs) = if c.writePolicy = .writeThrough then some (a, bs) else none := by
  unfold passedDown
  cases c.writePolicy <;> rfl

theorem allocates_write_iff {c : CacheCfg} {bs : List Byte} :
    allocates c (.write bs) = true ↔ c.writePolicy = .writeBack ∨ c.writeAllocate = true := by
  unfold allocates
  cases c.writePolicy <;> simp

theorem allocates_write_eq_false {c : CacheCfg} {bs : List Byte} (through : c.writePolicy = .writeThrough)
    (noAllocate : c.writeAllocate = false) : allocates c (.write bs) = false := by
  simp only [allocates, through, noAllocate]

/-- Whether a store miss allocates or not, it misses and passes the store on by the write policy alone. -/
theorem Cache.access_storeMiss {k : Cache} {c : CacheCfg} {a : Nat} {bs block : List Byte} {free : Nat}
    (miss : lookupWay (c.tagOf a) (k.sets.getD (c.indexOf a) []) = none) :
    (k.access c a (.write bs) block free).hit = false ∧
      (k.access c a (.write bs) block free).passDown = passedDown c a (.write bs) := by
  cases alloc : allocates c (.write bs) with
  | true => rw [Cache.access_allocates miss alloc]; exact ⟨rfl, rfl⟩
  | false => rw [Cache.access_bypasses miss alloc]; exact ⟨rfl, rfl⟩

/-- Settles O55, by the two outcomes of a store miss: the victim lies in the set, so the lookup finds the filled
line. -/
theorem storeMissAllocation : Obligations.StoreMissAllocation := by
  rintro k c a bs d f _ pos ⟨ways, indexed, full⟩ miss rfl
  obtain ⟨missed, passed⟩ := Cache.access_storeMiss (bs := bs) (block := d) (free := f) miss
  refine ⟨missed, passed.trans (passedDown_write c a bs), fun through noAllocate => ?bypass, fun alloc => ?allocate⟩
  case bypass =>
    rw [Cache.access_bypasses miss (allocates_write_eq_false through noAllocate)]
    exact ⟨rfl, rfl⟩
  case allocate =>
    have lt : victimWay c ways f < ways.length := victimWay_lt pos full f
    have ticked : k.tick.sets[c.indexOf a]? = some ways := indexed
    rw [Cache.access_allocates miss (allocates_write_iff.2 alloc), Cache.getD_sets indexed]
    rw [Cache.getD_sets indexed] at miss
    exact ⟨rfl, _, _, _, Cache.onAllocate_sets ticked miss _ _, lookupWay_set miss lt rfl, List.getElem?_set_self lt,
      rfl, rfl, rfl⟩

end Sys2Proof.Machine
end

section
/-!
48_pipeline_inorder.md R389, R399; 49_ooo_engine.md R470, invariant (a): in the timing engines WB and commit alone change
the architectural state. Every other phase is quiet (`Quiet`), so a cycle commits what its one committing phase does.
-/

namespace Sys2Proof.Machine

/-- Nothing architectural differs but the run status, and no instruction has committed. -/
def CommitsNothing (s t : State) : Prop :=
  SameArch s { t with status := s.status } ∧ t.micro.committed = s.micro.committed

/-! A cycle in which nothing commits. -/

theorem SameArch.withStatus {s t : State} (h : SameArch s t) : SameArch s { t with status := s.status } :=
  { h with status := rfl }

theorem Quiet.commitsNothing {s t : State} (q : Quiet s t) : CommitsNothing s t := ⟨q.arch.withStatus, q.committed⟩

theorem CommitsNothing.setStatus (s : State) (r : RunStatus) : CommitsNothing s (s.setStatus r) :=
  ⟨SameArch.refl s, rfl⟩

theorem CommitsNothing.endOfText (s : State) : CommitsNothing s s.endOfText := by
  rw [State.endOfText_eq]
  exact ⟨SameArch.refl s, rfl⟩

/-- The counting of a cycle is invisible to `CommitsNothing`. -/
theorem CommitsNothing.of_countCycle {s t : State} (h : CommitsNothing s.countCycle t) : CommitsNothing s t := by
  obtain ⟨arch, committed⟩ := h
  exact ⟨{ arch with }, committed⟩

/-! The in-order pipeline. -/

theorem State.wbPhase_of_bubble {s : State} (bubble : s.micro.pipe.wbs = none) : s.wbPhase = .next s := by
  rw [State.wbPhase, bubble]

theorem Quiet.runCycle {s t : State} (bubble : s.micro.pipe.wbs = none) (h : s.runCycle = .next t) : Quiet s t := by
  obtain ⟨u, hu, ht⟩ := State.runCycle_next h
  obtain rfl : s = u := by simpa [State.wbPhase_of_bubble bubble] using hu
  obtain ⟨-, h⟩ | ⟨-, rfl⟩ := ht
  · exact Quiet.youngerPhases h
  · exact Quiet.refl t

theorem CommitsNothing.stepInOrder {s t : State} (bubble : s.micro.pipe.wbs = none) (h : stepInOrder s = .next t) :
    CommitsNothing s t := by
  obtain ⟨-, rfl⟩ | ⟨-, ⟨-, rfl⟩ | ⟨-, ⟨-, rfl⟩ | ⟨-, h⟩⟩⟩ := stepInOrder_next h
  · exact (Quiet.refl t).commitsNothing
  · exact CommitsNothing.setStatus s _
  · exact CommitsNothing.endOfText s
  · have still : (s.countCycle.setPipe s.micro.pipe.countOccupancy).micro.pipe.wbs = none := bubble
    exact (((Quiet.setPipe _ _).trans (Quiet.runCycle still h)).commitsNothing).of_countCycle

@[simp] theorem State.endOfText_micro (s : State) : s.endOfText.micro = s.micro := by rw [State.endOfText_eq]

/-- A call counts as committed at most once, whichever way it ends. -/
theorem State.commitCall_committed {s t : State} {code : BitVec 20} {pc : Word} (h : s.commitCall code pc = .next t) :
    t.micro.committed ≤ s.micro.committed + 1 := by
  obtain ⟨u, hu, ht⟩ := State.commitCall_next h
  have called : u.micro.committed = s.micro.committed := congrArg Micro.committed (exec_keeps hu).micro
  obtain ⟨-, rfl⟩ | ⟨-, rfl⟩ | ⟨-, -, rfl⟩ := ht
  · exact Nat.succ_le_succ called.le
  · exact Nat.succ_le_succ called.le
  · exact Nat.le_succ_of_le called.le

theorem State.raise_committed (s : State) (a : Word) (k : FaultKind) :
    ((s.setPc a).raise k).micro.committed = s.micro.committed :=
  congrArg Micro.committed (Keeps.raise (s.setPc a) k).micro

theorem State.writeNames_committed (s : State) (ws : List (RegName × Word)) :
    (s.writeNames ws).micro.committed = s.micro.committed := congrArg Micro.committed (Keeps.writeNames s ws).micro

theorem State.applyStore_committed (s : State) (w : Option (Nat × List Byte)) :
    (s.applyStore w).micro.committed = s.micro.committed := by
  cases w <;> rfl

theorem State.retireSlot_committed {s t : State} {w : Slot} (h : s.retireSlot w = .next t) :
    t.micro.committed ≤ s.micro.committed + 1 := by
  obtain ⟨k, -, rfl⟩ | ⟨code, -, -, h⟩ | ⟨-, -, -, rfl⟩ := State.retireSlot_next h
  · exact Nat.le_succ_of_le (s.raise_committed _ k).le
  · exact State.commitCall_committed h
  · exact Nat.succ_le_succ ((State.applyStore_committed _ _).trans (State.writeNames_committed _ _)).le

theorem State.wbPhase_committed {s t : State} (h : s.wbPhase = .next t) :
    t.micro.committed ≤ s.micro.committed + 1 := by
  obtain ⟨-, rfl⟩ | ⟨w, -, -, h⟩ := State.wbPhase_next h
  · exact Nat.le_succ _
  · have retired := State.retireSlot_committed h
    exact retired

theorem State.runCycle_committed {s t : State} (h : s.runCycle = .next t) :
    t.micro.committed ≤ s.micro.committed + 1 := by
  obtain ⟨u, hu, ⟨-, h⟩ | ⟨-, rfl⟩⟩ := State.runCycle_next h
  · exact (Quiet.youngerPhases h).committed.trans_le (State.wbPhase_committed hu)
  · exact State.wbPhase_committed hu

theorem stepInOrder_committed {s t : State} (h : stepInOrder s = .next t) :
    t.micro.committed ≤ s.micro.committed + 1 := by
  obtain ⟨-, rfl⟩ | ⟨-, ⟨-, rfl⟩ | ⟨-, ⟨-, rfl⟩ | ⟨-, h⟩⟩⟩ := stepInOrder_next h
  · exact Nat.le_succ _
  · exact Nat.le_succ _
  · rw [State.endOfText_micro]
    exact Nat.le_succ _
  · have cycle := State.runCycle_committed h
    exact cycle

theorem step_inOrder {s t : State} (engine : s.cfg.engine = .inOrder) (h : step s = .next t) :
    stepInOrder s = .next t := by
  obtain ⟨-, ⟨e, -⟩ | ⟨-, h⟩ | ⟨e, -⟩⟩ := step_next h
  · rw [engine] at e; cases e
  · exact h
  · rw [engine] at e; cases e

/-- Settles O56: a cycle with a bubble in WB is quiet, and WB retires one slot. -/
theorem pipelineWritesOnlyInWriteback : Obligations.PipelineWritesOnlyInWriteback := by
  intro s t engine h
  have cycle := step_inOrder engine h
  exact ⟨fun bubble => CommitsNothing.stepInOrder bubble cycle, stepInOrder_committed cycle⟩

/-! The out-of-order engine. -/

/-- An empty buffer has no head to commit, and a head that is not ready waits (49_ooo_engine.md R470). -/
theorem State.canCommit_eq_false {s : State}
    (h : s.micro.ooo.count = 0 ∨ ∃ e, s.micro.ooo.entry s.micro.ooo.head = some e ∧ e.ready = false) :
    s.canCommit = false := by
  unfold State.canCommit
  split
  · obtain empty | ⟨e, head, waits⟩ := h
    · simp [empty]
    · simp [head, waits]
  · rfl

theorem State.commitPhase_of_idle {s : State} (idle : s.canCommit = false) (n : Nat) :
    State.commitPhase n s = .next s := by
  cases n with
  | zero => rfl
  | succ k => simp [State.commitPhase, idle]

theorem Quiet.runOooCycle {s t : State} (idle : s.canCommit = false) (h : s.runOooCycle = .next t) : Quiet s t := by
  obtain ⟨u, hu, ht⟩ := State.runOooCycle_next h
  obtain rfl : s = u := by simpa [State.commitPhase_of_idle idle] using hu
  obtain ⟨-, h⟩ | ⟨-, rfl⟩ := ht
  · exact Quiet.laterPhases h
  · exact Quiet.refl t

theorem CommitsNothing.stepOutOfOrder {s t : State} (idle : s.canCommit = false) (h : stepOutOfOrder s = .next t) :
    CommitsNothing s t := by
  obtain ⟨-, rfl⟩ | ⟨-, ⟨-, rfl⟩ | ⟨-, ⟨-, rfl⟩ | ⟨-, h⟩⟩⟩ := stepOutOfOrder_next h
  · exact (Quiet.refl t).commitsNothing
  · exact CommitsNothing.setStatus s _
  · exact CommitsNothing.endOfText s
  · have still : s.countCycle.canCommit = false := idle
    exact (Quiet.runOooCycle still h).commitsNothing.of_countCycle

theorem State.commitStoreEntry_committed (s : State) (a width : Nat) (v : BitVec 64) :
    (s.commitStoreEntry a width v).micro.committed = s.micro.committed := (Quiet.accessL1D s a _).committed

theorem State.commitHead_committed {s t : State} {e : RobEntry} (h : s.commitHead e = .next t) :
    t.micro.committed ≤ s.micro.committed + 1 := by
  obtain ⟨k, -, rfl⟩ | ⟨code, -, -, h⟩ | ⟨i, -, -, -, -, ⟨a, -, -, rfl⟩ | ⟨-, rfl⟩⟩ := State.commitHead_next h
  · exact Nat.le_succ_of_le (s.raise_committed _ k).le
  · obtain ⟨u, hu, ⟨-, rfl⟩ | ⟨-, rfl⟩⟩ := State.commitSyscall_next h
    all_goals
      have called := State.commitCall_committed hu
      exact called
  · exact Nat.succ_le_succ (s.commitStoreEntry_committed a _ _).le
  · exact Nat.succ_le_succ (congrArg Micro.committed (Keeps.commitDest s e).micro).le

theorem State.commitOne_committed {s t : State} (h : s.commitOne = .next t) :
    t.micro.committed ≤ s.micro.committed + 1 := by
  obtain ⟨e, -, ⟨-, -, h⟩ | ⟨-, rfl⟩⟩ := State.commitOne_next h
  · exact State.commitHead_committed h
  · exact Nat.le_succ _

theorem State.commitPhase_succ_next {k : Nat} {s t : State} (h : State.commitPhase (k + 1) s = .next t) :
    (s.canCommit = false ∧ t = s) ∨
      ∃ u, s.canCommit = true ∧ s.commitOne = .next u ∧ State.commitPhase k u = .next t := by
  unfold State.commitPhase at h
  split at h
  · rename_i can
    split at h
    · rename_i u hu
      exact .inr ⟨u, can, hu, h⟩
    · rename_i hn
      exact absurd h (hn t)
  · rename_i cannot
    cases h; exact .inl ⟨Bool.eq_false_iff.2 cannot, rfl⟩

/-- By induction on the heads that the phase may still commit. -/
theorem State.commitPhase_committed {n : Nat} {s t : State} (h : State.commitPhase n s = .next t) :
    t.micro.committed ≤ s.micro.committed + n := by
  induction n generalizing s with
  | zero => cases h; exact Nat.le_refl _
  | succ k ih =>
    obtain ⟨-, rfl⟩ | ⟨u, -, hu, h⟩ := State.commitPhase_succ_next h
    · exact Nat.le_add_right _ _
    · have first := State.commitOne_committed hu
      have rest := ih h
      omega

theorem State.runOooCycle_committed {s t : State} (h : s.runOooCycle = .next t) :
    t.micro.committed ≤ s.micro.committed + s.cfg.commitWidth := by
  obtain ⟨u, hu, ⟨-, h⟩ | ⟨-, rfl⟩⟩ := State.runOooCycle_next h
  · exact (Quiet.laterPhases h).committed.trans_le (State.commitPhase_committed hu)
  · exact State.commitPhase_committed hu

theorem stepOutOfOrder_committed {s t : State} (h : stepOutOfOrder s = .next t) :
    t.micro.committed ≤ s.micro.committed + s.cfg.commitWidth := by
  obtain ⟨-, rfl⟩ | ⟨-, ⟨-, rfl⟩ | ⟨-, ⟨-, rfl⟩ | ⟨-, h⟩⟩⟩ := stepOutOfOrder_next h
  · exact Nat.le_add_right _ _
  · exact Nat.le_add_right _ _
  · rw [State.endOfText_micro]
    exact Nat.le_add_right _ _
  · have cycle := State.runOooCycle_committed h
    exact cycle

theorem step_outOfOrder {s t : State} (engine : s.cfg.engine = .outOfOrder) (h : step s = .next t) :
    stepOutOfOrder s = .next t := by
  obtain ⟨-, ⟨e, -⟩ | ⟨e, -⟩ | ⟨-, h⟩⟩ := step_next h
  · rw [engine] at e; cases e
  · rw [engine] at e; cases e
  · exact h

/-- Settles O57: a cycle whose commit phase is idle is quiet, and each turn of that phase commits one head at most. -/
theorem outOfOrderWritesOnlyAtCommit : Obligations.OutOfOrderWritesOnlyAtCommit := by
  intro s t engine h
  have cycle := step_outOfOrder engine h
  exact ⟨fun waits => CommitsNothing.stepOutOfOrder (State.canCommit_eq_false waits) cycle,
    stepOutOfOrder_committed cycle⟩

end Sys2Proof.Machine
end

section
/-!
49_ooo_engine.md R431, R482 (property 5): the reorder buffer stays within its capacity. The in-order engine and the caches
leave the out-of-order engine alone; of its own phases only dispatch adds an entry, and tests the capacity first (R457).
-/

namespace Sys2Proof.Machine

/-- The reorder buffer is within its capacity. -/
def State.RobFits (s : State) : Prop := s.micro.ooo.count ≤ s.cfg.robCapacity

theorem State.RobFits.of_le {s t : State} (h : s.RobFits) (cfg : t.cfg = s.cfg)
    (count : t.micro.ooo.count ≤ s.micro.ooo.count) : t.RobFits := by
  unfold State.RobFits
  rw [cfg]
  exact count.trans h

theorem Keeps.robFits {s t : State} (k : Keeps s t) (h : s.RobFits) : t.RobFits :=
  h.of_le k.cfg (congrArg (fun m : Micro => m.ooo.count) k.micro).le

/-! What leaves the out-of-order engine alone: the caches. -/

@[simp] theorem State.drawnIf_ooo (s : State) (b : Bool) : (s.drawnIf b).micro.ooo = s.micro.ooo := by
  cases b <;> rfl

@[simp] theorem State.accessL2_ooo (s : State) (a : Nat) (kind : AccessKind) :
    (s.accessL2 a kind).2.micro.ooo = s.micro.ooo := by
  unfold State.accessL2
  split
  · exact State.drawnIf_ooo _ _
  · rfl

@[simp] theorem State.sendDown_ooo (s : State) (w : Option (Nat × List Byte)) :
    (s.sendDown w).micro.ooo = s.micro.ooo := by
  cases w with
  | none => rfl
  | some w => exact State.accessL2_ooo s _ _

@[simp] theorem State.fillFrom_ooo (s : State) (f : Option Nat) : (s.fillFrom f).2.micro.ooo = s.micro.ooo := by
  cases f with
  | none => rfl
  | some a => exact State.accessL2_ooo s a _

@[simp] theorem State.nextLevel_ooo (s : State) (r : Access) : (s.nextLevel r).2.micro.ooo = s.micro.ooo := by
  simp [State.nextLevel]

@[simp] theorem State.accessL1I_ooo (s : State) (a : Nat) : (s.accessL1I a).2.micro.ooo = s.micro.ooo := by
  simp [State.accessL1I]

@[simp] theorem State.accessL1D_ooo (s : State) (a : Nat) (kind : AccessKind) :
    (s.accessL1D a kind).2.micro.ooo = s.micro.ooo := by
  simp [State.accessL1D]

@[simp] theorem State.accessL2Seeing_ooo (s seen : State) (a : Nat) (kind : AccessKind) :
    (s.accessL2Seeing seen a kind).micro.ooo = s.micro.ooo := by
  unfold State.accessL2Seeing
  split <;> rfl

@[simp] theorem State.sendDownSeeing_ooo (s seen : State) (w : Option (Nat × List Byte)) :
    (s.sendDownSeeing seen w).micro.ooo = s.micro.ooo := by
  cases w with
  | none => rfl
  | some w => exact State.accessL2Seeing_ooo s seen _ _

@[simp] theorem State.fillFromSeeing_ooo (s seen : State) (f : Option Nat) :
    (s.fillFromSeeing seen f).micro.ooo = s.micro.ooo := by
  cases f with
  | none => rfl
  | some a => exact State.accessL2Seeing_ooo s seen a _

@[simp] theorem State.readL1DFrom_ooo (s start : State) (a : Nat) :
    (s.readL1DFrom start a).2.micro.ooo = s.micro.ooo := by
  simp [State.readL1DFrom]

/-! What leaves the out-of-order engine alone: single updates and the in-order pipeline. -/

@[simp] theorem State.setPipe_ooo (s : State) (p : Pipe) : (s.setPipe p).micro.ooo = s.micro.ooo := rfl
@[simp] theorem State.setFetchPc_ooo (s : State) (a : Word) : (s.setFetchPc a).micro.ooo = s.micro.ooo := rfl
@[simp] theorem State.stallStructural_ooo (s : State) : s.stallStructural.micro.ooo = s.micro.ooo := rfl
@[simp] theorem State.resolve_ooo (s : State) (pc : Word) (b : Bool) (p n : Word) :
    (s.resolve pc b p n).micro.ooo = s.micro.ooo := rfl
@[simp] theorem State.faultInMem_ooo (s : State) (m : Slot) (k : FaultKind) :
    (s.faultInMem m k).micro.ooo = s.micro.ooo := rfl
@[simp] theorem State.faultInEx_ooo (s : State) (e : Slot) (k : FaultKind) :
    (s.faultInEx e k).micro.ooo = s.micro.ooo := rfl
@[simp] theorem State.faultInId_ooo (s : State) (d : Slot) (k : FaultKind) :
    (s.faultInId d k).micro.ooo = s.micro.ooo := rfl
@[simp] theorem State.flush_ooo (s : State) : s.flush.micro.ooo = s.micro.ooo := rfl

@[simp] theorem State.beginAccess_ooo (s : State) (m : Slot) (i : Instr) (op : MemOp) :
    (s.beginAccess m i op).micro.ooo = s.micro.ooo := by
  unfold State.beginAccess
  simp only
  split <;> simp

@[simp] theorem State.advanceAccess_ooo (s : State) : s.advanceAccess.micro.ooo = s.micro.ooo := by
  unfold State.advanceAccess State.continueAccess
  split
  · rfl
  · split
    · split
      · split <;> simp
      · rfl
    · rfl

@[simp] theorem State.memPhase_ooo (s : State) : s.memPhase.micro.ooo = s.micro.ooo := by
  unfold State.memPhase
  split <;> simp

@[simp] theorem State.executeAddress_ooo (s : State) (e : Slot) (op : MemOp) :
    (s.executeAddress e op).micro.ooo = s.micro.ooo := by
  unfold State.executeAddress
  split <;> simp

@[simp] theorem State.resolveInEx_ooo (s : State) (e : Slot) (c : Computed) :
    (s.resolveInEx e c).1.micro.ooo = s.micro.ooo := by
  unfold State.resolveInEx
  simp only
  split <;> simp

@[simp] theorem State.executeValue_ooo (s : State) (e : Slot) (i : Instr) :
    (s.executeValue e i).1.micro.ooo = s.micro.ooo := by
  unfold State.executeValue
  simp only
  split
  · simp
  · split <;> simp

@[simp] theorem State.exPhase_ooo (s : State) (wb : Option Slot) : (s.exPhase wb).1.micro.ooo = s.micro.ooo := by
  unfold State.exPhase
  split
  · rfl
  · split
    · split
      · rfl
      · simp only
        split <;> simp
    · rfl

@[simp] theorem State.readOperands_ooo (s : State) (d : Slot) (i : Instr) (wb : Option Slot) :
    (s.readOperands d i wb).1.micro.ooo = s.micro.ooo := by
  unfold State.readOperands
  simp only
  split
  · rfl
  · split <;> rfl

@[simp] theorem State.idPhase_ooo (s : State) (wb : Option Slot) : (s.idPhase wb).1.micro.ooo = s.micro.ooo := by
  unfold State.idPhase
  split
  · rfl
  · split
    · rfl
    · simp
    · split <;> simp

@[simp] theorem State.idPhaseUnless_ooo (s : State) (hold : Bool) (wb : Option Slot) :
    (s.idPhaseUnless hold wb).1.micro.ooo = s.micro.ooo := by
  unfold State.idPhaseUnless
  split <;> simp

theorem State.beginFetch_ooo {s t : State} (h : s.beginFetch = .next t) : t.micro.ooo = s.micro.ooo := by
  unfold State.beginFetch at h
  simp only at h
  split at h
  · cases h; rfl
  · split at h
    · cases h; rfl
    · split at h
      · cases h
      · cases h; simp

theorem State.ifPhaseUnless_ooo {s t : State} {r : Option Word} {hold : Bool} (h : s.ifPhaseUnless r hold = .next t) :
    t.micro.ooo = s.micro.ooo := by
  unfold State.ifPhaseUnless at h
  split at h
  · cases h; rfl
  · unfold State.ifPhase at h
    split at h
    · split at h <;> cases h <;> rfl
    · split at h
      · cases h; rfl
      · exact State.beginFetch_ooo h

@[simp] theorem State.countSerialising_ooo (s : State) : s.countSerialising.micro.ooo = s.micro.ooo := by
  unfold State.countSerialising
  split <;> rfl

@[simp] theorem State.followFetch_ooo (s : State) : s.followFetch.micro.ooo = s.micro.ooo := by
  unfold State.followFetch
  split
  · split <;> rfl
  · rfl

@[simp] theorem State.advanceStages_ooo (s : State) (hold stall : Bool) :
    (s.advanceStages hold stall).micro.ooo = s.micro.ooo := by
  unfold State.advanceStages
  simp only
  split
  · rfl
  · split
    · rfl
    · split <;> simp

@[simp] theorem State.applyRedirect_ooo (s : State) (r : Option Word) :
    (s.applyRedirect r).micro.ooo = s.micro.ooo := by
  cases r <;> rfl

theorem State.youngerPhases_ooo {s t : State} {wb : Option Slot} (h : s.youngerPhases wb = .next t) :
    t.micro.ooo = s.micro.ooo := by
  unfold State.youngerPhases at h
  simp only at h
  split at h
  · rename_i u hu
    cases h
    simp [State.ifPhaseUnless_ooo hu]
  · rename_i hn
    exact absurd h (hn t)

/-! Counts: updates of the out-of-order engine's state that keep the number of entries. -/

@[simp] theorem State.setOoo_ooo (s : State) (o : Ooo) : (s.setOoo o).micro.ooo = o := rfl
@[simp] theorem Ooo.setFu_count (o : Ooo) (f : Fu) (c : FuClass) : (o.setFu f c).count = o.count := by cases f <;> rfl
@[simp] theorem Ooo.setExec_count (o : Ooo) (f : Fu) (x : Exec) : (o.setExec f x).count = o.count :=
  Ooo.setFu_count o f _
@[simp] theorem Ooo.setAddress_count (o : Ooo) (f : Fu) (station a : Nat) :
    (o.setAddress f station a).count = o.count := Ooo.setFu_count o f _
@[simp] theorem Ooo.allocate_count (o : Ooo) (cap : Nat) (e : RobEntry) : (o.allocate cap e).count = o.count + 1 := rfl

@[simp] theorem Ooo.rename_count (o : Ooo) (dest : Option Nat) (id : Nat) : (o.rename dest id).count = o.count := by
  unfold Ooo.rename
  split
  · split <;> rfl
  · rfl

theorem Ooo.freeHead_count (o : Ooo) (cap : Nat) (e : RobEntry) : (o.freeHead cap e).count = o.count - 1 := by
  unfold Ooo.freeHead
  split
  · split <;> rfl
  · rfl

theorem Ooo.broadcast_count (o : Ooo) (id : Nat) : (o.broadcast id).count = o.count := by
  unfold Ooo.broadcast
  split
  · split <;> rfl
  · rfl

@[simp] theorem Ooo.writeback_count (o : Ooo) (cap width : Nat) : (o.writeback cap width).count = o.count := by
  unfold Ooo.writeback
  induction ((o.ids cap).filter o.isComplete).take width generalizing o with
  | nil => rfl
  | cons id rest ih => exact (ih _).trans (Ooo.broadcast_count o id)

/-- A squash keeps some of the entries. -/
theorem Ooo.squash_count (o : Ooo) (cap b : Nat) : (o.squash cap b).count ≤ o.count := by
  show ((o.ids cap).take (o.age cap b + 1)).length ≤ o.count
  have all : (o.ids cap).length = o.count := by simp [Ooo.ids]
  rw [List.length_take, all]
  exact Nat.min_le_right _ _

/-! Counts: the execute phase. -/

@[simp] theorem State.completeFaulted_count (s : State) (f : Fu) (x : Exec) (k : FaultKind) :
    (s.completeFaulted f x k).micro.ooo.count = s.micro.ooo.count := Ooo.setExec_count _ f _

@[simp] theorem State.resolveEntry_count (s : State) (id : Nat) (pc : Word) (c : Computed) :
    (s.resolveEntry id pc c).micro.ooo.count = s.micro.ooo.count := by
  unfold State.resolveEntry
  split
  · simp only
    split <;> rfl
  · rfl

@[simp] theorem State.completeValue_count (s : State) (f : Fu) (x : Exec) (t : Station) :
    (s.completeValue f x t).micro.ooo.count = s.micro.ooo.count := by
  unfold State.completeValue
  split
  · simp
  · simp only
    split
    · simp
    · split <;> simp

@[simp] theorem State.tryLoad_count (s start : State) (f : Fu) (x : Exec) (t : Station) (a : Nat) :
    (s.tryLoad start f x t a).micro.ooo.count = s.micro.ooo.count := by
  unfold State.tryLoad State.accessLoad
  simp only
  split <;> simp

@[simp] theorem State.completeAddress_count (s start : State) (f : Fu) (x : Exec) (t : Station) (m : MemOp) :
    (s.completeAddress start f x t m).micro.ooo.count = s.micro.ooo.count := by
  unfold State.completeAddress
  split
  · simp
  · simp only
    split
    · simp
    · split <;> simp

@[simp] theorem State.advanceExec_count (s start : State) (f : Fu) (x : Exec) (t : Station) :
    (s.advanceExec start f x t).micro.ooo.count = s.micro.ooo.count := by
  unfold State.advanceExec State.completeExec
  split
  · split <;> simp
  · simp

theorem State.executeEntry_count (start s : State) (id : Nat) :
    (start.executeEntry s id).micro.ooo.count = s.micro.ooo.count := by
  unfold State.executeEntry
  split
  · split
    · exact State.advanceExec_count s start _ _ _
    · rfl
  · rfl

theorem State.foldl_executeEntry_count (start : State) (ids : List Nat) (s : State) :
    (ids.foldl start.executeEntry s).micro.ooo.count = s.micro.ooo.count := by
  induction ids generalizing s with
  | nil => rfl
  | cons id rest ih => exact (ih _).trans (State.executeEntry_count start s id)

@[simp] theorem State.executePhase_count (s : State) : s.executePhase.micro.ooo.count = s.micro.ooo.count :=
  State.foldl_executeEntry_count s _ s

/-! Dispatch, fetch and squash. -/

theorem State.endFetch_count (s : State) : s.endFetch.micro.ooo.count = s.micro.ooo.count := rfl

theorem State.dispatchFault_count (s : State) (r : FetchRec) (k : FaultKind) :
    (s.dispatchFault r k).micro.ooo.count = s.micro.ooo.count + 1 := rfl

theorem State.dispatchInstr_count (s : State) (r : FetchRec) (i : Instr) (k : Nat) :
    (s.dispatchInstr r i k).micro.ooo.count = s.micro.ooo.count + 1 := by
  unfold State.dispatchInstr
  simp only
  split <;> simp [State.endFetch_count]

/-- What is dispatched found a buffer that does not wait and room for an entry, and takes one
entry (49_ooo_engine.md R454, R457). -/
theorem State.dispatchOne_some {s t : State} (h : s.dispatchOne = some t) :
    s.micro.ooo.fqWait = 0 ∧ s.micro.ooo.count < s.cfg.robCapacity ∧
      t.micro.ooo.count = s.micro.ooo.count + 1 := by
  unfold State.dispatchOne at h
  simp only at h
  split at h
  · cases h
  split at h
  · cases h
  rename_i r _ _ stalls
  obtain ⟨waits, full⟩ := not_or.1 stalls
  refine ⟨not_not.1 waits, not_le.1 full, ?_⟩
  split at h
  · cases h; exact s.dispatchFault_count r _
  · split at h
    · cases h; exact s.dispatchFault_count r _
    · obtain ⟨k, -, rfl⟩ := Option.map_eq_some_iff.1 h
      exact s.dispatchInstr_count r _ k

theorem State.RobFits.dispatchPhase {s : State} (h : s.RobFits) (n : Nat) : (State.dispatchPhase n s).RobFits := by
  induction n generalizing s with
  | zero => exact h
  | succ k ih =>
    unfold State.dispatchPhase
    split
    · rename_i t ht
      obtain ⟨-, room, one⟩ := State.dispatchOne_some ht
      have fits : t.RobFits := by
        unfold State.RobFits
        rw [one, (Quiet.dispatchOne ht).arch.cfg]
        exact room
      exact ih fits
    · exact h

@[simp] theorem State.pushFetch_count (s : State) (r : FetchRec) (l : Nat) :
    (s.pushFetch r l).micro.ooo.count = s.micro.ooo.count := rfl

theorem State.fetchGroup_count {n l : Nat} {s t : State} (h : State.fetchGroup n l s = .next t) :
    t.micro.ooo.count = s.micro.ooo.count := by
  induction n generalizing l s with
  | zero => cases h; rfl
  | succ k ih =>
    unfold State.fetchGroup at h
    simp only at h
    split at h
    · cases h; rfl
    · split at h
      · cases h; rfl
      · split at h
        · cases h; rfl
        · split at h
          · cases h
          · simpa using ih h

theorem State.fetchPhase_count {s t : State} (h : s.fetchPhase = .next t) :
    t.micro.ooo.count = s.micro.ooo.count := by
  unfold State.fetchPhase at h
  split at h
  · cases h; rfl
  · split at h
    · exact State.fetchGroup_count h
    · cases h; rfl

theorem State.squashPhase_count (s : State) : s.squashPhase.micro.ooo.count ≤ s.micro.ooo.count := by
  unfold State.squashPhase
  split
  · exact Nat.le_refl _
  · exact Ooo.squash_count _ _ _

theorem State.RobFits.writeback {s : State} (h : s.RobFits) (cap width : Nat) :
    (s.setOoo (s.micro.ooo.writeback cap width)).RobFits := h.of_le rfl (Ooo.writeback_count _ cap width).le

theorem State.RobFits.executePhase {s : State} (h : s.RobFits) : s.executePhase.RobFits :=
  h.of_le (Quiet.executePhase s).arch.cfg s.executePhase_count.le

theorem State.RobFits.issuePhase {s : State} (h : s.RobFits) :
    (s.setOoo (s.micro.ooo.issuePhase s.cfg)).RobFits := h

theorem State.RobFits.laterPhases {s t : State} (hs : s.RobFits) (h : s.laterPhases = .next t) : t.RobFits := by
  unfold State.laterPhases at h
  simp only at h
  split at h
  · rename_i u hu
    cases h
    have executed := (hs.writeback s.cfg.robCapacity s.cfg.cdbWidth).executePhase
    have fetched := (executed.issuePhase.dispatchPhase _).of_le (Quiet.fetchPhase hu).arch.cfg
      (State.fetchPhase_count hu).le
    exact fetched.of_le (Quiet.squashPhase u).arch.cfg u.squashPhase_count
  · rename_i hn
    exact absurd h (hn t)

/-! The phases that commit. -/

theorem State.RobFits.commitCall {s t : State} {code : BitVec 20} {pc : Word} (hs : s.RobFits)
    (h : s.commitCall code pc = .next t) : t.RobFits := by
  obtain ⟨u, hu, ht⟩ := State.commitCall_next h
  have called : u.RobFits := (exec_keeps hu).robFits ((Keeps.setPc s pc).robFits hs)
  obtain ⟨-, rfl⟩ | ⟨-, rfl⟩ | ⟨-, -, rfl⟩ := ht <;> exact called

theorem State.RobFits.applyStore {s : State} (h : s.RobFits) (w : Option (Nat × List Byte)) :
    (s.applyStore w).RobFits := by
  cases w <;> exact h

theorem State.RobFits.retireSlot {s t : State} {w : Slot} (hs : s.RobFits) (h : s.retireSlot w = .next t) :
    t.RobFits := by
  obtain ⟨k, -, rfl⟩ | ⟨code, -, -, h⟩ | ⟨-, -, -, rfl⟩ := State.retireSlot_next h
  · exact ((Keeps.setPc s _).trans (Keeps.raise _ k)).robFits hs
  · exact hs.commitCall h
  · exact ((Keeps.writeNames s _).robFits hs).applyStore _

theorem State.RobFits.freeHead {s : State} (h : s.RobFits) (e : RobEntry) : (s.freeHead e).RobFits :=
  h.of_le (s.freeHead_cfg e) ((Ooo.freeHead_count _ _ e).trans_le (Nat.sub_le _ 1))

theorem State.RobFits.commitStoreEntry {s : State} (h : s.RobFits) (a width : Nat) (v : BitVec 64) :
    (s.commitStoreEntry a width v).RobFits :=
  h.of_le (s.commitStoreEntry_cfg a width v) (congrArg Ooo.count (s.accessL1D_ooo a _)).le

theorem State.RobFits.commitHead {s t : State} {e : RobEntry} (hs : s.RobFits) (h : s.commitHead e = .next t) :
    t.RobFits := by
  obtain ⟨k, -, rfl⟩ | ⟨code, -, -, h⟩ | ⟨i, -, -, -, -, ⟨a, -, -, rfl⟩ | ⟨-, rfl⟩⟩ := State.commitHead_next h
  · exact ((Keeps.setPc s _).trans (Keeps.raise _ k)).robFits hs
  · obtain ⟨u, hu, ⟨-, rfl⟩ | ⟨-, rfl⟩⟩ := State.commitSyscall_next h
    · exact (hs.commitCall hu).freeHead e
    · exact hs.commitCall hu
  · exact (hs.commitStoreEntry a _ _).freeHead e
  · exact ((Keeps.commitDest s e).robFits hs).freeHead e

theorem State.RobFits.commitOne {s t : State} (hs : s.RobFits) (h : s.commitOne = .next t) : t.RobFits := by
  obtain ⟨e, -, ⟨-, -, h⟩ | ⟨-, rfl⟩⟩ := State.commitOne_next h
  · exact hs.commitHead h
  · exact hs

/-! The engines. -/

theorem State.RobFits.endOfText {s : State} (h : s.RobFits) : s.endOfText.RobFits := by
  rw [State.endOfText_eq]
  exact h

theorem State.RobFits.endStep {t : State} (h : t.RobFits) : t.endStep.RobFits := by
  unfold State.endStep
  split <;> exact h

theorem State.RobFits.runInstruction {s t : State} (hs : s.RobFits) (h : s.runInstruction = .next t) : t.RobFits := by
  obtain ⟨k, -, rfl⟩ | ⟨w, -, ⟨-, rfl⟩ | ⟨i, u, -, hu, rfl⟩⟩ := State.runInstruction_next h
  · exact (Keeps.raise s _).robFits hs
  · exact (Keeps.raise s _).robFits hs
  · exact ((exec_keeps hu).robFits hs).endStep

theorem State.RobFits.stepFunctional {s t : State} (hs : s.RobFits) (h : stepFunctional s = .next t) : t.RobFits := by
  obtain ⟨-, rfl⟩ | ⟨-, ⟨-, rfl⟩ | ⟨-, ⟨-, rfl⟩ | ⟨-, ⟨-, rfl⟩ | ⟨-, h⟩⟩⟩⟩ := stepFunctional_next h
  · exact hs
  · exact hs
  · exact (Keeps.raise s _).robFits hs
  · exact hs
  · exact hs.runInstruction h

theorem State.RobFits.wbPhase {s t : State} (hs : s.RobFits) (h : s.wbPhase = .next t) : t.RobFits := by
  obtain ⟨-, rfl⟩ | ⟨w, -, -, h⟩ := State.wbPhase_next h
  · exact hs
  · have emptied : (s.setPipe { s.micro.pipe with wbs := none }).RobFits := hs
    exact emptied.retireSlot h

theorem State.RobFits.runCycle {s t : State} (hs : s.RobFits) (h : s.runCycle = .next t) : t.RobFits := by
  obtain ⟨u, hu, ⟨-, h⟩ | ⟨-, rfl⟩⟩ := State.runCycle_next h
  · exact (hs.wbPhase hu).of_le (Quiet.youngerPhases h).arch.cfg (congrArg Ooo.count (State.youngerPhases_ooo h)).le
  · exact hs.wbPhase hu

theorem State.RobFits.stepInOrder {s t : State} (hs : s.RobFits) (h : stepInOrder s = .next t) : t.RobFits := by
  obtain ⟨-, rfl⟩ | ⟨-, ⟨-, rfl⟩ | ⟨-, ⟨-, rfl⟩ | ⟨-, h⟩⟩⟩ := stepInOrder_next h
  · exact hs
  · exact hs
  · exact hs.endOfText
  · have counted : (s.countCycle.setPipe s.micro.pipe.countOccupancy).RobFits := hs
    exact counted.runCycle h

theorem State.RobFits.runOooCycle {s t : State} (hs : s.RobFits) (h : s.runOooCycle = .next t) : t.RobFits := by
  obtain ⟨u, hu, ht⟩ := State.runOooCycle_next h
  have committed : u.RobFits := State.commitPhase_keeps (fun hv _ h => hv.commitOne h) hs hu
  obtain ⟨-, h⟩ | ⟨-, rfl⟩ := ht
  · exact committed.laterPhases h
  · exact committed

theorem State.RobFits.stepOutOfOrder {s t : State} (hs : s.RobFits) (h : stepOutOfOrder s = .next t) : t.RobFits := by
  obtain ⟨-, rfl⟩ | ⟨-, ⟨-, rfl⟩ | ⟨-, ⟨-, rfl⟩ | ⟨-, h⟩⟩⟩ := stepOutOfOrder_next h
  · exact hs
  · exact hs
  · exact hs.endOfText
  · have counted : s.countCycle.RobFits := hs
    exact counted.runOooCycle h

/-- Settles O58, engine by engine: the buffer is empty after construction, and only a dispatch that finds room adds an
entry. -/
theorem reorderBufferWithinCapacity : Obligations.ReorderBufferWithinCapacity := by
  refine ⟨fun c => Nat.zero_le c.robCapacity, fun s t hs h => ?_⟩
  have fits : s.RobFits := hs
  obtain ⟨-, ⟨-, h⟩ | ⟨-, h⟩ | ⟨-, h⟩⟩ := step_next h
  · exact fits.stepFunctional h
  · exact fits.stepInOrder h
  · exact fits.stepOutOfOrder h

end Sys2Proof.Machine
end

section
/-!
49_ooo_engine.md R454, R457: what stalls dispatch, and what it takes otherwise.
-/

namespace Sys2Proof.Machine

theorem State.dispatchOne_of_stalled {s : State}
    (h : s.micro.ooo.fq = [] ∨ s.micro.ooo.fqWait ≠ 0 ∨ s.cfg.robCapacity ≤ s.micro.ooo.count) :
    s.dispatchOne = none := by
  unfold State.dispatchOne
  simp only
  split
  · rfl
  · rename_i front
    exact if_pos (h.resolve_left (by simp [front]))

/-- With an instruction in front of a buffer that does not wait and room for its entry, dispatch asks for a free station
of its class. -/
theorem State.dispatchOne_instr {s : State} {r : FetchRec} {rest : List FetchRec} {w : Word} {i : Instr}
    (front : s.micro.ooo.fq = r :: rest) (content : r.content = .ok w) (decoded : decode w = .ok i)
    (complete : s.micro.ooo.fqWait = 0) (room : s.micro.ooo.count < s.cfg.robCapacity) :
    s.dispatchOne =
      ((s.micro.ooo.fu (fuOf i)).stations.findIdx? Option.isNone).map (s.dispatchInstr r i) := by
  have unstalled : ¬ (s.micro.ooo.fqWait ≠ 0 ∨ s.cfg.robCapacity ≤ s.micro.ooo.count) := by omega
  simp only [State.dispatchOne, front, content, decoded, if_neg unstalled]

theorem findIdx?_isNone_eq_none_iff {α : Type} {xs : List (Option α)} :
    xs.findIdx? Option.isNone = none ↔ ∀ x ∈ xs, x.isSome = true := by
  simp [List.findIdx?_eq_none_iff, Option.isSome_iff_ne_none]

theorem State.dispatchInstr_fq {s : State} {i : Instr} (fetches : isSerialising i = false) (r : FetchRec) (k : Nat) :
    (s.dispatchInstr r i k).micro.ooo.fq = s.micro.ooo.fq.tail := by
  simp [State.dispatchInstr, fetches]

/-- Settles O60: a stalled buffer is tested first, and an instruction is taken exactly when its class has a free
station. -/
theorem dispatchStalls : Obligations.DispatchStalls := by
  refine fun s => ⟨State.dispatchOne_of_stalled, fun r rest w i front content decoded complete room => ⟨?_, ?_⟩⟩
  · rw [State.dispatchOne_instr front content decoded complete room, Option.map_eq_none_iff]
    exact findIdx?_isNone_eq_none_iff
  · intro t taken
    obtain ⟨-, -, one⟩ := State.dispatchOne_some taken
    refine ⟨one, fun fetches => ?_⟩
    rw [State.dispatchOne_instr front content decoded complete room, Option.map_eq_some_iff] at taken
    obtain ⟨k, -, rfl⟩ := taken
    rw [State.dispatchInstr_fq fetches, front, List.tail_cons]

end Sys2Proof.Machine
end

section
/-!
47_branch_predictor.md R361 to R369: what a resolution does to the direction table and to the branch target buffer, and
what is then predicted.
-/

namespace Sys2Proof.Machine

/-! Counters (R361, R363, R364). -/

theorem Counter.update_number (c : Counter) (taken : Bool) :
    (c.update taken).number = if taken then min (c.number + 1) 3 else c.number - 1 := by
  cases c <;> cases taken <;> rfl

theorem Counter.isTaken_iff (c : Counter) : c.isTaken = true ↔ 2 ≤ c.number := by
  cases c <;> decide

section
variable {cfg : Config} (mode : cfg.predictor = .twoBit) (p : Predictor) (pc target : Word) (taken : Bool)
include mode

theorem Predictor.resolve_table : (p.resolve cfg pc taken target).table =
    p.table.modify (counterIndex cfg.predEntries pc) (fun c => c.update taken) := by
  simp only [Predictor.resolve, mode]

theorem Predictor.resolve_btb : (p.resolve cfg pc taken target).btb =
    if taken then btbInsert cfg.btbEntries p.btb pc target else p.btb := by
  simp only [Predictor.resolve, mode]

theorem Predictor.predict_twoBit : p.predict cfg pc =
    if p.direction cfg.predEntries pc then (btbLookup p.btb pc).getD (pc + 4#32) else pc + 4#32 := by
  simp only [Predictor.predict, mode]

end

theorem Predictor.direction_iff {p : Predictor} {entries : Nat} {pc : Word} {c : Counter}
    (indexed : p.table[counterIndex entries pc]? = some c) : p.direction entries pc = true ↔ 2 ≤ c.number := by
  rw [Predictor.direction, List.getD_eq_getElem?_getD, indexed, Option.getD_some, Counter.isTaken_iff]

/-- Settles O52: a resolution modifies the one counter of its index. -/
theorem countersSaturate : Obligations.CountersSaturate := by
  rintro p cfg pc target taken _ c mode rfl indexed
  rw [Predictor.resolve_table mode]
  refine ⟨c.update taken, ?_, c.update_number taken, fun j other => ?_, Predictor.direction_iff indexed⟩
  · exact (List.getElem?_modify_eq _ _ _).trans (congrArg _ indexed)
  · exact List.getElem?_modify_ne _ _ other.symm

/-! The branch target buffer (R365 to R367). -/

section
variable {entries : Nat} (btb : List (Word × Word)) (pc target : Word)

theorem btbInsert_length_le : (btbInsert entries btb pc target).length ≤ entries := List.length_take_le _ _

/-- The inserted pair is in front, so it is never the one evicted. -/
theorem btbLookup_btbInsert_self (room : 1 ≤ entries) :
    btbLookup (btbInsert entries btb pc target) pc = some target := by
  obtain ⟨n, rfl⟩ := Nat.exists_eq_add_of_le' room
  simp [btbLookup, btbInsert]

theorem btbLookup_take (n : Nat) (a : Word) :
    btbLookup (btb.take n) a = btbLookup btb a ∨ btbLookup (btb.take n) a = none := by
  cases kept : (btb.take n).find? (fun e => e.1 == a) with
  | none => exact .inr (by simp [btbLookup, kept])
  | some e =>
    have whole : btb.find? (fun e => e.1 == a) = some e := by
      rw [← List.take_append_drop n btb, List.find?_append, kept, Option.some_or]
    exact .inl (by simp [btbLookup, kept, whole])

/-- The pair of another pc is kept, but for the eviction. -/
theorem btbLookup_btbInsert_other {a : Word} (other : a ≠ pc) :
    btbLookup (btbInsert entries btb pc target) a = btbLookup btb a ∨
      btbLookup (btbInsert entries btb pc target) a = none := by
  have unfiltered : (btb.filter (fun e => e.1 != pc)).find? (fun e => e.1 == a) = btb.find? (fun e => e.1 == a) := by
    rw [List.find?_filter]
    congr 1
    funext e
    by_cases he : e.1 = a <;> simp [he, other]
  have before : btbLookup ((pc, target) :: btb.filter (fun e => e.1 != pc)) a = btbLookup btb a := by
    have skipped : (pc == a) = false := by simpa using other.symm
    simp only [btbLookup, List.find?_cons, skipped, unfiltered]
  rw [← before]
  exact btbLookup_take _ entries a

end

/-- Settles O53: the pair of the resolved pc moves to the front of the buffer, where no eviction reaches it. -/
theorem targetBufferLearns : Obligations.TargetBufferLearns := by
  refine fun p cfg pc t room => ⟨?taken, ?notTaken, ?static⟩
  case taken =>
    rintro mode _ rfl
    have btb : (p.resolve cfg pc true t).btb = btbInsert cfg.btbEntries p.btb pc t := p.resolve_btb mode pc t true
    have learnt : btbLookup (p.resolve cfg pc true t).btb pc = some t := by
      rw [btb]
      exact btbLookup_btbInsert_self _ _ _ room
    refine ⟨learnt, ?_, fun a other => ?_, fun direction => ?_, fun direction => ?_⟩
    · rw [btb]
      exact btbInsert_length_le _ _ _
    · rw [btb]
      exact btbLookup_btbInsert_other _ _ _ other
    · rw [Predictor.predict_twoBit mode, direction, learnt]
      rfl
    · rw [Predictor.predict_twoBit mode, direction]
      rfl
  case notTaken => exact fun mode => p.resolve_btb mode pc t false
  case static =>
    intro mode b
    simp only [Predictor.resolve, Predictor.predict, mode, and_self]

end Sys2Proof.Machine
end

section
/-!
48_pipeline_inorder.md R395, R396: the load-use stall of ID.
-/

namespace Sys2Proof.Machine

theorem namesMeet_iff {a b : List RegName} : namesMeet a b = true ↔ ∃ n, n ∈ a ∧ n ∈ b := by
  simp [namesMeet]

/-- With forwarding, the hazard of an unfaulted instruction in EX is that of a load that writes a source. -/
theorem hazard_forwarding_iff {i j : Instr} {e : Slot} {mem wb : Option Slot} (unfaulted : e.fault = none)
    (executing : e.instr = some j) (tag : e.producerTag = destNames j) :
    hazard true i (some e) mem wb = true ↔ isLoad j = true ∧ ∃ n, n ∈ sourceNames i ∧ n ∈ destNames j := by
  simp [hazard, stageLoads, stageWrites, unfaulted, executing, tag, namesMeet_iff]

theorem State.idPhase_undecoded {s : State} {d : Slot} {i : Instr} {wb : Option Slot} (held : s.micro.pipe.ids = some d)
    (unfaulted : d.fault = none) (undecoded : d.instr = none) (decoded : decode d.word = .ok i) :
    s.idPhase wb = s.readOperands d i wb := by
  simp only [State.idPhase, held, unfaulted, undecoded, decoded]

section
variable {s : State} {d : Slot} {i : Instr} {wb : Option Slot} (plain : isSerialising i = false)
include plain

/-- An instruction with a hazard waits in ID, and the stall is counted. -/
theorem State.readOperands_stalls (h : hazard s.cfg.forwarding i s.micro.pipe.exs s.micro.pipe.mems wb = true) :
    (s.readOperands d i wb).2 = true ∧
      (s.readOperands d i wb).1.micro.pipe.stallData = s.micro.pipe.stallData + 1 := by
  simp [State.readOperands, plain, h, State.setPipe]

/-- An instruction without a hazard reads its operands, and no stall is counted. -/
theorem State.readOperands_reads (h : hazard s.cfg.forwarding i s.micro.pipe.exs s.micro.pipe.mems wb = false) :
    (s.readOperands d i wb).2 = false ∧
      (s.readOperands d i wb).1.micro.pipe.stallData = s.micro.pipe.stallData ∧
      ∃ d', (s.readOperands d i wb).1.micro.pipe.ids = some d' ∧ d'.instr = some i ∧
        d'.ops = (sourceNames i).map (fun n => (n, s.readName n)) := by
  simp [State.readOperands, plain, h, State.setPipe]

end

/-- Settles O59: ID reads its operands unless there is a hazard, and with forwarding the hazard is the load-use one. -/
theorem loadUseStall : Obligations.LoadUseStall := by
  intro s d e i j wb forwarding held unfaulted undecoded decoded plain inEx exUnfaulted executing tag
  have loadUse : hazard s.cfg.forwarding i s.micro.pipe.exs s.micro.pipe.mems wb = true ↔
      isLoad j = true ∧ ∃ n, n ∈ sourceNames i ∧ n ∈ destNames j := by
    rw [forwarding, inEx]
    exact hazard_forwarding_iff exUnfaulted executing tag
  rw [State.idPhase_undecoded held unfaulted undecoded decoded, ← loadUse]
  cases stalls : hazard s.cfg.forwarding i s.micro.pipe.exs s.micro.pipe.mems wb with
  | true =>
    obtain ⟨waits, counted⟩ := State.readOperands_stalls (d := d) plain stalls
    simp [waits, counted]
  | false =>
    obtain ⟨leaves, counted, read⟩ := State.readOperands_reads (d := d) plain stalls
    exact ⟨by rw [leaves], by rw [leaves, counted]; rfl, fun _ => read⟩

end Sys2Proof.Machine
end
